-- ==== Sys2Proof/Word.lean ====
section
/-! DEFINITION. The word types of the block: bytes of the text buffer, digit cells, command words. -/

namespace Sys2Proof

/-- A byte of the text buffer (20_memory.md R37). -/
abbrev Byte := BitVec 8

/-- A digit cell of `DW = 4` bits, so always in `[0, RADIX)` (10_state.md R19, R22). -/
abbrev Digit := BitVec 4

/-- A command word (30_encoding.md R57). -/
abbrev CommandWord := BitVec 32

end Sys2Proof
end

