-- ==== Sys2Proof/Syntax.lean ====
section
/-! DEFINITION. The 31 commands of 30_encoding.md R62 as abstract syntax, with their register operands (R60), and the
five encoding formats (R59). -/

namespace Sys2Proof

/-- A value register index: a three-bit field, so every value names a register (30_encoding.md R58). -/
abbrev VReg := Fin 8

/-- A scalar register index (30_encoding.md R58). -/
abbrev XReg := Fin 8

/-- The five formats of 30_encoding.md R59. -/
inductive Format where
  | d
  | ds
  | dss
  | s
  | ddss
deriving DecidableEq, Repr

/-- The commands of 30_encoding.md R62; which file a field indexes is R60. -/
inductive Instr where
  -- digit store
  | canon (rd : VReg)
  | mov (rd : VReg) (rs1 : VReg)
  | len (rd : XReg) (rs1 : VReg)
  | digit (rd : XReg) (rs1 : VReg) (rs2 : XReg)
  | isneg (rd : XReg) (rs1 : VReg)
  -- magnitude_comparator
  | mlt (rd : XReg) (rs1 : VReg) (rs2 : VReg)
  | cmplt (rd : XReg) (rs1 : VReg) (rs2 : VReg)
  | cmple (rd : XReg) (rs1 : VReg) (rs2 : VReg)
  | cmpgt (rd : XReg) (rs1 : VReg) (rs2 : VReg)
  | cmpge (rd : XReg) (rs1 : VReg) (rs2 : VReg)
  | cmpeq (rd : XReg) (rs1 : VReg) (rs2 : VReg)
  | cmpne (rd : XReg) (rs1 : VReg) (rs2 : VReg)
  -- magnitude_adder, magnitude_subtractor_borrow, sign resolver
  | madd (rd : VReg) (rs1 : VReg) (rs2 : VReg)
  | msub (rd : VReg) (rs1 : VReg) (rs2 : VReg)
  | add (rd : VReg) (rs1 : VReg) (rs2 : VReg)
  | sub (rd : VReg) (rs1 : VReg) (rs2 : VReg)
  | neg (rd : VReg) (rs1 : VReg)
  | inc (rd : VReg) (rs1 : VReg)
  | dec (rd : VReg) (rs1 : VReg)
  -- radix_shifter
  | shl (rd : VReg) (rs1 : VReg) (rs2 : XReg)
  | shr (rd : VReg) (rs1 : VReg) (rs2 : XReg)
  -- schoolbook_multiplier
  | mul (rd : VReg) (rs1 : VReg) (rs2 : VReg)
  -- long_divider_with_remainder
  | div (rd : VReg) (rs1 : VReg) (rs2 : VReg)
  | mod (rd : VReg) (rs1 : VReg) (rs2 : VReg)
  | divrem (rd : VReg) (rd2 : VReg) (rs1 : VReg) (rs2 : VReg)
  -- decimal_hex_text_codec
  | parse (rd : VReg)
  | fmtd (rs1 : VReg)
  | fmth (rs1 : VReg)
  | fmto (rs1 : VReg)
  | fromint (rd : VReg) (rs1 : XReg)
  | toint (rd : XReg) (rs1 : VReg)
deriving DecidableEq, Repr

end Sys2Proof
end

