-- ==== Sys2Proof/WellFormed.lean ====
section
/-! DEFINITION. Which abstract commands exist. Register indices are in range by their type; the one restriction left is
that the two destinations of DIVREM differ (30_encoding.md R65). -/

namespace Sys2Proof

/-- `DIVREM` needs `rd ≠ rd2` (30_encoding.md R65); every other operand combination is a command (R62). -/
def Instr.wellFormed : Instr → Bool
  | .divrem rd rd2 _ _ => decide (rd ≠ rd2)
  | .canon _ | .mov _ _ | .len _ _ | .digit _ _ _ | .isneg _ _
  | .mlt _ _ _ | .cmplt _ _ _ | .cmple _ _ _ | .cmpgt _ _ _ | .cmpge _ _ _ | .cmpeq _ _ _ | .cmpne _ _ _
  | .madd _ _ _ | .msub _ _ _ | .add _ _ _ | .sub _ _ _ | .neg _ _ | .inc _ _ | .dec _ _
  | .shl _ _ _ | .shr _ _ _ | .mul _ _ _ | .div _ _ _ | .mod _ _ _
  | .parse _ | .fmtd _ | .fmth _ | .fmto _ | .fromint _ _ | .toint _ _ => true

end Sys2Proof
end

