-- ==== Sys2Proof/Decode.lean ====
section
/-! DEFINITION. Decoding of command words, total on all 2^32 words and rejecting by name (30_encoding.md R63 to R65),
and the encoder (R71). -/

namespace Sys2Proof

/-- Why a word is no command (30_encoding.md R64, R65). -/
inductive Illegal where
  /-- The opcode is not one of the 31 of R62. -/
  | unassignedOpcode
  /-- A bit the format requires to be zero is one. -/
  | nonzeroUnusedBit
  /-- `DIVREM` with `rd == rd2`. -/
  | sameDestination
deriving DecidableEq, Repr

/-- What a word decodes to. -/
inductive Decoded where
  | command (i : Instr)
  | illegal (why : Illegal)
deriving DecidableEq, Repr

/-- `w[31:24]` (30_encoding.md R58). -/
def opcodeOf (w : CommandWord) : BitVec 8 := w.extractLsb' 24 8

/-- The three-bit register field whose low bit is bit `lo` of the word. -/
def regField (w : CommandWord) (lo : Nat) : Fin 8 := Fin.ofNat 8 (w.toNat >>> lo)

/-- `w[23:21]`. -/
def rdOf (w : CommandWord) : Fin 8 := regField w 21

/-- `w[20:18]`. -/
def rd2Of (w : CommandWord) : Fin 8 := regField w 18

/-- `w[17:15]`. -/
def rs1Of (w : CommandWord) : Fin 8 := regField w 15

/-- `w[14:12]`. -/
def rs2Of (w : CommandWord) : Fin 8 := regField w 12

/-- The bits that must equal the row's `match`, per format (30_encoding.md R59). -/
def maskOf : Format → CommandWord
  | .d => 0xFF1FFFFF#32
  | .ds => 0xFF1C7FFF#32
  | .dss => 0xFF1C0FFF#32
  | .s => 0xFFFC7FFF#32
  | .ddss => 0xFF000FFF#32

/-- `match` is `opcode << 24` for every command (30_encoding.md R59). -/
def matchOf (op : BitVec 8) : CommandWord := op.setWidth 32 <<< 24

/-- The opcode map of 30_encoding.md R62 read from the opcode: the format and the command with the fields it uses. -/
def rowOf (op : BitVec 8) (rd rd2 rs1 rs2 : Fin 8) : Option (Format × Instr) :=
  match op with
  | 0x10#8 => some (.d, .canon rd)
  | 0x11#8 => some (.ds, .mov rd rs1)
  | 0x12#8 => some (.ds, .len rd rs1)
  | 0x13#8 => some (.dss, .digit rd rs1 rs2)
  | 0x14#8 => some (.ds, .isneg rd rs1)
  | 0x20#8 => some (.dss, .mlt rd rs1 rs2)
  | 0x21#8 => some (.dss, .cmplt rd rs1 rs2)
  | 0x22#8 => some (.dss, .cmple rd rs1 rs2)
  | 0x23#8 => some (.dss, .cmpgt rd rs1 rs2)
  | 0x24#8 => some (.dss, .cmpge rd rs1 rs2)
  | 0x25#8 => some (.dss, .cmpeq rd rs1 rs2)
  | 0x26#8 => some (.dss, .cmpne rd rs1 rs2)
  | 0x30#8 => some (.dss, .madd rd rs1 rs2)
  | 0x31#8 => some (.dss, .msub rd rs1 rs2)
  | 0x32#8 => some (.dss, .add rd rs1 rs2)
  | 0x33#8 => some (.dss, .sub rd rs1 rs2)
  | 0x34#8 => some (.ds, .neg rd rs1)
  | 0x35#8 => some (.ds, .inc rd rs1)
  | 0x36#8 => some (.ds, .dec rd rs1)
  | 0x40#8 => some (.dss, .shl rd rs1 rs2)
  | 0x41#8 => some (.dss, .shr rd rs1 rs2)
  | 0x50#8 => some (.dss, .mul rd rs1 rs2)
  | 0x60#8 => some (.dss, .div rd rs1 rs2)
  | 0x61#8 => some (.dss, .mod rd rs1 rs2)
  | 0x62#8 => some (.ddss, .divrem rd rd2 rs1 rs2)
  | 0x70#8 => some (.d, .parse rd)
  | 0x71#8 => some (.s, .fmtd rs1)
  | 0x72#8 => some (.s, .fmth rs1)
  | 0x73#8 => some (.s, .fmto rs1)
  | 0x74#8 => some (.ds, .fromint rd rs1)
  | 0x75#8 => some (.ds, .toint rd rs1)
  | _ => none

/-- Decoding in the order of 30_encoding.md R63: the opcode, the mask, the `DIVREM` destinations. -/
def decode (w : CommandWord) : Decoded :=
  match rowOf (opcodeOf w) (rdOf w) (rd2Of w) (rs1Of w) (rs2Of w) with
  | none => .illegal .unassignedOpcode
  | some (fmt, i) =>
    if w &&& maskOf fmt ≠ matchOf (opcodeOf w) then .illegal .nonzeroUnusedBit
    else if i.wellFormed then .command i
    else .illegal .sameDestination

/-- What the encoder puts into the word's fields (30_encoding.md R58); a field the format does not use is 0. -/
structure Fields where
  opcode : BitVec 8
  format : Format
  rd : Fin 8
  rd2 : Fin 8
  rs1 : Fin 8
  rs2 : Fin 8
deriving DecidableEq, Repr

/-- Fields of a format `D` command. -/
def fieldsD (op : BitVec 8) (rd : Fin 8) : Fields := ⟨op, .d, rd, 0, 0, 0⟩

/-- Fields of a format `DS` command. -/
def fieldsDS (op : BitVec 8) (rd rs1 : Fin 8) : Fields := ⟨op, .ds, rd, 0, rs1, 0⟩

/-- Fields of a format `DSS` command. -/
def fieldsDSS (op : BitVec 8) (rd rs1 rs2 : Fin 8) : Fields := ⟨op, .dss, rd, 0, rs1, rs2⟩

/-- Fields of a format `S` command. -/
def fieldsS (op : BitVec 8) (rs1 : Fin 8) : Fields := ⟨op, .s, 0, 0, rs1, 0⟩

/-- The opcode map of 30_encoding.md R62 read from the command. -/
def fieldsOf : Instr → Fields
  | .canon rd => fieldsD 0x10#8 rd
  | .mov rd rs1 => fieldsDS 0x11#8 rd rs1
  | .len rd rs1 => fieldsDS 0x12#8 rd rs1
  | .digit rd rs1 rs2 => fieldsDSS 0x13#8 rd rs1 rs2
  | .isneg rd rs1 => fieldsDS 0x14#8 rd rs1
  | .mlt rd rs1 rs2 => fieldsDSS 0x20#8 rd rs1 rs2
  | .cmplt rd rs1 rs2 => fieldsDSS 0x21#8 rd rs1 rs2
  | .cmple rd rs1 rs2 => fieldsDSS 0x22#8 rd rs1 rs2
  | .cmpgt rd rs1 rs2 => fieldsDSS 0x23#8 rd rs1 rs2
  | .cmpge rd rs1 rs2 => fieldsDSS 0x24#8 rd rs1 rs2
  | .cmpeq rd rs1 rs2 => fieldsDSS 0x25#8 rd rs1 rs2
  | .cmpne rd rs1 rs2 => fieldsDSS 0x26#8 rd rs1 rs2
  | .madd rd rs1 rs2 => fieldsDSS 0x30#8 rd rs1 rs2
  | .msub rd rs1 rs2 => fieldsDSS 0x31#8 rd rs1 rs2
  | .add rd rs1 rs2 => fieldsDSS 0x32#8 rd rs1 rs2
  | .sub rd rs1 rs2 => fieldsDSS 0x33#8 rd rs1 rs2
  | .neg rd rs1 => fieldsDS 0x34#8 rd rs1
  | .inc rd rs1 => fieldsDS 0x35#8 rd rs1
  | .dec rd rs1 => fieldsDS 0x36#8 rd rs1
  | .shl rd rs1 rs2 => fieldsDSS 0x40#8 rd rs1 rs2
  | .shr rd rs1 rs2 => fieldsDSS 0x41#8 rd rs1 rs2
  | .mul rd rs1 rs2 => fieldsDSS 0x50#8 rd rs1 rs2
  | .div rd rs1 rs2 => fieldsDSS 0x60#8 rd rs1 rs2
  | .mod rd rs1 rs2 => fieldsDSS 0x61#8 rd rs1 rs2
  | .divrem rd rd2 rs1 rs2 => ⟨0x62#8, .ddss, rd, rd2, rs1, rs2⟩
  | .parse rd => fieldsD 0x70#8 rd
  | .fmtd rs1 => fieldsS 0x71#8 rs1
  | .fmth rs1 => fieldsS 0x72#8 rs1
  | .fmto rs1 => fieldsS 0x73#8 rs1
  | .fromint rd rs1 => fieldsDS 0x74#8 rd rs1
  | .toint rd rs1 => fieldsDS 0x75#8 rd rs1

/-- A three-bit field placed with its low bit at bit `lo`. -/
def placeField (f : Fin 8) (lo : Nat) : CommandWord := BitVec.ofNat 32 f.val <<< lo

/-- The word of a set of fields: `(opcode << 24) | (rd << 21) | (rd2 << 18) | (rs1 << 15) | (rs2 << 12)`
(30_encoding.md R71). -/
def wordOf (f : Fields) : CommandWord :=
  matchOf f.opcode ||| placeField f.rd 21 ||| placeField f.rd2 18 ||| placeField f.rs1 15 ||| placeField f.rs2 12

/-- The encoder (30_encoding.md R71). -/
def encode (i : Instr) : CommandWord := wordOf (fieldsOf i)

/-- The command of `decode`, if the word is one. -/
def Decoded.toOption : Decoded → Option Instr
  | .command i => some i
  | .illegal _ => none

/-- The command this decoder reads from the bits `w` of an opcode-table row of `nbits` bits; a command is one 32-bit
word (30_encoding.md R57), so bits above `nbits` are zero. -/
def decodeTableWord (nbits w : Nat) : Option Instr := (decode (BitVec.ofNat 32 (w % 2 ^ nbits))).toOption

end Sys2Proof
end

