-- ==== Sys2Proof/Config.lean ====
section
/-! DEFINITION. The implementation parameters of 00_scope.md R6 and the constraints of R7. RADIX, DW, NV and NX are
fixed by R6; MAX_DIGITS, W and TEXT_MAX are OPEN there, "an argument of the model", and are carried as data. -/

namespace Sys2Proof

/-- The OPEN parameters of 00_scope.md R6. -/
structure Params where
  /-- `MAX_DIGITS`: greatest digit count of a canonical value. -/
  maxDigits : Nat
  /-- `W`: bits of a machine integer and of a scalar register. -/
  width : Nat
  /-- `TEXT_MAX`: bytes in the text buffer. -/
  textMax : Nat
deriving DecidableEq, Repr

namespace Config

/-- `DW`, bits in one digit (R6, D1). -/
def dw : Nat := 4

/-- `RADIX = 2^DW` (R6, D1). -/
def radix : Nat := 16

/-- The defaults of R6: `MAX_DIGITS = 64`, `W = 32`, `TEXT_MAX = 128`. -/
def defaults : Params := { maxDigits := 64, width := 32, textMax := 128 }

/-- `RAW_MAX = 2 * MAX_DIGITS` (R6, D5). -/
def rawMax (p : Params) : Nat := 2 * p.maxDigits

end Config

/-- The constraints a configuration must meet (00_scope.md R7); `(n + 2) / 3` is `ceil(n / 3)`. -/
abbrev Params.Meets (p : Params) : Prop :=
  1 ≤ p.maxDigits ∧ 2 ≤ p.width ∧ p.maxDigits + 1 ≤ Config.rawMax p ∧
    2 + (p.maxDigits * Config.dw + 2) / 3 ≤ p.textMax

end Sys2Proof
end

