-- ==== Sys2Proof/Machine/State.lean ====
section
/-! DEFINITION. The state of the block as plain data (10_state.md R17 to R36), the reasons a step can stop, and the
state after reset. -/

namespace Sys2Proof.Machine

/-- A value `(s, d)` (00_scope.md R11): `sign` is the sign bit, `digits` lists `d[0], d[1], ...`, least significant
first (10_state.md R19 allows a sign and a list of `len` digits). -/
structure Value where
  sign : Bool
  digits : List Digit
deriving DecidableEq, Repr

/-- `ZERO = (0, [0])` (00_scope.md R11). -/
def Value.zero : Value := { sign := false, digits := [0#4] }

/-- A file of eight registers (10_state.md R17, R21). -/
structure RegFile (α : Type) where
  r0 : α
  r1 : α
  r2 : α
  r3 : α
  r4 : α
  r5 : α
  r6 : α
  r7 : α
deriving DecidableEq, Repr

/-- Eight registers holding the same content. -/
def RegFile.fill {α : Type} (a : α) : RegFile α := ⟨a, a, a, a, a, a, a, a⟩

/-- The raw staging register: sign bit, length, and the `RAW_MAX` digit cells, cell `i` of weight `RADIX^i`
(10_state.md R22). -/
structure Raw where
  sign : Bool
  len : Nat
  cells : List Digit
deriving DecidableEq, Repr

/-- The stored fields of `STATUS` (10_state.md R26); its reserved bits have no storage. -/
structure Status where
  /-- `ERR`, bits 7:0. -/
  err : Byte
  /-- `ABORT`, bit 8. -/
  abort : Bool
  /-- `WARN`, bit 9. -/
  warn : Bool
deriving DecidableEq, Repr

/-- The stored field of `CFG` (10_state.md R30); its reserved bits have no storage. -/
structure Cfg where
  /-- `PCOMPAT`, bit 0: the parse mode. -/
  pcompat : Bool
deriving DecidableEq, Repr

/-- What a host read names (70_reset_and_hazards.md R216). -/
inductive Port where
  | vSign (i : VReg)
  | vLen (i : VReg)
  | vDigit (i : VReg) (k : Nat)
  | x (i : XReg)
  | rawSign
  | rawLen
  | rawDigit (k : Nat)
  | text (k : Nat)
  | textLen
  | status
  | cfg
deriving DecidableEq, Repr

/-- One action of the host between commands: the rows of 70_reset_and_hazards.md R216 that are allowed. -/
inductive HostAction where
  | command (w : CommandWord)
  | writeX (i : XReg) (n : Nat)
  | writeRawSign (b : Bool)
  | writeRawLen (n : Nat)
  | writeRawDigit (k : Nat) (d : Digit)
  | writeText (k : Nat) (b : Byte)
  | writeTextLen (n : Nat)
  | writeCfg (w : BitVec 32)
  | read (p : Port)
  | reset
deriving DecidableEq, Repr

/-- The machine. `params` and `host` are the model's own fields (assumption log 1 and 2); the rest is the block's state
(10_state.md). -/
structure State where
  /-- The OPEN parameters of 00_scope.md R6, fixed for one block. -/
  params : Params
  /-- `V[0]` to `V[7]` (R17). -/
  v : RegFile Value
  /-- `X[0]` to `X[7]` as unsigned integers of `W` bits (R21). -/
  x : RegFile Nat
  /-- `RAW` (R22). -/
  raw : Raw
  /-- `TBUF`: the bytes not equal to `Memory.unlisted`, by rising index (R24). -/
  tbuf : List Host.Cell
  /-- `TLEN` (R24). -/
  tlen : Nat
  /-- `STATUS` (R26). -/
  status : Status
  /-- `CFG` (R30). -/
  cfg : Cfg
  /-- What the host does next, first action first (70_reset_and_hazards.md R218). -/
  host : List HostAction
deriving DecidableEq, Repr

/-- Why a step stops. No command raises one from a state that meets `State.Inv` (Safety.lean). -/
inductive Fault where
  /-- A text-buffer index at or above `TEXT_MAX` does not exist (20_memory.md R37). Raised by PARSE when `TLEN` is above
  `TEXT_MAX`, by FMTD and FMTH when the text does not fit (both outside the spec, R49), and by a host access of such an
  index. Safe: the model stops where the spec gives no access. -/
  | textOutOfRange (addr : Nat)
  /-- The host names a `RAW` cell at or above `RAW_MAX`, which does not exist (10_state.md R22). Safe. -/
  | rawOutOfRange (index : Nat)
  /-- The division loop ran past the bound of 45_divider.md R141, or the decimal formatter past the digits its value can
  have: only on a register that is not canonical, which 10_state.md R18 excludes. Safe. -/
  | loopBound
deriving DecidableEq, Repr

/-- Why a step has no meaning. -/
inductive Refusal where
  /-- An instruction without a meaning; no arm of exec answers it. Safe: the model stops. -/
  | notModelled (mnemonic : String)
deriving DecidableEq, Repr

/-- Every piece of state at its reset value (10_state.md R36) for a block with parameters `p` whose host does `host`
next. -/
def State.resetWith (p : Params) (host : List HostAction) : State :=
  { params := p
    v := RegFile.fill Value.zero
    x := RegFile.fill 0
    raw := { sign := false, len := 0, cells := List.replicate (Config.rawMax p) 0#4 }
    tbuf := []
    tlen := 0
    status := { err := 0#8, abort := false, warn := false }
    cfg := { pcompat := false }
    host := host }

/-- The machine right after reset (10_state.md R36) with the default parameters of 00_scope.md R6 and nothing
presented yet. -/
def State.reset : State := State.resetWith Config.defaults []

end Sys2Proof.Machine
end

