-- ==== Sys2Proof/Machine/Flags.lean ====
section
/-! DEFINITION. The outcome codes, the STATUS and CFG words, and truth values. The block has no condition codes
(10_state.md R32): these are all its flag-like computations. -/

namespace Sys2Proof.Machine

/-- The named error kinds (60_exceptions.md R183). -/
inductive ErrorKind where
  | divideByZero
  | capacityExceeded
  | overflow
  | parseError
  | invalidShiftAmount
  | unsupportedFormat
  | illegalCommand
deriving DecidableEq, Repr

/-- The code `STATUS.ERR` takes (60_exceptions.md R183). -/
def errorCode : ErrorKind → Byte
  | .divideByZero => 1#8
  | .capacityExceeded => 2#8
  | .overflow => 3#8
  | .parseError => 4#8
  | .invalidShiftAmount => 5#8
  | .unsupportedFormat => 6#8
  | .illegalCommand => 7#8

/-- The code of success (60_exceptions.md R183). -/
def successCode : Byte := 0#8

/-- The code of an abort and of every command presented after one (60_exceptions.md R183, R192, R193). -/
def abortedCode : Byte := 0xFF#8

/-- `STATUS` as the host reads it: `ERR` in bits 7:0, `ABORT` bit 8, `WARN` bit 9, the rest zero (10_state.md R26). -/
def statusWord (st : Status) : BitVec 32 :=
  st.err.setWidth 32 ||| (if st.abort then 0x100#32 else 0#32) ||| (if st.warn then 0x200#32 else 0#32)

/-- `CFG` as the host reads it: `PCOMPAT` in bit 0, the rest zero (10_state.md R30). -/
def cfgWord (c : Cfg) : BitVec 32 := if c.pcompat then 1#32 else 0#32

/-- What a host write of `CFG` keeps: bit 0 (10_state.md R30). -/
def cfgOfWord (w : BitVec 32) : Cfg := { pcompat := w.getLsbD 0 }

/-- A truth value as the integer written to a scalar register: 1 for true, 0 for false (41_comparator.md R86). -/
def truth (b : Bool) : Int := if b then 1 else 0

end Sys2Proof.Machine
end

