-- ==== Sys2Proof/Machine/Ops.lean ====
section
/-! DEFINITION. The named operations over registers and the text buffer, the outcomes of a command (success, failure,
abort) with the state each leaves, and the shared ways a command writes its result. -/

namespace Sys2Proof.Machine

/-! ### Register files -/

/-- Register `i` of a file. -/
def RegFile.get {α : Type} (f : RegFile α) (i : Fin 8) : α :=
  match i with
  | 0 => f.r0
  | 1 => f.r1
  | 2 => f.r2
  | 3 => f.r3
  | 4 => f.r4
  | 5 => f.r5
  | 6 => f.r6
  | 7 => f.r7

/-- The file with register `i` holding `a` and every other register as it was (10_state.md R20). -/
def RegFile.set {α : Type} (f : RegFile α) (i : Fin 8) (a : α) : RegFile α :=
  match i with
  | 0 => { f with r0 := a }
  | 1 => { f with r1 := a }
  | 2 => { f with r2 := a }
  | 3 => { f with r3 := a }
  | 4 => { f with r4 := a }
  | 5 => { f with r5 := a }
  | 6 => { f with r6 := a }
  | 7 => { f with r7 := a }

/-- `V[i]` (00_scope.md R12). -/
def State.readV (s : State) (i : VReg) : Value := s.v.get i

/-- `V[i] <- a` (00_scope.md R12). -/
def State.writeV (s : State) (i : VReg) (a : Value) : State := { s with v := s.v.set i a }

/-- `uX[i]`: the `W`-bit word of `X[i]` as an unsigned integer (00_scope.md R12). -/
def State.uX (s : State) (i : XReg) : Nat := (BitVec.ofNat s.params.width (s.x.get i)).toNat

/-- `sX[i]`: the same word in two's complement (00_scope.md R12, 20_memory.md R43). -/
def State.sX (s : State) (i : XReg) : Int := (BitVec.ofNat s.params.width (s.x.get i)).toInt

/-- `X[i] <- n`: the low `W` bits of `n` (00_scope.md R12). -/
def State.writeX (s : State) (i : XReg) (n : Int) : State :=
  { s with x := s.x.set i (BitVec.ofInt s.params.width n).toNat }

/-! ### The text buffer -/

/-- What a text-buffer byte that nothing has written reads as: the reset contents (10_state.md R36). -/
def Memory.unlisted : Byte := 0#8

/-- The byte at index `a`. -/
def Memory.read : List Host.Cell → Nat → Byte
  | [], _ => Memory.unlisted
  | (k, b) :: m, a => if k = a then b else Memory.read m a

/-- Byte `b` put in front of the cells `m`, all of higher index; not listed when it is the unlisted byte. -/
def Memory.cons (a : Nat) (b : Byte) (m : List Host.Cell) : List Host.Cell :=
  if b = Memory.unlisted then m else (a, b) :: m

/-- The cells with the byte at index `a` written to `b`, in the canonical form. -/
def Memory.write : List Host.Cell → Nat → Byte → List Host.Cell
  | [], a, b => Memory.cons a b []
  | (k, c) :: m, a, b =>
    if a < k then Memory.cons a b ((k, c) :: m)
    else if a = k then Memory.cons a b m
    else (k, c) :: Memory.write m a b

/-- The bytes of a text written from index `a` on, lowest index first (20_memory.md R38). -/
def Memory.writeAll : List Host.Cell → Nat → List Byte → List Host.Cell
  | m, _, [] => m
  | m, a, b :: bs => Memory.writeAll (Memory.write m a b) (a + 1) bs

/-- The `n` bytes from index `a` on, lowest index first. -/
def Memory.readAll (m : List Host.Cell) : Nat → Nat → List Byte
  | _, 0 => []
  | a, n + 1 => Memory.read m a :: Memory.readAll m (a + 1) n

/-- The canonical form: indices strictly rising, no cell equal to what an unlisted index reads as. -/
def Memory.wf : List Host.Cell → Bool
  | [] => true
  | (k, b) :: m => decide (b ≠ Memory.unlisted) && m.all (fun c => decide (k < c.1)) && Memory.wf m

/-- The text: `TBUF[0], ..., TBUF[TLEN-1]` (10_state.md R24). -/
def State.text (s : State) : List Byte := Memory.readAll s.tbuf 0 s.tlen

/-- `TBUF[0 .. n-1]` and `TLEN` written with a text of `n` characters; bytes at and above `n` keep their content
(46_text_codec.md R155). -/
def State.writeText (s : State) (out : List Byte) : State :=
  { s with tbuf := Memory.writeAll s.tbuf 0 out, tlen := out.length }

/-! ### Outcomes of a command -/

/-- A command that succeeds writes `STATUS.ERR <- 0` (60_exceptions.md R186). -/
def State.succeed (s : State) : State := { s with status := { s.status with err := successCode } }

/-- A command that fails writes `STATUS.ERR <- code` and nothing else (60_exceptions.md R186): all there is of entering
an exception (R194). -/
def State.failWith (s : State) (k : ErrorKind) : State :=
  { s with status := { s.status with err := errorCode k } }

/-- An abort writes `STATUS.ABORT <- 1`, `STATUS.ERR <- 0xFF` and nothing else (60_exceptions.md R192). -/
def State.abortBlock (s : State) : State :=
  { s with status := { s.status with err := abortedCode, abort := true } }

/-- A word presented while `STATUS.ABORT = 1` writes `STATUS.ERR <- 0xFF` and nothing else (60_exceptions.md R193). -/
def State.discardWord (s : State) : State :=
  { s with status := { s.status with err := abortedCode } }

/-- `STATUS.WARN`, written only by PARSE (10_state.md R29). -/
def State.setWarn (s : State) (b : Bool) : State := { s with status := { s.status with warn := b } }

/-- The outcomes of an internal function (00_scope.md R12): `ok`, `fail`, `abort`; and `stuck`, the model's own, where a
loop leaves the bound the spec gives it. -/
inductive Res (α : Type) where
  | ok (a : α)
  | fail (k : ErrorKind)
  | abort
  | stuck (f : Fault)
deriving DecidableEq, Repr

/-- A caller that gets anything but `ok` from a function it uses stops and has the same outcome (00_scope.md R12,
60_exceptions.md R187). -/
def Res.bind {α β : Type} (r : Res α) (f : α → Res β) : Res β :=
  match r with
  | .ok a => f a
  | .fail k => .fail k
  | .abort => .abort
  | .stuck e => .stuck e

/-- How a command ends: on `ok` it writes its result and succeeds; otherwise `STATUS` alone records the outcome
(60_exceptions.md R186, R192). -/
def finish {α : Type} (r : Res α) (write : α → State → State) (s : State) : Host.Outcome State Fault Refusal :=
  match r with
  | .ok a => .next (write a s).succeed
  | .fail k => .next (s.failWith k)
  | .abort => .next s.abortBlock
  | .stuck e => .fault e

/-- A command whose result is a value. -/
def finishV (rd : VReg) (r : Res Value) (s : State) : Host.Outcome State Fault Refusal :=
  finish r (fun a t => t.writeV rd a) s

/-- A command whose result is a machine integer. -/
def finishX (rd : XReg) (r : Res Int) (s : State) : Host.Outcome State Fault Refusal :=
  finish r (fun n t => t.writeX rd n) s

/-- A command whose result is a text: every byte written lies below `TEXT_MAX`, or the step faults (20_memory.md
R49). -/
def finishText (r : Res (List Byte)) (s : State) : Host.Outcome State Fault Refusal :=
  finish (r.bind fun out =>
      if out.length ≤ s.params.textMax then .ok out else .stuck (.textOutOfRange s.params.textMax))
    (fun out t => t.writeText out) s

end Sys2Proof.Machine
end

