-- ==== Sys2Proof/Machine/Operands.lean ====
section
/-! DEFINITION. What the rules read of a value (00_scope.md R11), the digits of a natural number, and the operand forms
of the commands: a value register, the raw staging register, a shift amount, a digit index, a machine integer. -/

namespace Sys2Proof.Machine

/-- `len(v)` (00_scope.md R11). -/
def Value.len (a : Value) : Nat := a.digits.length

/-- `dig(v, i)`: zero for every index at or above the length (00_scope.md R11). -/
def Value.dig (a : Value) (i : Nat) : Digit := a.digits.getD i 0#4

/-- `sum over i of ds[i] * RADIX^i` (00_scope.md R11). -/
def magOf : List Digit → Nat
  | [] => 0
  | d :: ds => d.toNat + Config.radix * magOf ds

/-- `mag(v)` (00_scope.md R11). -/
def Value.mag (a : Value) : Nat := magOf a.digits

/-- `val(v)` (00_scope.md R11). -/
def Value.val (a : Value) : Int := if a.sign then -(a.mag : Int) else a.mag

/-- `abs(v) = (0, d)` (00_scope.md R11). -/
def Value.abs (a : Value) : Value := { sign := false, digits := a.digits }

/-- `ONE = (0, [1])` (00_scope.md R11). -/
def Value.one : Value := { sign := false, digits := [1#4] }

/-- `TEN = canon(0, digits_of(10))`, the one digit `<a>` (46_text_codec.md R149). -/
def Value.ten : Value := { sign := false, digits := [10#4] }

/-- The `n` low digits of `m`: `d[i] = (m / RADIX^i) % RADIX` (00_scope.md R11). -/
def lowDigits : Nat → Nat → List Digit
  | 0, _ => []
  | n + 1, m => BitVec.ofNat 4 (m % Config.radix) :: lowDigits n (m / Config.radix)

/-- `ndig(m)`: 1 when `m = 0`, else the `k` with `RADIX^(k-1) <= m < RADIX^k` (00_scope.md R11). A digit is `DW` bits, so
`k` is the position of the top bit divided by `DW`, plus one. -/
def ndig (m : Nat) : Nat := Nat.log2 m / Config.dw + 1

/-- `digits_of(m)`, `ndig(m)` digits (00_scope.md R11). -/
def digitsOf (m : Nat) : List Digit := lowDigits (ndig m) m

/-- The digit sequence CANON reads: the first `RAW.len` cells (40_digit_store.md R76). -/
def State.rawDigits (s : State) : List Digit := s.raw.cells.take s.raw.len

/-- The digit count of a shift: the amount is `uX[rs2]` bits and must be a multiple of `DW` (43_shifter.md R116). -/
def State.shiftDigits (s : State) (rs2 : XReg) : Res Nat :=
  if s.uX rs2 % Config.dw ≠ 0 then .fail .invalidShiftAmount else .ok (s.uX rs2 / Config.dw)

end Sys2Proof.Machine
end

