-- ==== Sys2Proof/Machine/Comparator.lean ====
section
/-! DEFINITION. The magnitude comparator: mlt, slt, eq (41_comparator.md R85, R88, R89) and its seven commands (R87, R90
to R95). -/

namespace Sys2Proof.Machine

/-- The digit comparison of two sequences of one length: the first difference from the most significant position down
decides, so a position counts only when all higher ones are equal (41_comparator.md R85). -/
def digitsOrder : List Digit → List Digit → Ordering
  | x :: xs, y :: ys =>
    match digitsOrder xs ys with
    | .lt => .lt
    | .gt => .gt
    | .eq => if x.toNat < y.toNat then .lt else if y.toNat < x.toNat then .gt else .eq
  | _, _ => .eq

/-- `mlt(a, b)`: length first, then digits from the most significant; signs are not read (41_comparator.md R85). -/
def Value.mlt (a b : Value) : Bool :=
  if a.len ≠ b.len then decide (a.len < b.len) else digitsOrder a.digits b.digits == .lt

/-- `slt(a, b)` (41_comparator.md R88). -/
def Value.slt (a b : Value) : Bool :=
  if a.sign ≠ b.sign then a.sign
  else if a.sign = false then a.mlt b
  else b.mlt a

/-- `eq(a, b)`: equal sign, equal length, equal digits (41_comparator.md R89). -/
def Value.eq (a b : Value) : Bool :=
  decide (a.sign = b.sign) && decide (a.len = b.len) && decide (a.digits = b.digits)

/-- MLT (41_comparator.md R87). -/
def execMlt (rd : XReg) (rs1 rs2 : VReg) (s : State) : Host.Outcome State Fault Refusal :=
  finishX rd (.ok (truth ((s.readV rs1).mlt (s.readV rs2)))) s

/-- CMPLT (41_comparator.md R90). -/
def execCmplt (rd : XReg) (rs1 rs2 : VReg) (s : State) : Host.Outcome State Fault Refusal :=
  finishX rd (.ok (truth ((s.readV rs1).slt (s.readV rs2)))) s

/-- CMPLE (41_comparator.md R91). -/
def execCmple (rd : XReg) (rs1 rs2 : VReg) (s : State) : Host.Outcome State Fault Refusal :=
  finishX rd (.ok (truth ((s.readV rs1).slt (s.readV rs2) || (s.readV rs1).eq (s.readV rs2)))) s

/-- CMPGT (41_comparator.md R92). -/
def execCmpgt (rd : XReg) (rs1 rs2 : VReg) (s : State) : Host.Outcome State Fault Refusal :=
  finishX rd (.ok (truth ((s.readV rs2).slt (s.readV rs1)))) s

/-- CMPGE (41_comparator.md R93). -/
def execCmpge (rd : XReg) (rs1 rs2 : VReg) (s : State) : Host.Outcome State Fault Refusal :=
  finishX rd (.ok (truth ((s.readV rs2).slt (s.readV rs1) || (s.readV rs1).eq (s.readV rs2)))) s

/-- CMPEQ (41_comparator.md R94). -/
def execCmpeq (rd : XReg) (rs1 rs2 : VReg) (s : State) : Host.Outcome State Fault Refusal :=
  finishX rd (.ok (truth ((s.readV rs1).eq (s.readV rs2)))) s

/-- CMPNE (41_comparator.md R95). -/
def execCmpne (rd : XReg) (rs1 rs2 : VReg) (s : State) : Host.Outcome State Fault Refusal :=
  finishX rd (.ok (truth (!(s.readV rs1).eq (s.readV rs2)))) s

end Sys2Proof.Machine
end

