-- ==== Sys2Proof/Machine/DigitStore.lean ====
section
/-! DEFINITION. The digit store: the canonicalising constructor (40_digit_store.md R73) and CANON, MOV, LEN, DIGIT,
ISNEG (R76 to R80). -/

namespace Sys2Proof.Machine

/-- The digits without redundant high zeros, down to a floor of one digit (40_digit_store.md R73 (b)). -/
def stripHigh : List Digit → List Digit
  | [] => []
  | d :: ds =>
    match stripHigh ds with
    | [] => [d]
    | e :: es => if es.isEmpty && e.toNat == 0 then [d] else d :: e :: es

/-- `canon(s, ds)` in a block of capacity `md = MAX_DIGITS` (40_digit_store.md R73). -/
def Value.canon (md : Nat) (sign : Bool) (ds : List Digit) : Res Value :=
  match stripHigh ds with
  | [] => .ok .zero
  | d :: r =>
    if r.isEmpty && d.toNat == 0 then .ok .zero
    else if md < r.length + 1 then .fail .capacityExceeded
    else .ok { sign := sign, digits := d :: r }

/-- CANON (40_digit_store.md R76). -/
def execCanon (rd : VReg) (s : State) : Host.Outcome State Fault Refusal :=
  finishV rd (Value.canon s.params.maxDigits s.raw.sign s.rawDigits) s

/-- MOV (40_digit_store.md R77). -/
def execMov (rd rs1 : VReg) (s : State) : Host.Outcome State Fault Refusal :=
  finishV rd (.ok (s.readV rs1)) s

/-- LEN (40_digit_store.md R78). -/
def execLen (rd : XReg) (rs1 : VReg) (s : State) : Host.Outcome State Fault Refusal :=
  finishX rd (.ok (s.readV rs1).len) s

/-- DIGIT (40_digit_store.md R79). -/
def execDigit (rd : XReg) (rs1 : VReg) (rs2 : XReg) (s : State) : Host.Outcome State Fault Refusal :=
  finishX rd (.ok ((s.readV rs1).dig (s.uX rs2)).toNat) s

/-- ISNEG (40_digit_store.md R80). -/
def execIsneg (rd : XReg) (rs1 : VReg) (s : State) : Host.Outcome State Fault Refusal :=
  finishX rd (.ok (truth (s.readV rs1).sign)) s

end Sys2Proof.Machine
end

