-- ==== Sys2Proof/Machine/Additive.lean ====
section
/-! DEFINITION. The magnitude adder, the magnitude subtractor with borrow and the sign resolver (42_additive.md R97 to
R106), and MADD, MSUB, ADD, SUB, NEG, INC, DEC. -/

namespace Sys2Proof.Machine

/-- The loop of magnitude add over `n` positions from the least significant, short operands zero-padded; a final carry
appends one more digit (42_additive.md R97). -/
def addLoop : Nat → List Digit → List Digit → Nat → List Digit
  | 0, _, _, carry => if carry ≠ 0 then [BitVec.ofNat 4 carry] else []
  | n + 1, a, b, carry =>
    let sum := (a.headD 0#4).toNat + (b.headD 0#4).toNat + carry
    BitVec.ofNat 4 (sum % Config.radix) :: addLoop n a.tail b.tail (sum / Config.radix)

/-- `madd(a, b)`: aborts on a negative operand (42_additive.md R97). -/
def Value.madd (md : Nat) (a b : Value) : Res Value :=
  if a.sign ≠ false ∨ b.sign ≠ false then .abort
  else Value.canon md false (addLoop (max a.len b.len) a.digits b.digits 0)

/-- The loop of magnitude subtract over `n` positions: a position whose difference is negative takes RADIX and sets the
borrow (42_additive.md R100). -/
def subLoop : Nat → List Digit → List Digit → Nat → List Digit
  | 0, _, _, _ => []
  | n + 1, a, b, borrow =>
    let x := (a.headD 0#4).toNat
    let y := (b.headD 0#4).toNat + borrow
    if x < y then BitVec.ofNat 4 (x + Config.radix - y) :: subLoop n a.tail b.tail 1
    else BitVec.ofNat 4 (x - y) :: subLoop n a.tail b.tail 0

/-- `msub(a, b)`: aborts on a negative operand or when `mlt(a, b)` (42_additive.md R100). -/
def Value.msub (md : Nat) (a b : Value) : Res Value :=
  if a.sign ≠ false ∨ b.sign ≠ false then .abort
  else if a.mlt b then .abort
  else Value.canon md false (subLoop a.len a.digits b.digits 0)

/-- `neg(a)` (42_additive.md R103). -/
def Value.neg (md : Nat) (a : Value) : Res Value := Value.canon md (!a.sign) a.digits

/-- `add(a, b)`: the sign resolver (42_additive.md R104, R105). -/
def Value.add (md : Nat) (a b : Value) : Res Value :=
  if a.sign = b.sign then
    (Value.madd md a.abs b.abs).bind fun m => Value.canon md a.sign m.digits
  else if a.mlt b then
    (Value.msub md b.abs a.abs).bind fun m => Value.canon md b.sign m.digits
  else
    (Value.msub md a.abs b.abs).bind fun m => Value.canon md a.sign m.digits

/-- `sub(a, b) = add(a, neg(b))` (42_additive.md R106). -/
def Value.sub (md : Nat) (a b : Value) : Res Value := (Value.neg md b).bind fun nb => Value.add md a nb

/-- MADD (42_additive.md R99). -/
def execMadd (rd rs1 rs2 : VReg) (s : State) : Host.Outcome State Fault Refusal :=
  finishV rd (Value.madd s.params.maxDigits (s.readV rs1) (s.readV rs2)) s

/-- MSUB (42_additive.md R102). -/
def execMsub (rd rs1 rs2 : VReg) (s : State) : Host.Outcome State Fault Refusal :=
  finishV rd (Value.msub s.params.maxDigits (s.readV rs1) (s.readV rs2)) s

/-- ADD (42_additive.md R107). -/
def execAdd (rd rs1 rs2 : VReg) (s : State) : Host.Outcome State Fault Refusal :=
  finishV rd (Value.add s.params.maxDigits (s.readV rs1) (s.readV rs2)) s

/-- SUB (42_additive.md R108). -/
def execSub (rd rs1 rs2 : VReg) (s : State) : Host.Outcome State Fault Refusal :=
  finishV rd (Value.sub s.params.maxDigits (s.readV rs1) (s.readV rs2)) s

/-- NEG (42_additive.md R109). -/
def execNeg (rd rs1 : VReg) (s : State) : Host.Outcome State Fault Refusal :=
  finishV rd (Value.neg s.params.maxDigits (s.readV rs1)) s

/-- INC (42_additive.md R110). -/
def execInc (rd rs1 : VReg) (s : State) : Host.Outcome State Fault Refusal :=
  finishV rd (Value.add s.params.maxDigits (s.readV rs1) .one) s

/-- DEC (42_additive.md R111). -/
def execDec (rd rs1 : VReg) (s : State) : Host.Outcome State Fault Refusal :=
  finishV rd (Value.sub s.params.maxDigits (s.readV rs1) .one) s

end Sys2Proof.Machine
end

