-- ==== Sys2Proof/Machine/Shifter.lean ====
section
/-! DEFINITION. The radix shifter (43_shifter.md R115, R117) and SHL, SHR (R118, R119). -/

namespace Sys2Proof.Machine

/-- `shl(x, k)` (43_shifter.md R115). The `k` zeros are built only when the result fits, as R115 allows: a zero magnitude
gives ZERO for every `k`, and any other needs the stripped length plus `k`. -/
def Value.shl (md : Nat) (a : Value) (k : Nat) : Res Value :=
  match stripHigh a.digits with
  | [] => .ok .zero
  | d :: r =>
    if r.isEmpty && d.toNat == 0 then .ok .zero
    else if md < r.length + 1 + k then .fail .capacityExceeded
    else .ok { sign := a.sign, digits := List.replicate k 0#4 ++ d :: r }

/-- `shr(x, k)` (43_shifter.md R117). -/
def Value.shr (md : Nat) (a : Value) (k : Nat) : Res Value :=
  if a.len ≤ k then .ok .zero else Value.canon md a.sign (a.digits.drop k)

/-- SHL: the alignment check comes first (43_shifter.md R118). -/
def execShl (rd rs1 : VReg) (rs2 : XReg) (s : State) : Host.Outcome State Fault Refusal :=
  finishV rd ((s.shiftDigits rs2).bind fun k => Value.shl s.params.maxDigits (s.readV rs1) k) s

/-- SHR (43_shifter.md R119). -/
def execShr (rd rs1 : VReg) (rs2 : XReg) (s : State) : Host.Outcome State Fault Refusal :=
  finishV rd ((s.shiftDigits rs2).bind fun k => Value.shr s.params.maxDigits (s.readV rs1) k) s

end Sys2Proof.Machine
end

