-- ==== Sys2Proof/Machine/Divider.lean ====
section
/-! DEFINITION. The long divider with remainder (45_divider.md R130 to R136) and DIV, MOD, DIVREM (R137 to R139). -/

namespace Sys2Proof.Machine

/-- The shifted divisor of one turn and its shift: `n = len(R) - len(B)`, one less when `shl(B, n)` overshoots `R`
(45_divider.md R134). -/
def divEstimate (md : Nat) (rem divisor : Value) : Res (Nat × Value) :=
  let n := rem.len - divisor.len
  (Value.shl md divisor n).bind fun sh =>
    if rem.mlt sh then (Value.shl md divisor (n - 1)).bind fun sh' => .ok (n - 1, sh') else .ok (n, sh)

/-- One turn: the shifted divisor comes off the remainder and `RADIX^n` goes on the quotient (45_divider.md R133). -/
def divTurn (md : Nat) (divisor rem quo : Value) : Res (Value × Value) :=
  (divEstimate md rem divisor).bind fun e =>
    (Value.msub md rem e.2).bind fun rem' =>
      (Value.shl md .one e.1).bind fun unit =>
        (Value.madd md quo unit).bind fun quo' => .ok (rem', quo')

/-- The loop while the remainder is not below the divisor (45_divider.md R130), at most `turns` turns; it gives the final
remainder and quotient. -/
def divLoop (md : Nat) (divisor : Value) : Nat → Value → Value → Res (Value × Value)
  | 0, rem, quo => if rem.mlt divisor then .ok (rem, quo) else .stuck .loopBound
  | turns + 1, rem, quo =>
    if rem.mlt divisor then .ok (rem, quo)
    else (divTurn md divisor rem quo).bind fun p => divLoop md divisor turns p.1 p.2

/-- The greatest number of turns (45_divider.md R141). -/
def divTurns (a b : Value) : Nat := (Config.radix - 1) * (a.len - b.len + 1)

/-- `divrem(a, b)`: the quotient and the remainder with their signs (45_divider.md R130, R131, R135, R136). -/
def Value.divrem (md : Nat) (a b : Value) : Res (Value × Value) :=
  if b = .zero then .fail .divideByZero
  else
    (divLoop md b.abs (divTurns a b) a.abs .zero).bind fun p =>
      (Value.canon md (a.sign ^^ b.sign) p.2.digits).bind fun q =>
        (Value.canon md a.sign p.1.digits).bind fun r => .ok (q, r)

/-- DIV (45_divider.md R137). -/
def execDiv (rd rs1 rs2 : VReg) (s : State) : Host.Outcome State Fault Refusal :=
  finish (Value.divrem s.params.maxDigits (s.readV rs1) (s.readV rs2)) (fun p t => t.writeV rd p.1) s

/-- MOD (45_divider.md R138). -/
def execMod (rd rs1 rs2 : VReg) (s : State) : Host.Outcome State Fault Refusal :=
  finish (Value.divrem s.params.maxDigits (s.readV rs1) (s.readV rs2)) (fun p t => t.writeV rd p.2) s

/-- DIVREM: both destinations or neither (45_divider.md R139). -/
def execDivrem (rd rd2 rs1 rs2 : VReg) (s : State) : Host.Outcome State Fault Refusal :=
  finish (Value.divrem s.params.maxDigits (s.readV rs1) (s.readV rs2))
    (fun p t => (t.writeV rd p.1).writeV rd2 p.2) s

end Sys2Proof.Machine
end

