-- ==== Sys2Proof/Machine/Multiplier.lean ====
section
/-! DEFINITION. The schoolbook multiplier (44_multiplier.md R122 to R127) and MUL (R128). -/

namespace Sys2Proof.Machine

/-- `p` with `abs(a)` added `k` times: the single-digit product by repeated magnitude addition (44_multiplier.md R126). -/
def addTimes (md : Nat) (a : Value) : Nat → Value → Res Value
  | 0, p => .ok p
  | k + 1, p => (Value.madd md p a.abs).bind fun q => addTimes md a k q

/-- The digits of `b` from position `i` on, each giving a partial product shifted by its position and added to the
running total (44_multiplier.md R125). -/
def mulLoop (md : Nat) (a : Value) : List Digit → Nat → Value → Res Value
  | [], _, total => .ok total
  | d :: ds, i, total =>
    (addTimes md a d.toNat .zero).bind fun p =>
      (Value.shl md p i).bind fun q =>
        (Value.add md total q).bind fun t => mulLoop md a ds (i + 1) t

/-- `mul(a, b)`: fast paths, then the capacity pre-check, then the general case, the sign put on last (44_multiplier.md
R122 to R124, R127). -/
def Value.mul (md : Nat) (a b : Value) : Res Value :=
  if a = .zero ∨ b = .zero then .ok .zero
  else if a.mag = 1 then Value.canon md (a.sign ^^ b.sign) b.digits
  else if b.mag = 1 then Value.canon md (a.sign ^^ b.sign) a.digits
  else if md < a.len + b.len then .fail .capacityExceeded
  else (mulLoop md a b.digits 0 .zero).bind fun total => Value.canon md (a.sign ^^ b.sign) total.digits

/-- MUL (44_multiplier.md R128). -/
def execMul (rd rs1 rs2 : VReg) (s : State) : Host.Outcome State Fault Refusal :=
  finishV rd (Value.mul s.params.maxDigits (s.readV rs1) (s.readV rs2)) s

end Sys2Proof.Machine
end

