-- ==== Sys2Proof/Machine/Codec.lean ====
section
/-! DEFINITION. The decimal and hexadecimal text codec and machine-integer conversion (46_text_codec.md R143 to R164)
and PARSE, FMTD, FMTH, FMTO, FROMINT, TOINT. -/

namespace Sys2Proof.Machine

/-! ### Character classes (20_memory.md R44) -/

/-- The codes of `+`, `-`, `0`, `x`, `X`. -/
def chPlus : Byte := 0x2B#8
@[inherit_doc chPlus] def chMinus : Byte := 0x2D#8
@[inherit_doc chPlus] def chZero : Byte := 0x30#8
@[inherit_doc chPlus] def chLowerX : Byte := 0x78#8
@[inherit_doc chPlus] def chUpperX : Byte := 0x58#8

/-- `0` to `9`. -/
def isDecDigit (c : Byte) : Bool := decide (0x30 ≤ c.toNat ∧ c.toNat ≤ 0x39)

/-- `0` to `9`, `A` to `F`, `a` to `f`. -/
def isHexDigit (c : Byte) : Bool :=
  isDecDigit c || decide (0x41 ≤ c.toNat ∧ c.toNat ≤ 0x46) || decide (0x61 ≤ c.toNat ∧ c.toNat ≤ 0x66)

/-- The value of a hex digit character. -/
def hexValue (c : Byte) : Digit :=
  if isDecDigit c then BitVec.ofNat 4 (c.toNat - 0x30)
  else if c.toNat ≤ 0x46 then BitVec.ofNat 4 (c.toNat - 0x41 + 10)
  else BitVec.ofNat 4 (c.toNat - 0x61 + 10)

/-- The value of a decimal digit character. -/
def decValue (c : Byte) : Digit := BitVec.ofNat 4 (c.toNat - 0x30)

/-! ### Parsing -/

/-- The sign of a text and the text after its sign character, at most one of which is consumed (46_text_codec.md R145). -/
def takeSign : List Byte → Bool × List Byte
  | [] => (false, [])
  | c :: t => if c = chMinus then (true, t) else if c = chPlus then (false, t) else (false, c :: t)

/-- Whether a text after its sign begins with the prefix `0x` or `0X` (46_text_codec.md R146). -/
def hasHexPrefix : List Byte → Bool
  | c :: x :: _ => decide (c = chZero) && (decide (x = chLowerX) || decide (x = chUpperX))
  | _ => false

/-- The digit run of a text after its sign, up to the first character outside the digit class of its base
(46_text_codec.md R151, R152). -/
def digitRun (t : List Byte) : List Byte :=
  if hasHexPrefix t then (t.drop 2).takeWhile isHexDigit else t.takeWhile isDecDigit

/-- Decimal accumulation `v <- add(mul(v, TEN), digit)` over the rest of a run (46_text_codec.md R149). -/
def decAccumulate (md : Nat) : List Byte → Value → Res Value
  | [], v => .ok v
  | c :: cs, v =>
    (Value.mul md v .ten).bind fun p =>
      (Value.canon md false [decValue c]).bind fun d =>
        (Value.add md p d).bind fun v' => decAccumulate md cs v'

/-- Hexadecimal assembly: the run's digits, its first character most significant (46_text_codec.md R150). -/
def hexAssemble (md : Nat) (run : List Byte) : Res Value := Value.canon md false (run.map hexValue).reverse

/-- The value of a text whose digit run is not empty (46_text_codec.md R152). -/
def parseValue (md : Nat) (t : List Byte) : Res Value :=
  let st := takeSign t
  let run := digitRun st.2
  (if hasHexPrefix st.2 then hexAssemble md run else decAccumulate md run .zero).bind fun m =>
    Value.canon md st.1 m.digits

/-- A text is malformed exactly when its digit run is empty (46_text_codec.md R147). -/
def malformed (t : List Byte) : Bool := (digitRun (takeSign t).2).isEmpty

/-- PARSE (46_text_codec.md R152): reading the text faults only if `TLEN` is above `TEXT_MAX` (20_memory.md R49). -/
def execParse (rd : VReg) (s : State) : Host.Outcome State Fault Refusal :=
  if s.params.textMax < s.tlen then .fault (.textOutOfRange s.params.textMax)
  else if malformed s.text then
    if s.cfg.pcompat then finishV rd (.ok .zero) (s.setWarn true)
    else finishV rd (.fail .parseError) (s.setWarn false)
  else finishV rd (parseValue s.params.maxDigits s.text) (s.setWarn false)

/-! ### Formatting -/

/-- The character of a decimal digit (46_text_codec.md R154). -/
def decChar (d : Digit) : Byte := BitVec.ofNat 8 (0x30 + d.toNat)

/-- The character of a hexadecimal digit, lower case (46_text_codec.md R156). -/
def hexChar (d : Digit) : Byte :=
  if d.toNat ≤ 9 then BitVec.ofNat 8 (0x30 + d.toNat) else BitVec.ofNat 8 (0x61 + d.toNat - 10)

/-- A text with `-` in front when the sign bit is 1 (46_text_codec.md R154, R157). -/
def withSign (sign : Bool) (t : List Byte) : List Byte := if sign then chMinus :: t else t

/-- Successive remainders of division by ten in front of `out`, until the quotient is ZERO (46_text_codec.md R154); at
most `turns` of them. -/
def fmtdLoop (md : Nat) : Nat → Value → List Byte → Res (List Byte)
  | 0, _, _ => .stuck .loopBound
  | turns + 1, m, out =>
    (Value.divrem md m .ten).bind fun p =>
      if p.1 = .zero then .ok (decChar (p.2.dig 0) :: out)
      else fmtdLoop md turns p.1 (decChar (p.2.dig 0) :: out)

/-- `fmtd(v)` (46_text_codec.md R154). A value of `n` digits has at most `2 * n` decimal digits, since
`16^n <= 100^n`. -/
def fmtd (md : Nat) (a : Value) : Res (List Byte) :=
  (fmtdLoop md (2 * a.len) a.abs []).bind fun out => .ok (withSign a.sign out)

/-- `fmth(v)` (46_text_codec.md R157). -/
def fmth (a : Value) : List Byte := withSign a.sign (a.digits.reverse.map hexChar)

/-- FMTD (46_text_codec.md R155). -/
def execFmtd (rs1 : VReg) (s : State) : Host.Outcome State Fault Refusal :=
  finishText (fmtd s.params.maxDigits (s.readV rs1)) s

/-- FMTH (46_text_codec.md R158). -/
def execFmth (rs1 : VReg) (s : State) : Host.Outcome State Fault Refusal :=
  finishText (.ok (fmth (s.readV rs1))) s

/-- FMTO: octal formatting always fails (46_text_codec.md R160). -/
def execFmto (_rs1 : VReg) (s : State) : Host.Outcome State Fault Refusal :=
  finishText (.fail .unsupportedFormat) s

/-! ### Machine integers -/

/-- `fromint(n)` (46_text_codec.md R161). -/
def fromint (md : Nat) (n : Int) : Res Value := Value.canon md (decide (n < 0)) (digitsOf n.natAbs)

/-- The digits, most significant first, taken into an accumulator: `acc * RADIX + digit` (46_text_codec.md R163). -/
def accumulate : List Digit → Nat → Nat
  | [], acc => acc
  | d :: ds, acc => accumulate ds (acc * Config.radix + d.toNat)

/-- `toint(v)` for machine width `w`: the bound is on the unbounded magnitude (46_text_codec.md R163). -/
def toint (w : Nat) (a : Value) : Res Int :=
  let acc := accumulate a.digits.reverse 0
  if 2 ^ (w - 1) ≤ acc then .fail .overflow else .ok (if a.sign then -(acc : Int) else acc)

/-- FROMINT (46_text_codec.md R162). -/
def execFromint (rd : VReg) (rs1 : XReg) (s : State) : Host.Outcome State Fault Refusal :=
  finishV rd (fromint s.params.maxDigits (s.sX rs1)) s

/-- TOINT (46_text_codec.md R164). -/
def execToint (rd : XReg) (rs1 : VReg) (s : State) : Host.Outcome State Fault Refusal :=
  finishX rd (toint s.params.width (s.readV rs1)) s

end Sys2Proof.Machine
end

