-- ==== Sys2Proof/Machine/Dispatch.lean ====
section
/-! DEFINITION. One arm per command of 30_encoding.md R62. -/

namespace Sys2Proof.Machine

def exec (i : Instr) (s : State) : Host.Outcome State Fault Refusal :=
  match i with
  | .canon rd => Sys2Proof.Machine.execCanon rd s
  | .mov rd rs1 => Sys2Proof.Machine.execMov rd rs1 s
  | .len rd rs1 => Sys2Proof.Machine.execLen rd rs1 s
  | .digit rd rs1 rs2 => Sys2Proof.Machine.execDigit rd rs1 rs2 s
  | .isneg rd rs1 => Sys2Proof.Machine.execIsneg rd rs1 s
  | .mlt rd rs1 rs2 => Sys2Proof.Machine.execMlt rd rs1 rs2 s
  | .cmplt rd rs1 rs2 => Sys2Proof.Machine.execCmplt rd rs1 rs2 s
  | .cmple rd rs1 rs2 => Sys2Proof.Machine.execCmple rd rs1 rs2 s
  | .cmpgt rd rs1 rs2 => Sys2Proof.Machine.execCmpgt rd rs1 rs2 s
  | .cmpge rd rs1 rs2 => Sys2Proof.Machine.execCmpge rd rs1 rs2 s
  | .cmpeq rd rs1 rs2 => Sys2Proof.Machine.execCmpeq rd rs1 rs2 s
  | .cmpne rd rs1 rs2 => Sys2Proof.Machine.execCmpne rd rs1 rs2 s
  | .madd rd rs1 rs2 => Sys2Proof.Machine.execMadd rd rs1 rs2 s
  | .msub rd rs1 rs2 => Sys2Proof.Machine.execMsub rd rs1 rs2 s
  | .add rd rs1 rs2 => Sys2Proof.Machine.execAdd rd rs1 rs2 s
  | .sub rd rs1 rs2 => Sys2Proof.Machine.execSub rd rs1 rs2 s
  | .neg rd rs1 => Sys2Proof.Machine.execNeg rd rs1 s
  | .inc rd rs1 => Sys2Proof.Machine.execInc rd rs1 s
  | .dec rd rs1 => Sys2Proof.Machine.execDec rd rs1 s
  | .shl rd rs1 rs2 => Sys2Proof.Machine.execShl rd rs1 rs2 s
  | .shr rd rs1 rs2 => Sys2Proof.Machine.execShr rd rs1 rs2 s
  | .mul rd rs1 rs2 => Sys2Proof.Machine.execMul rd rs1 rs2 s
  | .div rd rs1 rs2 => Sys2Proof.Machine.execDiv rd rs1 rs2 s
  | .mod rd rs1 rs2 => Sys2Proof.Machine.execMod rd rs1 rs2 s
  | .divrem rd rd2 rs1 rs2 => Sys2Proof.Machine.execDivrem rd rd2 rs1 rs2 s
  | .parse rd => Sys2Proof.Machine.execParse rd s
  | .fmtd rs1 => Sys2Proof.Machine.execFmtd rs1 s
  | .fmth rs1 => Sys2Proof.Machine.execFmth rs1 s
  | .fmto rs1 => Sys2Proof.Machine.execFmto rs1 s
  | .fromint rd rs1 => Sys2Proof.Machine.execFromint rd rs1 s
  | .toint rd rs1 => Sys2Proof.Machine.execToint rd rs1 s

end Sys2Proof.Machine
end

