-- ==== Sys2Proof/Machine/HostPort.lean ====
section
/-! DEFINITION. What the host may do between commands besides presenting words: writes, reads and reset
(70_reset_and_hazards.md R205, R206, R216). -/

namespace Sys2Proof.Machine

/-- A cell of a list of digit cells with cell `k` written. -/
def setCell (cells : List Digit) (k : Nat) (d : Digit) : List Digit := cells.set k d

/-- Host write of `X[i]`: any `W`-bit word; of a larger number the low `W` bits. -/
def hostWriteX (i : XReg) (n : Nat) (s : State) : Host.Outcome State Fault Refusal := .next (s.writeX i n)

/-- Host write of `RAW.s`. -/
def hostWriteRawSign (b : Bool) (s : State) : Host.Outcome State Fault Refusal :=
  .next { s with raw := { s.raw with sign := b } }

/-- Host write of `RAW.len`: a number above `RAW_MAX` is ignored (10_state.md R23). -/
def hostWriteRawLen (n : Nat) (s : State) : Host.Outcome State Fault Refusal :=
  if Config.rawMax s.params < n then .next s else .next { s with raw := { s.raw with len := n } }

/-- Host write of `RAW.d[k]`. -/
def hostWriteRawDigit (k : Nat) (d : Digit) (s : State) : Host.Outcome State Fault Refusal :=
  if k < Config.rawMax s.params then .next { s with raw := { s.raw with cells := setCell s.raw.cells k d } }
  else .fault (.rawOutOfRange k)

/-- Host write of `TBUF[k]`. -/
def hostWriteText (k : Nat) (b : Byte) (s : State) : Host.Outcome State Fault Refusal :=
  if k < s.params.textMax then .next { s with tbuf := Memory.write s.tbuf k b } else .fault (.textOutOfRange k)

/-- Host write of `TLEN`: a number above `TEXT_MAX` is ignored (10_state.md R25). -/
def hostWriteTextLen (n : Nat) (s : State) : Host.Outcome State Fault Refusal :=
  if s.params.textMax < n then .next s else .next { s with tlen := n }

/-- Host write of `CFG`: only bit 0 is kept (10_state.md R30). -/
def hostWriteCfg (w : BitVec 32) (s : State) : Host.Outcome State Fault Refusal := .next { s with cfg := cfgOfWord w }

/-- What a host read gives, as an unsigned number (70_reset_and_hazards.md R216). A digit of a value above its length is
0, by the definition of `dig` (10_state.md R19). -/
def hostRead (p : Port) (s : State) : Nat :=
  match p with
  | .vSign i => (s.readV i).sign.toNat
  | .vLen i => (s.readV i).len
  | .vDigit i k => ((s.readV i).dig k).toNat
  | .x i => s.uX i
  | .rawSign => s.raw.sign.toNat
  | .rawLen => s.raw.len
  | .rawDigit k => (s.raw.cells.getD k 0#4).toNat
  | .text k => (Memory.read s.tbuf k).toNat
  | .textLen => s.tlen
  | .status => (statusWord s.status).toNat
  | .cfg => (cfgWord s.cfg).toNat

/-- A host read changes nothing (20_memory.md R47); a cell that does not exist cannot be read. -/
def hostReads (p : Port) (s : State) : Host.Outcome State Fault Refusal :=
  match p with
  | .rawDigit k => if k < Config.rawMax s.params then .next s else .fault (.rawOutOfRange k)
  | .text k => if k < s.params.textMax then .next s else .fault (.textOutOfRange k)
  | .vSign _ | .vLen _ | .vDigit _ _ | .x _ | .rawSign | .rawLen | .textLen | .status | .cfg => .next s

/-- The reset event: every piece of the block's state takes its reset value (70_reset_and_hazards.md R206). The
parameters are the block's make and the rest of the host's actions is the host's. -/
def resetEvent (s : State) : Host.Outcome State Fault Refusal := .next (State.resetWith s.params s.host)

end Sys2Proof.Machine
end

