-- ==== Sys2Proof/Machine/Command.lean ====
section
/-! DEFINITION. Presenting a command word, and what each host action does to the block. -/

namespace Sys2Proof.Machine

/-- A presented word, in the order of 60_exceptions.md R189: while `STATUS.ABORT = 1` it is discarded undecoded (R193);
an illegal word fails with IllegalCommand (R190); any other word is its command. -/
def presentWord (w : CommandWord) (s : State) : Host.Outcome State Fault Refusal :=
  if s.status.abort then .next s.discardWord
  else
    match decode w with
    | .illegal _ => .next (s.failWith .illegalCommand)
    | .command i => exec i s

/-- One action of the host (70_reset_and_hazards.md R216). -/
def perform (a : HostAction) (s : State) : Host.Outcome State Fault Refusal :=
  match a with
  | .command w => presentWord w s
  | .writeX i n => hostWriteX i n s
  | .writeRawSign b => hostWriteRawSign b s
  | .writeRawLen n => hostWriteRawLen n s
  | .writeRawDigit k d => hostWriteRawDigit k d s
  | .writeText k b => hostWriteText k b s
  | .writeTextLen n => hostWriteTextLen n s
  | .writeCfg w => hostWriteCfg w s
  | .read p => hostReads p s
  | .reset => resetEvent s

/-- The state with the host's next actions `as`. -/
def State.withHost (s : State) (as : List HostAction) : State := { s with host := as }

/-- The state whose host presents the word of an opcode-table row next (assumption log 2). -/
def State.presentNext (s : State) (nbits w : Nat) : State :=
  s.withHost (.command (BitVec.ofNat 32 (w % 2 ^ nbits)) :: s.host)

end Sys2Proof.Machine
end

