-- ==== Sys2Proof/Machine/Step.lean ====
section
/-! DEFINITION. One step: the host's next action, done to completion (20_memory.md R50, R51; 70_reset_and_hazards.md
R217, R219). -/

namespace Sys2Proof.Machine

/-- The host's next action is taken and performed. With no action left the block is idle and nothing changes
(60_exceptions.md R202; assumption log 3). -/
def step (s : State) : Host.Outcome State Fault Refusal :=
  match s.host with
  | [] => .next s
  | a :: rest => perform a (s.withHost rest)

/-- `s` with the opcode-table word `w` as the host's next action, so that `step` runs exactly it. -/
def State.withFetchWord (s : State) (nbits w : Nat) : State := s.presentNext nbits w

end Sys2Proof.Machine
end

