-- ==== Sys2Proof/Safety.lean ====
section
/-! DEFINITION. The terms claims use: canonical values and the value of an integer, the invariant of the block, which
host actions name existing cells, what each command may read and write (10_state.md R35), and the shapes of a command's
next state. -/

namespace Sys2Proof.Machine

/-! ### Values -/

/-- The invariants of a value register in a block of capacity `md` (10_state.md R18). -/
abbrev Value.Canonical (md : Nat) (a : Value) : Prop :=
  1 ≤ a.len ∧ a.len ≤ md ∧ (a.dig (a.len - 1) ≠ 0#4 ∨ a = Value.zero) ∧ (a.sign = true → 0 < a.mag)

/-- The canonical value of an integer: `digits_of(|z|)` with sign 1 exactly for a negative number (00_scope.md R11). -/
def Value.ofInt (z : Int) : Value := { sign := decide (z < 0), digits := digitsOf z.natAbs }

/-- The integers a value register of `md` digits can hold (47_arithmetic_laws.md R168). -/
abbrev Fits (md : Nat) (z : Int) : Prop := z.natAbs < Config.radix ^ md

/-! ### The invariant -/

/-- The values `STATUS.ERR` ever takes: 0 to 7 and 0xFF (60_exceptions.md R183). -/
abbrev LegalErr (e : Byte) : Prop := e.toNat ≤ 7 ∨ e = 0xFF#8

/-- What holds at every instant between two steps: the configuration meets 00_scope.md R7, every value register is
canonical and within capacity (10_state.md R18), scalar registers are `W`-bit words (R21), `RAW` has its `RAW_MAX` cells
and a length within them (R22, R23), the text buffer is in its canonical form below `TEXT_MAX` and `TLEN` within it (R24,
R25), and `STATUS.ERR` holds a code of 60_exceptions.md R183, the abort code exactly when `STATUS.ABORT = 1` (R192,
R193). -/
abbrev State.Inv (s : State) : Prop :=
  s.params.Meets ∧
  (∀ i : VReg, (s.readV i).Canonical s.params.maxDigits) ∧
  (∀ i : XReg, s.x.get i < 2 ^ s.params.width) ∧
  s.raw.cells.length = Config.rawMax s.params ∧
  s.raw.len ≤ Config.rawMax s.params ∧
  Memory.wf s.tbuf = true ∧
  (∀ c ∈ s.tbuf, c.1 < s.params.textMax) ∧
  s.tlen ≤ s.params.textMax ∧
  LegalErr s.status.err ∧
  (s.status.abort = true ↔ s.status.err = 0xFF#8)

/-- The host action names only cells the block has (10_state.md R22, R24). -/
def HostAction.Named (p : Params) : HostAction → Prop
  | .writeRawDigit k _ => k < Config.rawMax p
  | .writeText k _ => k < p.textMax
  | .read (.rawDigit k) => k < Config.rawMax p
  | .read (.text k) => k < p.textMax
  | _ => True

/-! ### The end of a run (70_reset_and_hazards.md R218) -/

/-- The command words the host has still to present in the run under way: host accesses are no words, and a reset begins
another run (assumption log 13). -/
def wordsLeft : List HostAction → List CommandWord
  | [] => []
  | .command w :: rest => w :: wordsLeft rest
  | .reset :: _ => []
  | .writeX _ _ :: rest | .writeRawSign _ :: rest | .writeRawLen _ :: rest | .writeRawDigit _ _ :: rest
  | .writeText _ _ :: rest | .writeTextLen _ :: rest | .writeCfg _ :: rest | .read _ :: rest => wordsLeft rest

/-- The run has ended: the response to its last word has been written, host accesses after it or not. -/
abbrev State.RunEnded (s : State) : Prop := wordsLeft s.host = []

/-- The run has ended well. -/
abbrev State.EndedWell (s : State) : Prop := s.RunEnded ∧ s.status.abort = false

/-- The run has stopped: what its later words would have computed is lost. -/
abbrev State.RunStopped (s : State) : Prop := s.status.abort = true

/-! ### The shapes of a command's next state -/

/-- Success with the integer `z` written to `V[rd]`, all else unchanged (60_exceptions.md R186). -/
def resultV (s : State) (rd : VReg) (z : Int) : State :=
  { s with v := s.v.set rd (Value.ofInt z), status := { s.status with err := 0#8 } }

/-- Success with the word `n` written to `X[rd]`, all else unchanged (60_exceptions.md R186). -/
def resultX (s : State) (rd : XReg) (n : Nat) : State :=
  { s with x := s.x.set rd n, status := { s.status with err := 0#8 } }

/-- Failure with the code `e`, all else unchanged (60_exceptions.md R186). -/
def failed (s : State) (e : Byte) : State := { s with status := { s.status with err := e } }

/-- An abort: `STATUS.ABORT = 1`, `STATUS.ERR = 0xFF`, all else unchanged (60_exceptions.md R192). -/
def aborted (s : State) : State := { s with status := { s.status with err := 0xFF#8, abort := true } }

/-- `s` with `STATUS.WARN` at `b` (10_state.md R29). -/
def warned (s : State) (b : Bool) : State := { s with status := { s.status with warn := b } }

/-- `s` with the host's remaining actions `rest`. -/
def popped (s : State) (rest : List HostAction) : State := { s with host := rest }

/-! ### What a command reads and writes (10_state.md R35) -/

/-- The value registers a command writes. -/
def destV : Instr → List VReg
  | .canon rd | .mov rd _ | .madd rd _ _ | .msub rd _ _ | .add rd _ _ | .sub rd _ _ | .neg rd _ | .inc rd _ | .dec rd _
  | .shl rd _ _ | .shr rd _ _ | .mul rd _ _ | .div rd _ _ | .mod rd _ _ | .parse rd | .fromint rd _ => [rd]
  | .divrem rd rd2 _ _ => [rd, rd2]
  | .len _ _ | .digit _ _ _ | .isneg _ _ | .mlt _ _ _ | .cmplt _ _ _ | .cmple _ _ _ | .cmpgt _ _ _ | .cmpge _ _ _
  | .cmpeq _ _ _ | .cmpne _ _ _ | .fmtd _ | .fmth _ | .fmto _ | .toint _ _ => []

/-- The scalar registers a command writes. -/
def destX : Instr → List XReg
  | .len rd _ | .digit rd _ _ | .isneg rd _ | .mlt rd _ _ | .cmplt rd _ _ | .cmple rd _ _ | .cmpgt rd _ _
  | .cmpge rd _ _ | .cmpeq rd _ _ | .cmpne rd _ _ | .toint rd _ => [rd]
  | .canon _ | .mov _ _ | .madd _ _ _ | .msub _ _ _ | .add _ _ _ | .sub _ _ _ | .neg _ _ | .inc _ _ | .dec _ _
  | .shl _ _ _ | .shr _ _ _ | .mul _ _ _ | .div _ _ _ | .mod _ _ _ | .divrem _ _ _ _ | .parse _ | .fmtd _ | .fmth _
  | .fmto _ | .fromint _ _ => []

/-- Whether a command writes the text buffer. -/
def writesText : Instr → Bool
  | .fmtd _ | .fmth _ => true
  | _ => false

/-- Whether a command is PARSE, the one that writes `STATUS.WARN` and reads the text and `CFG.PCOMPAT`. -/
def isParse : Instr → Bool
  | .parse _ => true
  | _ => false

/-- Whether a command is CANON, the one that reads `RAW`. -/
def isCanon : Instr → Bool
  | .canon _ => true
  | _ => false

/-- The value registers a command reads. -/
def sourceV : Instr → List VReg
  | .mov _ a | .len _ a | .isneg _ a | .digit _ a _ | .neg _ a | .inc _ a | .dec _ a | .shl _ a _ | .shr _ a _
  | .fmtd a | .fmth a | .fmto a | .toint _ a => [a]
  | .mlt _ a b | .cmplt _ a b | .cmple _ a b | .cmpgt _ a b | .cmpge _ a b | .cmpeq _ a b | .cmpne _ a b
  | .madd _ a b | .msub _ a b | .add _ a b | .sub _ a b | .mul _ a b | .div _ a b | .mod _ a b
  | .divrem _ _ a b => [a, b]
  | .canon _ | .parse _ | .fromint _ _ => []

/-- The scalar registers a command reads. -/
def sourceX : Instr → List XReg
  | .digit _ _ x | .shl _ _ x | .shr _ _ x | .fromint _ x => [x]
  | _ => []

/-- The preconditions of 60_exceptions.md R191, violated. -/
def Violates (s : State) : Instr → Prop
  | .madd _ a b => (s.readV a).sign = true ∨ (s.readV b).sign = true
  | .msub _ a b => (s.readV a).sign = true ∨ (s.readV b).sign = true ∨ (s.readV a).mlt (s.readV b) = true
  | _ => False

/-! ### Legal words (30_encoding.md R59, R62, R65) -/

/-- `match` and `mask` of the 31 rows of spec/opcode_table.json. -/
def legalRows : List (CommandWord × CommandWord) :=
  [(0x10000000, 0xFF1FFFFF), (0x11000000, 0xFF1C7FFF), (0x12000000, 0xFF1C7FFF), (0x13000000, 0xFF1C0FFF),
   (0x14000000, 0xFF1C7FFF), (0x20000000, 0xFF1C0FFF), (0x21000000, 0xFF1C0FFF), (0x22000000, 0xFF1C0FFF)] ++
  [(0x23000000, 0xFF1C0FFF), (0x24000000, 0xFF1C0FFF), (0x25000000, 0xFF1C0FFF), (0x26000000, 0xFF1C0FFF),
   (0x30000000, 0xFF1C0FFF), (0x31000000, 0xFF1C0FFF), (0x32000000, 0xFF1C0FFF), (0x33000000, 0xFF1C0FFF)] ++
  [(0x34000000, 0xFF1C7FFF), (0x35000000, 0xFF1C7FFF), (0x36000000, 0xFF1C7FFF), (0x40000000, 0xFF1C0FFF),
   (0x41000000, 0xFF1C0FFF), (0x50000000, 0xFF1C0FFF), (0x60000000, 0xFF1C0FFF), (0x61000000, 0xFF1C0FFF)] ++
  [(0x62000000, 0xFF000FFF), (0x70000000, 0xFF1FFFFF), (0x71000000, 0xFFFC7FFF), (0x72000000, 0xFFFC7FFF),
   (0x73000000, 0xFFFC7FFF), (0x74000000, 0xFF1C7FFF), (0x75000000, 0xFF1C7FFF)]

/-- A word is legal when some row's `(w & mask) == match`, and as a DIVREM word only when bits 23:21 and 20:18 differ. -/
def LegalWord (w : CommandWord) : Prop :=
  ∃ row ∈ legalRows, w &&& row.2 = row.1 ∧
    (row.1 = 0x62000000#32 → w.extractLsb' 21 3 ≠ w.extractLsb' 18 3)

/-! ### Texts (46_text_codec.md R144, R145) -/

/-- The sign characters a text may begin with, and the sign each gives. -/
def SignText (sg : List Byte) (neg : Bool) : Prop :=
  (sg = [] ∧ neg = false) ∨ (sg = [0x2B#8] ∧ neg = false) ∨ (sg = [0x2D#8] ∧ neg = true)

/-- The number a run of hexadecimal digit characters spells. -/
def hexNumber (run : List Byte) : Nat := run.foldl (fun acc c => 16 * acc + (hexValue c).toNat) 0

/-- The number a run of decimal digit characters spells. -/
def decNumber (run : List Byte) : Nat := run.foldl (fun acc c => 10 * acc + (c.toNat - 0x30)) 0

/-- An integer from a sign and a magnitude. -/
def signed (neg : Bool) (m : Nat) : Int := if neg then -(m : Int) else m

/-- A text with `0x` inserted after its sign character, if any (46_text_codec.md R159). -/
def insertPrefix : List Byte → List Byte
  | [] => [0x30#8, 0x78#8]
  | c :: t => if c = 0x2D#8 then c :: 0x30#8 :: 0x78#8 :: t else 0x30#8 :: 0x78#8 :: c :: t

end Sys2Proof.Machine
end

