-- ==== Sys2Proof/Certificates/Slice0/Obligations.lean ====
section
/-! DEFINITION. The statements for the provers, from the numbered rules of spec/. A statement of a command's result gives
its whole next state, in the shapes of Safety.lean (resultV, resultX, failed, aborted), so it is also the command's frame
and its completion. -/

open Sys2Proof Sys2Proof.Machine

/-! ### Encoding -/

/-- Encoding and decoding agree on every command (30_encoding.md R63, R71). -/
def Obligations.DecodeOfEncode : Prop :=
  ∀ i : Instr, i.wellFormed = true → decode (encode i) = .command i

/-- A word that decodes is the encoding of its command: no bit of a legal word is dropped (R63). -/
def Obligations.EncodeOfDecode : Prop :=
  ∀ (w : CommandWord) (i : Instr), decode w = .command i → i.wellFormed = true ∧ encode i = w

/-- The words that are commands are exactly those of the opcode table's rows, DIVREM with two different destinations
(R59, R62, R64, R65). -/
def Obligations.LegalWordsAreTheTableRows : Prop :=
  ∀ w : CommandWord, (∃ i, decode w = .command i) ↔ LegalWord w

/-- An illegal word fails with IllegalCommand and changes nothing but STATUS.ERR (R64, R65, R190). -/
def Obligations.IllegalWordsFailByName : Prop :=
  ∀ (s : State) (w : CommandWord) (rest : List HostAction),
    s.host = .command w :: rest → s.status.abort = false → ¬ LegalWord w →
      step s = .next (failed (popped s rest) 7#8)

/-- The worked words of R71 and the near misses of R72. -/
def Obligations.SampleWordsDecode : Prop :=
  decode 0x32401000#32 = .command (.add 2 0 1) ∧ decode 0x624C1000#32 = .command (.divrem 2 3 0 1) ∧
  decode 0x70000000#32 = .command (.parse 0) ∧ decode 0x71038000#32 = .command (.fmtd 7) ∧
  decode 0x75210000#32 = .command (.toint 1 2) ∧ decode 0x4020B000#32 = .command (.shl 1 1 3) ∧
  decode 0x32401001#32 = .illegal .nonzeroUnusedBit ∧ decode 0x32441000#32 = .illegal .nonzeroUnusedBit ∧
  decode 0x62481000#32 = .illegal .sameDestination ∧ decode 0x00000000#32 = .illegal .unassignedOpcode ∧
  decode 0x37000000#32 = .illegal .unassignedOpcode ∧ decode 0x71238000#32 = .illegal .nonzeroUnusedBit ∧
  decode 0x70008000#32 = .illegal .nonzeroUnusedBit

/-! ### The step, the host and reset -/

/-- A step whose next host action presents a word that is a command runs that command, the action taken off the host's
list; with no action left a step changes nothing (the last clause is the model's reading, assumption log 3). -/
def Obligations.StepRunsTheDecodedCommand : Prop :=
  (∀ (s : State) (w : CommandWord) (i : Instr) (rest : List HostAction),
    s.host = .command w :: rest → s.status.abort = false → decode w = .command i →
      step s = exec i (popped s rest)) ∧
  (∀ s : State, s.host = [] → step s = .next s)

/-- While STATUS.ABORT = 1 every word, legal or not, writes STATUS.ERR = 0xFF and nothing else (60_exceptions.md R193). -/
def Obligations.AbortedBlockDiscardsWords : Prop :=
  ∀ (s : State) (w : CommandWord) (rest : List HostAction),
    s.host = .command w :: rest → s.status.abort = true → step s = .next (failed (popped s rest) 0xFF#8)

/-- STATUS.ABORT is set only by a command that violates one of the three preconditions of R191 and is cleared only by
reset (10_state.md R28, 60_exceptions.md R191, R193). -/
def Obligations.AbortIsSetByViolationAndClearedByReset : Prop :=
  ∀ (s t : State), s.Inv → step s = .next t →
    (t.status.abort = true ↔
      (s.status.abort = true ∧ s.host.head? ≠ some .reset) ∨
      (s.status.abort = false ∧
        ∃ w rest i, s.host = .command w :: rest ∧ decode w = .command i ∧ Violates s i))

/-- The host's writes, each of which leaves all else unchanged, also while STATUS.ABORT = 1 (70_reset_and_hazards.md
R216, 60_exceptions.md R193). That a number of more than `W` bits keeps its low `W` bits is the model's choice
(assumption log 4). -/
def Obligations.HostWritesTakeEffect : Prop :=
  ∀ (s : State) (rest : List HostAction),
    (∀ (i : XReg) (n : Nat), s.host = .writeX i n :: rest →
      step s = .next { popped s rest with x := s.x.set i (n % 2 ^ s.params.width) }) ∧
    (∀ b, s.host = .writeRawSign b :: rest →
      step s = .next { popped s rest with raw := { s.raw with sign := b } }) ∧
    (∀ n, s.host = .writeRawLen n :: rest → n ≤ 2 * s.params.maxDigits →
      step s = .next { popped s rest with raw := { s.raw with len := n } }) ∧
    (∀ k d, s.host = .writeRawDigit k d :: rest → k < 2 * s.params.maxDigits →
      step s = .next { popped s rest with raw := { s.raw with cells := s.raw.cells.set k d } }) ∧
    (∀ n, s.host = .writeTextLen n :: rest → n ≤ s.params.textMax →
      step s = .next { popped s rest with tlen := n }) ∧
    (∀ w : BitVec 32, s.host = .writeCfg w :: rest →
      step s = .next { popped s rest with cfg := { pcompat := w.getLsbD 0 } })

/-- A host write of a byte of the text buffer: that byte reads as written, every other byte as before, all else is
unchanged (70_reset_and_hazards.md R216, 20_memory.md R47). -/
def Obligations.HostWriteOfTextByte : Prop :=
  ∀ (s : State) (k : Nat) (b : Byte) (rest : List HostAction),
    s.host = .writeText k b :: rest → k < s.params.textMax → Memory.wf s.tbuf = true →
      ∃ t, step s = .next t ∧ Memory.read t.tbuf k = b ∧
        (∀ a, a ≠ k → Memory.read t.tbuf a = Memory.read s.tbuf a) ∧ t = { popped s rest with tbuf := t.tbuf }

/-- A host write to RAW.len above RAW_MAX is ignored (10_state.md R23). -/
def Obligations.OversizedRawLenIgnored : Prop :=
  ∀ (s : State) (n : Nat) (rest : List HostAction),
    s.host = .writeRawLen n :: rest → 2 * s.params.maxDigits < n → step s = .next (popped s rest)

/-- A host write to TLEN above TEXT_MAX is ignored (10_state.md R25). -/
def Obligations.OversizedTextLenIgnored : Prop :=
  ∀ (s : State) (n : Nat) (rest : List HostAction),
    s.host = .writeTextLen n :: rest → s.params.textMax < n → step s = .next (popped s rest)

/-- A host read changes nothing (20_memory.md R47). What it gives (70_reset_and_hazards.md R216): of STATUS the fields of
10_state.md R26 and no other bit, of CFG only PCOMPAT (R30), of a value register its sign, length and digits, and X, RAW,
TBUF and TLEN as they are held. That a digit at or above the length reads as 0 is the model's reading
(assumption log 5). -/
def Obligations.HostReadsSeeTheState : Prop :=
  (∀ (s : State) (p : Port) (rest : List HostAction),
    s.host = .read p :: rest → (HostAction.read p).Named s.params → step s = .next (popped s rest)) ∧
  (∀ s : State, hostRead .status s =
    s.status.err.toNat + 256 * s.status.abort.toNat + 512 * s.status.warn.toNat) ∧
  (∀ s : State, hostRead .cfg s = s.cfg.pcompat.toNat) ∧
  (∀ (s : State) (i : VReg) (k : Nat), (s.readV i).Canonical s.params.maxDigits →
    hostRead (.vSign i) s = (if (s.readV i).val < 0 then 1 else 0) ∧
    hostRead (.vLen i) s = ndig (s.readV i).val.natAbs ∧
    hostRead (.vDigit i k) s = (s.readV i).val.natAbs / 16 ^ k % 16) ∧
  (∀ (s : State) (i : XReg), hostRead (.x i) s = s.uX i ∧ s.uX i = s.x.get i % 2 ^ s.params.width) ∧
  (∀ s : State, hostRead .rawSign s = (if s.raw.sign = true then 1 else 0) ∧ hostRead .rawLen s = s.raw.len) ∧
  (∀ (s : State) (k : Nat) (d : Digit), s.raw.cells[k]? = some d → hostRead (.rawDigit k) s = d.toNat) ∧
  (∀ (s : State) (k : Nat), hostRead (.text k) s = (Memory.read s.tbuf k).toNat) ∧
  (∀ s : State, hostRead .textLen s = s.tlen)

/-- What every piece of the block's state holds after the reset event, whatever it held before (70_reset_and_hazards.md
R206, 10_state.md R36). That the model's own fields are kept, `params` and the rest of the host's list, is the model's
choice (assumption log 12), no rule of the spec. -/
def Obligations.ResetEventClearsEverything : Prop :=
  ∀ (s : State) (rest : List HostAction), s.host = .reset :: rest →
    ∃ t, step s = .next t ∧ t.params = s.params ∧ t.host = rest ∧
      (∀ i, t.readV i = { sign := false, digits := [0#4] }) ∧ (∀ i, t.uX i = 0) ∧
      t.raw.sign = false ∧ t.raw.len = 0 ∧ t.raw.cells = List.replicate (2 * s.params.maxDigits) 0#4 ∧
      t.tlen = 0 ∧ (∀ a, Memory.read t.tbuf a = 0#8) ∧
      t.status = { err := 0#8, abort := false, warn := false } ∧ t.cfg = { pcompat := false }

/-- Reset meets the invariant, and its parameters are the defaults of 00_scope.md R6: that it takes the defaults is the
model's choice (assumption log 1). -/
def Obligations.ResetMeetsTheInvariant : Prop :=
  State.reset.Inv ∧ State.reset.params = { maxDigits := 64, width := 32, textMax := 128 }

/-- Every step from a state that meets the invariant gives a state that meets it: canonical registers within capacity
(10_state.md R18), `W`-bit scalar words, the text buffer's form, the legal outcome codes (60_exceptions.md R183). -/
def Obligations.StepKeepsTheInvariant : Prop :=
  ∀ s t : State, s.Inv → step s = .next t → t.Inv

/-- From a state that meets the invariant, whose next host action names only cells the block has, a step always
completes: no access goes out of range, no loop runs past its bound, nothing is refused (20_memory.md R49, 45_divider.md
R141, 70_reset_and_hazards.md R208). -/
def Obligations.StepAlwaysCompletes : Prop :=
  ∀ s : State, s.Inv → (∀ a, s.host.head? = some a → a.Named s.params) → ∃ t, step s = .next t

/-! ### Frames over all commands -/

/-- A command that fails or aborts changes nothing but STATUS, and STATUS.WARN only if it is PARSE (60_exceptions.md
R186, R188, 70_reset_and_hazards.md R213). -/
def Obligations.FailingCommandsWriteOnlyStatus : Prop :=
  ∀ (i : Instr) (s t : State), exec i s = .next t → t.status.err ≠ 0#8 →
    t = { s with status := t.status } ∧ (isParse i = false → t.status.warn = s.status.warn)

/-- What a command may write (10_state.md R35): registers other than its destinations, every byte of the text buffer
unless it formats, RAW, CFG, and the other STATUS fields are unchanged. -/
def Obligations.CommandsWriteOnlyTheirDestinations : Prop :=
  ∀ (i : Instr) (s t : State), exec i s = .next t →
    (∀ j, j ∉ destV i → t.readV j = s.readV j) ∧ (∀ j, j ∉ destX i → t.uX j = s.uX j) ∧
    (writesText i = false → (∀ a, Memory.read t.tbuf a = Memory.read s.tbuf a) ∧ t.tlen = s.tlen) ∧
    t.raw = s.raw ∧ t.cfg = s.cfg ∧ t.params = s.params ∧ t.host = s.host ∧
    (isParse i = false → t.status.warn = s.status.warn) ∧
    (t.status.abort = s.status.abort ∨ (t.status.abort = true ∧ t.status.err = 0xFF#8))

/-- A command reads only what 10_state.md R35 lists: two states that agree on that give the same outcome code and the same
results (47_arithmetic_laws.md R173). -/
def Obligations.CommandsReadOnlyTheirSources : Prop :=
  ∀ (i : Instr) (s s' t : State), s.params = s'.params →
    (∀ j ∈ sourceV i, s.readV j = s'.readV j) → (∀ j ∈ sourceX i, s.uX j = s'.uX j) →
    (isCanon i = true → s.raw = s'.raw) →
    (isParse i = true → s.text = s'.text ∧ s.tlen = s'.tlen ∧ s.cfg = s'.cfg) →
    Memory.wf s.tbuf = true → Memory.wf s'.tbuf = true → exec i s = .next t →
      ∃ t', exec i s' = .next t' ∧ t'.status.err = t.status.err ∧
        (t.status.err = 0#8 →
          (∀ j ∈ destV i, t'.readV j = t.readV j) ∧ (∀ j ∈ destX i, t'.uX j = t.uX j) ∧
          (writesText i = true → t'.text = t.text) ∧ (isParse i = true → t'.status.warn = t.status.warn))

/-- STATUS.ERR changes only when a word is presented or at reset (10_state.md R27). -/
def Obligations.OnlyCommandsAndResetWriteErr : Prop :=
  ∀ (s t : State), step s = .next t → t.status.err ≠ s.status.err →
    s.host.head? = some .reset ∨ ∃ w, s.host.head? = some (.command w)

/-! ### Values and the digit store -/

/-- `ndig` and `digits_of` are those of 00_scope.md R11. -/
def Obligations.DigitsOfANumber : Prop :=
  ndig 0 = 1 ∧
  (∀ m : Nat, 0 < m → 16 ^ (ndig m - 1) ≤ m ∧ m < 16 ^ ndig m) ∧
  (∀ m : Nat, (digitsOf m).length = ndig m) ∧
  (∀ m i : Nat, ((digitsOf m).getD i 0#4).toNat = m / 16 ^ i % 16) ∧
  (∀ m : Nat, magOf (digitsOf m) = m)

/-- A value register can hold exactly the integers below RADIX^MAX_DIGITS in magnitude, each in one way
(47_arithmetic_laws.md R168, 40_digit_store.md R82). -/
def Obligations.RepresentableIntegers : Prop :=
  ∀ (md : Nat) (z : Int), 1 ≤ md →
    (z.natAbs < 16 ^ md → (Value.ofInt z).Canonical md ∧ (Value.ofInt z).val = z) ∧
    (∀ a : Value, a.Canonical md → a.val = z → z.natAbs < 16 ^ md ∧ a = Value.ofInt z)

/-- What `canon` computes, on values, with its consequences (40_digit_store.md R75). -/
def Obligations.CanonicaliserOutcome : Prop :=
  ∀ (md : Nat) (sg : Bool) (ds : List Digit), 1 ≤ md →
    (md < ndig (magOf ds) → Value.canon md sg ds = .fail .capacityExceeded) ∧
    (ndig (magOf ds) ≤ md →
      Value.canon md sg ds = .ok { sign := sg && decide (magOf ds ≠ 0), digits := digitsOf (magOf ds) }) ∧
    (∀ a, Value.canon md sg ds = .ok a → a.Canonical md) ∧
    (∀ a : Value, a.Canonical md → Value.canon md a.sign a.digits = .ok a) ∧
    (∀ (sg' : Bool) (ds' : List Digit), magOf ds' = magOf ds → (magOf ds ≠ 0 → sg' = sg) →
      Value.canon md sg' ds' = Value.canon md sg ds)

/-- CANON gives V[rd] the number in RAW with its sign, or fails when it exceeds the capacity (40_digit_store.md R76). -/
def Obligations.CanonBuildsFromRaw : Prop :=
  ∀ (s : State) (rd : VReg),
    let z := signed s.raw.sign (magOf (s.raw.cells.take s.raw.len))
    (Fits s.params.maxDigits z → exec (.canon rd) s = .next (resultV s rd z)) ∧
    (¬ Fits s.params.maxDigits z → exec (.canon rd) s = .next (failed s 2#8))

/-- MOV copies the value; LEN, DIGIT and ISNEG give its digit count, the digit of weight RADIX^i (zero past the top, the
index read unsigned) and its sign (40_digit_store.md R77 to R80). -/
def Obligations.CopyAndQueries : Prop :=
  ∀ (s : State) (rs1 : VReg), (s.readV rs1).Canonical s.params.maxDigits → s.params.Meets →
    let z := (s.readV rs1).val
    (∀ rd, exec (.mov rd rs1) s = .next (resultV s rd z)) ∧
    (∀ rd, exec (.len rd rs1) s = .next (resultX s rd (ndig z.natAbs % 2 ^ s.params.width))) ∧
    (∀ rd rs2, exec (.digit rd rs1 rs2) s =
      .next (resultX s rd (z.natAbs / 16 ^ s.uX rs2 % 16 % 2 ^ s.params.width))) ∧
    (∀ rd, exec (.isneg rd rs1) s = .next (resultX s rd (if z < 0 then 1 else 0)))

/-! ### Comparator -/

/-- On canonical values `mlt` orders magnitudes, `slt` orders integers and `eq` is equality (41_comparator.md R85, R88,
R89). -/
def Obligations.ComparatorOrdersIntegers : Prop :=
  ∀ (md : Nat) (a b : Value), a.Canonical md → b.Canonical md →
    (a.mlt b = true ↔ a.mag < b.mag) ∧ (a.slt b = true ↔ a.val < b.val) ∧ (a.eq b = true ↔ a.val = b.val)

/-- The seven comparison commands write 1 or 0 to X[rd] and nothing else (41_comparator.md R86, R87, R90 to R96). -/
def Obligations.ComparisonCommands : Prop :=
  ∀ (s : State) (rd : XReg) (rs1 rs2 : VReg),
    (s.readV rs1).Canonical s.params.maxDigits → (s.readV rs2).Canonical s.params.maxDigits → s.params.Meets →
    let a := (s.readV rs1).val
    let b := (s.readV rs2).val
    exec (.mlt rd rs1 rs2) s = .next (resultX s rd (if a.natAbs < b.natAbs then 1 else 0)) ∧
    exec (.cmplt rd rs1 rs2) s = .next (resultX s rd (if a < b then 1 else 0)) ∧
    exec (.cmple rd rs1 rs2) s = .next (resultX s rd (if a ≤ b then 1 else 0)) ∧
    exec (.cmpgt rd rs1 rs2) s = .next (resultX s rd (if b < a then 1 else 0)) ∧
    exec (.cmpge rd rs1 rs2) s = .next (resultX s rd (if b ≤ a then 1 else 0)) ∧
    exec (.cmpeq rd rs1 rs2) s = .next (resultX s rd (if a = b then 1 else 0)) ∧
    exec (.cmpne rd rs1 rs2) s = .next (resultX s rd (if a = b then 0 else 1))

/-! ### Additive engine -/

/-- The magnitude adder's digit loop adds, or fails at capacity, or aborts on a negative operand (42_additive.md R98). -/
def Obligations.MagnitudeAdderOutcome : Prop :=
  ∀ (md : Nat) (a b : Value), 1 ≤ md →
    (a.sign = false → b.sign = false →
      (a.mag + b.mag < 16 ^ md → Value.madd md a b = .ok (Value.ofInt ((a.mag : Int) + b.mag))) ∧
      (16 ^ md ≤ a.mag + b.mag → Value.madd md a b = .fail .capacityExceeded)) ∧
    (a.sign = true ∨ b.sign = true → Value.madd md a b = .abort)

/-- The magnitude subtractor's borrow loop subtracts, or aborts on a negative operand or a smaller first magnitude
(42_additive.md R101). -/
def Obligations.MagnitudeSubtractorOutcome : Prop :=
  ∀ (md : Nat) (a b : Value), a.Canonical md → b.Canonical md →
    (a.sign = false → b.sign = false → b.mag ≤ a.mag →
      Value.msub md a b = .ok (Value.ofInt ((a.mag : Int) - b.mag))) ∧
    (a.sign = true ∨ b.sign = true ∨ a.mag < b.mag → Value.msub md a b = .abort)

/-- MADD and MSUB (42_additive.md R99, R102; 60_exceptions.md R191, R192). -/
def Obligations.PrimitiveCommands : Prop :=
  ∀ (s : State) (rd rs1 rs2 : VReg),
    (s.readV rs1).Canonical s.params.maxDigits → (s.readV rs2).Canonical s.params.maxDigits →
    let a := (s.readV rs1).val
    let b := (s.readV rs2).val
    (0 ≤ a → 0 ≤ b → Fits s.params.maxDigits (a + b) →
      exec (.madd rd rs1 rs2) s = .next (resultV s rd (a + b))) ∧
    (0 ≤ a → 0 ≤ b → ¬ Fits s.params.maxDigits (a + b) → exec (.madd rd rs1 rs2) s = .next (failed s 2#8)) ∧
    (a < 0 ∨ b < 0 → exec (.madd rd rs1 rs2) s = .next (aborted s)) ∧
    (0 ≤ b → b ≤ a → exec (.msub rd rs1 rs2) s = .next (resultV s rd (a - b))) ∧
    (b < 0 ∨ a < b → exec (.msub rd rs1 rs2) s = .next (aborted s))

/-- The sign resolver is exact integer addition and subtraction up to capacity and never aborts (42_additive.md R112). -/
def Obligations.SignResolverOutcome : Prop :=
  ∀ (md : Nat) (a b : Value), a.Canonical md → b.Canonical md →
    (Fits md (a.val + b.val) → Value.add md a b = .ok (Value.ofInt (a.val + b.val))) ∧
    (¬ Fits md (a.val + b.val) → Value.add md a b = .fail .capacityExceeded ∧ a.sign = b.sign) ∧
    (Fits md (a.val - b.val) → Value.sub md a b = .ok (Value.ofInt (a.val - b.val))) ∧
    (¬ Fits md (a.val - b.val) → Value.sub md a b = .fail .capacityExceeded ∧ a.sign ≠ b.sign)

/-- ADD, SUB, NEG, INC and DEC (42_additive.md R107 to R111). -/
def Obligations.SignedCommands : Prop :=
  ∀ (s : State) (rd rs1 rs2 : VReg),
    (s.readV rs1).Canonical s.params.maxDigits → (s.readV rs2).Canonical s.params.maxDigits →
    let md := s.params.maxDigits
    let a := (s.readV rs1).val
    let b := (s.readV rs2).val
    exec (.add rd rs1 rs2) s = .next (if a + b < 16 ^ md ∧ -(16 ^ md) < a + b then resultV s rd (a + b) else failed s 2#8) ∧
    exec (.sub rd rs1 rs2) s = .next (if a - b < 16 ^ md ∧ -(16 ^ md) < a - b then resultV s rd (a - b) else failed s 2#8) ∧
    exec (.neg rd rs1) s = .next (resultV s rd (-a)) ∧
    exec (.inc rd rs1) s = .next (if a + 1 < 16 ^ md then resultV s rd (a + 1) else failed s 2#8) ∧
    exec (.dec rd rs1) s = .next (if -(16 ^ md) < a - 1 then resultV s rd (a - 1) else failed s 2#8)

/-- The additive identities: `a + 0 == a`, `a - a == 0`, commutativity including failure, associativity whenever neither
side fails, and the case of capacity 1 where one side fails and the other does not (42_additive.md R113). -/
def Obligations.AdditiveIdentities : Prop :=
  (∀ (md : Nat) (a b c : Value), a.Canonical md → b.Canonical md → c.Canonical md →
    Value.add md a .zero = .ok a ∧ Value.sub md a a = .ok .zero ∧ Value.add md a b = Value.add md b a ∧
    (∀ ab l bc r, Value.add md a b = .ok ab → Value.add md ab c = .ok l → Value.add md b c = .ok bc →
      Value.add md a bc = .ok r → l = r)) ∧
  Value.add 1 (Value.ofInt 15) (Value.ofInt 1) = .fail .capacityExceeded ∧
  Value.add 1 (Value.ofInt 1) (Value.ofInt (-1)) = .ok .zero ∧
  Value.add 1 (Value.ofInt 15) .zero = .ok (Value.ofInt 15)

/-! ### Shifter -/

/-- Shift left puts `k` zeros below the digits and canonicalises: it multiplies by RADIX^k or fails at capacity, zero
shifting to zero by any amount (43_shifter.md R115). -/
def Obligations.ShiftLeftOutcome : Prop :=
  ∀ (md : Nat) (a : Value) (k : Nat), a.Canonical md →
    Value.shl md a k = Value.canon md a.sign (List.replicate k 0#4 ++ a.digits) ∧
    (a = .zero → Value.shl md a k = .ok .zero) ∧
    (a ≠ .zero → md < a.len + k → Value.shl md a k = .fail .capacityExceeded) ∧
    (a ≠ .zero → a.len + k ≤ md →
      ∃ v, Value.shl md a k = .ok v ∧ v.sign = a.sign ∧ v.len = a.len + k ∧ v.val = a.val * 16 ^ k)

/-- Shift right drops the `k` low digits, keeping the sign: it is truncating division by RADIX^k, zero when no digit is
left, and never fails (43_shifter.md R117). -/
def Obligations.ShiftRightOutcome : Prop :=
  ∀ (md : Nat) (a : Value) (k : Nat), a.Canonical md →
    (a.len ≤ k → Value.shr md a k = .ok .zero) ∧
    (k < a.len → Value.shr md a k = .ok { sign := a.sign, digits := a.digits.drop k }) ∧
    (∃ v, Value.shr md a k = .ok v ∧ v.Canonical md ∧ v.val = a.val.tdiv (16 ^ k)) ∧
    (a.mag < 16 ^ k → Value.shr md a k = .ok .zero)

/-- SHL and SHR: the amount is an unsigned number of bits; a misaligned one fails before anything else (43_shifter.md
R116, R118, R119). -/
def Obligations.ShiftCommands : Prop :=
  ∀ (s : State) (rd rs1 : VReg) (rs2 : XReg), (s.readV rs1).Canonical s.params.maxDigits →
    let a := (s.readV rs1).val
    let n := s.uX rs2
    (n % 4 ≠ 0 → exec (.shl rd rs1 rs2) s = .next (failed s 5#8) ∧ exec (.shr rd rs1 rs2) s = .next (failed s 5#8)) ∧
    (n % 4 = 0 → exec (.shr rd rs1 rs2) s = .next (resultV s rd (a.tdiv (16 ^ (n / 4))))) ∧
    (n % 4 = 0 → a = 0 ∨ ndig a.natAbs + n / 4 ≤ s.params.maxDigits →
      exec (.shl rd rs1 rs2) s = .next (resultV s rd (a * 16 ^ (n / 4)))) ∧
    (n % 4 = 0 → a ≠ 0 → s.params.maxDigits < ndig a.natAbs + n / 4 →
      exec (.shl rd rs1 rs2) s = .next (failed s 2#8))

/-- A shift right by the amount of a successful shift left gives back the value; the converse order clears the low
digits (43_shifter.md R120). -/
def Obligations.ShiftInverse : Prop :=
  (∀ (s t : State) (rd rs1 : VReg) (rs2 : XReg), (s.readV rs1).Canonical s.params.maxDigits →
    exec (.shl rd rs1 rs2) s = .next t → t.status.err = 0#8 →
      ∃ u, exec (.shr rd rd rs2) t = .next u ∧ u.status.err = 0#8 ∧ u.readV rd = s.readV rs1) ∧
  (∀ (md : Nat) (a b : Value) (k : Nat), a.Canonical md → Value.shr md a k = .ok b →
    Value.shl md b k = .ok (Value.ofInt (a.val.tdiv (16 ^ k) * 16 ^ k)))

/-! ### Multiplier -/

/-- The schoolbook multiplier is exact integer multiplication, refused exactly by the length pre-check outside the fast
paths; it never aborts (44_multiplier.md R129). -/
def Obligations.MultiplierOutcome : Prop :=
  ∀ (md : Nat) (a b : Value), a.Canonical md → b.Canonical md →
    (a.mag ≤ 1 ∨ b.mag ≤ 1 → Value.mul md a b = .ok (Value.ofInt (a.val * b.val))) ∧
    (2 ≤ a.mag → 2 ≤ b.mag → md < a.len + b.len → Value.mul md a b = .fail .capacityExceeded) ∧
    (a.len + b.len ≤ md → Value.mul md a b = .ok (Value.ofInt (a.val * b.val)))

/-- MUL (44_multiplier.md R128). -/
def Obligations.MultiplyCommand : Prop :=
  ∀ (s : State) (rd rs1 rs2 : VReg),
    (s.readV rs1).Canonical s.params.maxDigits → (s.readV rs2).Canonical s.params.maxDigits →
    let a := (s.readV rs1).val
    let b := (s.readV rs2).val
    let refused := 2 ≤ a.natAbs ∧ 2 ≤ b.natAbs ∧ s.params.maxDigits < ndig a.natAbs + ndig b.natAbs
    (¬ refused → exec (.mul rd rs1 rs2) s = .next (resultV s rd (a * b))) ∧
    (refused → exec (.mul rd rs1 rs2) s = .next (failed s 2#8))

/-- `a * 0 == 0`, `a * 1 == a`, `a * -1 == -a` for every `a`, in either operand order (47_arithmetic_laws.md R171). -/
def Obligations.MultiplicativeIdentities : Prop :=
  ∀ (md : Nat) (a : Value), a.Canonical md →
    Value.mul md a .zero = .ok .zero ∧ Value.mul md .zero a = .ok .zero ∧
    Value.mul md a .one = .ok a ∧ Value.mul md .one a = .ok a ∧
    Value.mul md a (Value.ofInt (-1)) = Value.neg md a ∧ Value.mul md (Value.ofInt (-1)) a = Value.neg md a

/-! ### Divider -/

/-- The long divider gives the truncating quotient and its remainder, both canonical, and fails only for a zero divisor;
it never exceeds capacity, aborts or runs past its loop bound (45_divider.md R140). -/
def Obligations.DividerOutcome : Prop :=
  ∀ (md : Nat) (a b : Value), a.Canonical md → b.Canonical md →
    (b = .zero → Value.divrem md a b = .fail .divideByZero) ∧
    (b ≠ .zero →
      ∃ q r, Value.divrem md a b = .ok (q, r) ∧ q.Canonical md ∧ r.Canonical md ∧
        q.val = a.val.tdiv b.val ∧ r.val = a.val.tmod b.val ∧
        q.mag = a.mag / b.mag ∧ r.mag = a.mag % b.mag ∧ r.mag < b.mag ∧
        a.val = q.val * b.val + r.val ∧ (r = .zero ∨ r.sign = a.sign) ∧ q.len ≤ a.len ∧ r.len ≤ b.len)

/-- DIV, MOD and DIVREM (45_divider.md R131, R137 to R139): both sources are read before a destination is written. -/
def Obligations.DivisionCommands : Prop :=
  ∀ (s : State) (rd rd2 rs1 rs2 : VReg),
    (s.readV rs1).Canonical s.params.maxDigits → (s.readV rs2).Canonical s.params.maxDigits →
    let a := (s.readV rs1).val
    let b := (s.readV rs2).val
    (b ≠ 0 →
      exec (.div rd rs1 rs2) s = .next (resultV s rd (a.tdiv b)) ∧
      exec (.mod rd rs1 rs2) s = .next (resultV s rd (a.tmod b)) ∧
      exec (.divrem rd rd2 rs1 rs2) s = .next (resultV (resultV s rd (a.tdiv b)) rd2 (a.tmod b))) ∧
    (b = 0 →
      exec (.div rd rs1 rs2) s = .next (failed s 1#8) ∧ exec (.mod rd rs1 rs2) s = .next (failed s 1#8) ∧
      exec (.divrem rd rd2 rs1 rs2) s = .next (failed s 1#8))

/-- The division identity and the range of the remainder, on the block's own results (47_arithmetic_laws.md R170,
45_divider.md R136, R140). -/
def Obligations.DivisionIdentity : Prop :=
  ∀ (s t : State) (rd rd2 rs1 rs2 : VReg), rd ≠ rd2 →
    (s.readV rs1).Canonical s.params.maxDigits → (s.readV rs2).Canonical s.params.maxDigits →
    exec (.divrem rd rd2 rs1 rs2) s = .next t → t.status.err = 0#8 →
    let a := (s.readV rs1).val
    let b := (s.readV rs2).val
    a = (t.readV rd).val * b + (t.readV rd2).val ∧ (t.readV rd2).val.natAbs < b.natAbs ∧
    ((t.readV rd2).val = 0 ∨ ((t.readV rd2).val < 0 ↔ a < 0))

/-! ### Text codec -/

/-- PARSE of a hexadecimal text: an optional sign, `0x` or `0X`, a non-empty run of hex digits, then anything that does
not continue the run (46_text_codec.md R145, R146, R150 to R152). -/
def Obligations.ParseHexadecimalText : Prop :=
  ∀ (s : State) (rd : VReg) (sg run rest : List Byte) (neg : Bool) (x : Byte),
    s.tlen ≤ s.params.textMax → SignText sg neg → x = 0x78#8 ∨ x = 0x58#8 → run ≠ [] →
    (∀ c ∈ run, isHexDigit c = true) → (∀ c, rest.head? = some c → isHexDigit c = false) →
    s.text = sg ++ 0x30#8 :: x :: (run ++ rest) →
    let z := signed neg (hexNumber run)
    (Fits s.params.maxDigits z → exec (.parse rd) s = .next (resultV (warned s false) rd z)) ∧
    (¬ Fits s.params.maxDigits z → exec (.parse rd) s = .next (failed (warned s false) 2#8))

/-- PARSE of a decimal text: an optional sign, a non-empty run of decimal digits that is not the prefix of a hexadecimal
text, then anything that does not continue the run. It fails exactly when, with another digit still to come, the value
read so far is at least 2 and already has MAX_DIGITS digits, or the number itself does not fit (46_text_codec.md R149,
R151, R152). -/
def Obligations.ParseDecimalText : Prop :=
  ∀ (s : State) (rd : VReg) (sg run rest : List Byte) (neg : Bool),
    s.params.Meets → s.tlen ≤ s.params.textMax → SignText sg neg → run ≠ [] →
    (∀ c ∈ run, isDecDigit c = true) → (∀ c, rest.head? = some c → isDecDigit c = false) →
    hasHexPrefix (run ++ rest) = false → s.text = sg ++ (run ++ rest) →
    let z := signed neg (decNumber run)
    let refused := ∃ pre c post, run = pre ++ c :: post ∧ 2 ≤ decNumber pre ∧ s.params.maxDigits ≤ ndig (decNumber pre)
    (¬ refused → Fits s.params.maxDigits z → exec (.parse rd) s = .next (resultV (warned s false) rd z)) ∧
    (refused ∨ ¬ Fits s.params.maxDigits z → exec (.parse rd) s = .next (failed (warned s false) 2#8))

/-- PARSE of a malformed text, one whose digit run is empty: ParseError in strict mode, ZERO with a warning in
compatibility mode (46_text_codec.md R146, R147, R148). -/
def Obligations.ParseMalformedText : Prop :=
  ∀ (s : State) (rd : VReg) (sg rest : List Byte) (neg : Bool),
    s.tlen ≤ s.params.textMax → SignText sg neg →
    (sg = [] → ∀ c, rest.head? = some c → c ≠ 0x2B#8 ∧ c ≠ 0x2D#8) →
    (hasHexPrefix rest = false → ∀ c, rest.head? = some c → isDecDigit c = false) →
    (hasHexPrefix rest = true → ∀ c, (rest.drop 2).head? = some c → isHexDigit c = false) →
    s.text = sg ++ rest →
    (s.cfg.pcompat = false → exec (.parse rd) s = .next (failed (warned s false) 4#8)) ∧
    (s.cfg.pcompat = true → exec (.parse rd) s = .next (resultV (warned s true) rd 0))

/-- FMTD writes the decimal numeral of the value: `-` for a negative one, then its digits without leading zeros; bytes at
and above the text keep their content (46_text_codec.md R154, R155). -/
def Obligations.FormatDecimal : Prop :=
  ∀ (s : State) (rs1 : VReg), s.params.Meets → (s.readV rs1).Canonical s.params.maxDigits → Memory.wf s.tbuf = true →
    let a := (s.readV rs1).val
    ∃ (ds : List Byte) (t : State), exec (.fmtd rs1) s = .next t ∧
      ds ≠ [] ∧ (∀ c ∈ ds, isDecDigit c = true) ∧ (ds.head? = some 0x30#8 → ds = [0x30#8]) ∧
      decNumber ds = a.natAbs ∧ t.text = (if a < 0 then 0x2D#8 :: ds else ds) ∧
      (∀ j, t.tlen ≤ j → Memory.read t.tbuf j = Memory.read s.tbuf j) ∧
      t = { s with tbuf := t.tbuf, tlen := t.tlen, status := { s.status with err := 0#8 } }

/-- FMTH writes the hexadecimal numeral of the value: `-` for a negative one, then one lower-case character per digit,
most significant first, no prefix (46_text_codec.md R156, R157, R158). -/
def Obligations.FormatHexadecimal : Prop :=
  ∀ (s : State) (rs1 : VReg), s.params.Meets → (s.readV rs1).Canonical s.params.maxDigits → Memory.wf s.tbuf = true →
    let a := (s.readV rs1).val
    ∃ (ds : List Byte) (t : State), exec (.fmth rs1) s = .next t ∧
      ds.length = ndig a.natAbs ∧ (∀ c ∈ ds, isDecDigit c = true ∨ (0x61 ≤ c.toNat ∧ c.toNat ≤ 0x66)) ∧
      hexNumber ds = a.natAbs ∧ t.text = (if a < 0 then 0x2D#8 :: ds else ds) ∧
      (∀ j, t.tlen ≤ j → Memory.read t.tbuf j = Memory.read s.tbuf j) ∧
      t = { s with tbuf := t.tbuf, tlen := t.tlen, status := { s.status with err := 0#8 } }

/-- FMTO fails with UnsupportedFormat for every operand and writes nothing but STATUS.ERR (46_text_codec.md R160). -/
def Obligations.OctalFormattingAlwaysFails : Prop :=
  ∀ (s : State) (rs1 : VReg), exec (.fmto rs1) s = .next (failed s 6#8)

/-- FROMINT and TOINT: the scalar word is read in two's complement, and a value converts exactly when its magnitude is
below 2^(W-1) (20_memory.md R43, 46_text_codec.md R161 to R164). -/
def Obligations.MachineIntegerCommands : Prop :=
  ∀ (s : State), s.params.Meets →
    (∀ i : XReg, s.sX i = if s.uX i < 2 ^ (s.params.width - 1) then (s.uX i : Int) else s.uX i - 2 ^ s.params.width) ∧
    (∀ (rd : VReg) (rs1 : XReg),
      (Fits s.params.maxDigits (s.sX rs1) → exec (.fromint rd rs1) s = .next (resultV s rd (s.sX rs1))) ∧
      (¬ Fits s.params.maxDigits (s.sX rs1) → exec (.fromint rd rs1) s = .next (failed s 2#8))) ∧
    (∀ (rd : XReg) (rs1 : VReg), (s.readV rs1).Canonical s.params.maxDigits →
      let a := (s.readV rs1).val
      (a.natAbs < 2 ^ (s.params.width - 1) →
        exec (.toint rd rs1) s = .next (resultX s rd (a % 2 ^ s.params.width).toNat)) ∧
      (2 ^ (s.params.width - 1) ≤ a.natAbs → exec (.toint rd rs1) s = .next (failed s 3#8)))

/-- FROMINT then TOINT gives back the machine integer on the symmetric range; at -2^(W-1) the TOINT fails with Overflow
(46_text_codec.md R165). -/
def Obligations.MachineIntegerRoundTrip : Prop :=
  ∀ (s : State) (vd : VReg) (xs xd : XReg), s.params.Meets → Fits s.params.maxDigits (s.sX xs) →
    ∃ t, exec (.fromint vd xs) s = .next t ∧ t.status.err = 0#8 ∧
      (s.sX xs ≠ -(2 ^ (s.params.width - 1)) →
        ∃ u, exec (.toint xd vd) t = .next u ∧ u.status.err = 0#8 ∧ u.uX xd = s.uX xs) ∧
      (s.sX xs = -(2 ^ (s.params.width - 1)) → exec (.toint xd vd) t = .next (failed t 3#8))

/-- FMTD then PARSE gives back the value, unless the PARSE meets the capacity refusal of 46_text_codec.md R149 (R159). -/
def Obligations.DecimalTextRoundTrip : Prop :=
  ∀ (s : State) (vs vd : VReg), s.Inv →
    let q := (s.readV vs).val.natAbs / 10
    ∃ t, exec (.fmtd vs) s = .next t ∧
      (q ≤ 1 ∨ ndig q < s.params.maxDigits →
        ∃ u, exec (.parse vd) t = .next u ∧ u.status.err = 0#8 ∧ u.readV vd = s.readV vs) ∧
      (2 ≤ q → s.params.maxDigits ≤ ndig q → exec (.parse vd) t = .next (failed (warned t false) 2#8))

/-- FMTH, then `0x` inserted by the host after the sign character, then PARSE gives back the value, with no capacity
exception (46_text_codec.md R159). -/
def Obligations.HexadecimalTextRoundTrip : Prop :=
  ∀ (s : State) (vs vd : VReg), s.Inv →
    ∃ t, exec (.fmth vs) s = .next t ∧
      ∀ r : State, r.params = t.params → r.text = insertPrefix t.text → r.tlen ≤ r.params.textMax →
        ∃ u, exec (.parse vd) r = .next u ∧ u.status.err = 0#8 ∧ u.readV vd = s.readV vs

/-! ### The end of a run -/

/-- The end of a run (70_reset_and_hazards.md R218): a step takes one action off the host's list whatever its outcome, so
a failure does not end a run; the run has ended when the response to its last word has been written, and ended well when
STATUS.ABORT is then 0; host accesses after it change neither. That a reset ahead in the list begins another run is the
model's reading (assumption log 13). -/
def Obligations.RunEndsAtItsLastWord : Prop :=
  (∀ s t : State, step s = .next t → t.host = s.host.tail) ∧
  (∀ (s t : State) (w : CommandWord) (rest : List HostAction), s.host = .command w :: rest → step s = .next t →
    ¬ s.RunEnded ∧ (t.RunEnded ↔ wordsLeft rest = []) ∧
    (t.EndedWell ↔ wordsLeft rest = [] ∧ t.status.abort = false)) ∧
  (∀ s t : State, s.RunEnded → s.host.head? ≠ some .reset → step s = .next t →
    t.RunEnded ∧ t.v = s.v ∧ t.status = s.status ∧ (t.EndedWell ↔ s.EndedWell))
end

