-- ==== Sys2Proof/Laws/State.lean ====
section
/-! SUPPORT. One lemma per field of State per named update, true by rfl, so that no proof unfolds a record update. -/

namespace Sys2Proof.Machine

variable (s : State)

/-! ### writeV -/

@[simp] theorem State.writeV_params (i : VReg) (a : Value) : (s.writeV i a).params = s.params := rfl
@[simp] theorem State.writeV_v (i : VReg) (a : Value) : (s.writeV i a).v = s.v.set i a := rfl
@[simp] theorem State.writeV_x (i : VReg) (a : Value) : (s.writeV i a).x = s.x := rfl
@[simp] theorem State.writeV_raw (i : VReg) (a : Value) : (s.writeV i a).raw = s.raw := rfl
@[simp] theorem State.writeV_tbuf (i : VReg) (a : Value) : (s.writeV i a).tbuf = s.tbuf := rfl
@[simp] theorem State.writeV_tlen (i : VReg) (a : Value) : (s.writeV i a).tlen = s.tlen := rfl
@[simp] theorem State.writeV_status (i : VReg) (a : Value) : (s.writeV i a).status = s.status := rfl
@[simp] theorem State.writeV_cfg (i : VReg) (a : Value) : (s.writeV i a).cfg = s.cfg := rfl
@[simp] theorem State.writeV_host (i : VReg) (a : Value) : (s.writeV i a).host = s.host := rfl

/-! ### writeX -/

@[simp] theorem State.writeX_params (i : XReg) (n : Int) : (s.writeX i n).params = s.params := rfl
@[simp] theorem State.writeX_v (i : XReg) (n : Int) : (s.writeX i n).v = s.v := rfl
@[simp] theorem State.writeX_x (i : XReg) (n : Int) : (s.writeX i n).x = s.x.set i (BitVec.ofInt s.params.width n).toNat := rfl
@[simp] theorem State.writeX_raw (i : XReg) (n : Int) : (s.writeX i n).raw = s.raw := rfl
@[simp] theorem State.writeX_tbuf (i : XReg) (n : Int) : (s.writeX i n).tbuf = s.tbuf := rfl
@[simp] theorem State.writeX_tlen (i : XReg) (n : Int) : (s.writeX i n).tlen = s.tlen := rfl
@[simp] theorem State.writeX_status (i : XReg) (n : Int) : (s.writeX i n).status = s.status := rfl
@[simp] theorem State.writeX_cfg (i : XReg) (n : Int) : (s.writeX i n).cfg = s.cfg := rfl
@[simp] theorem State.writeX_host (i : XReg) (n : Int) : (s.writeX i n).host = s.host := rfl

/-! ### writeText -/

@[simp] theorem State.writeText_params (out : List Byte) : (s.writeText out).params = s.params := rfl
@[simp] theorem State.writeText_v (out : List Byte) : (s.writeText out).v = s.v := rfl
@[simp] theorem State.writeText_x (out : List Byte) : (s.writeText out).x = s.x := rfl
@[simp] theorem State.writeText_raw (out : List Byte) : (s.writeText out).raw = s.raw := rfl
@[simp] theorem State.writeText_tbuf (out : List Byte) : (s.writeText out).tbuf = Memory.writeAll s.tbuf 0 out := rfl
@[simp] theorem State.writeText_tlen (out : List Byte) : (s.writeText out).tlen = out.length := rfl
@[simp] theorem State.writeText_status (out : List Byte) : (s.writeText out).status = s.status := rfl
@[simp] theorem State.writeText_cfg (out : List Byte) : (s.writeText out).cfg = s.cfg := rfl
@[simp] theorem State.writeText_host (out : List Byte) : (s.writeText out).host = s.host := rfl

/-! ### succeed -/

@[simp] theorem State.succeed_params : (s.succeed).params = s.params := rfl
@[simp] theorem State.succeed_v : (s.succeed).v = s.v := rfl
@[simp] theorem State.succeed_x : (s.succeed).x = s.x := rfl
@[simp] theorem State.succeed_raw : (s.succeed).raw = s.raw := rfl
@[simp] theorem State.succeed_tbuf : (s.succeed).tbuf = s.tbuf := rfl
@[simp] theorem State.succeed_tlen : (s.succeed).tlen = s.tlen := rfl
@[simp] theorem State.succeed_status : (s.succeed).status = { s.status with err := successCode } := rfl
@[simp] theorem State.succeed_cfg : (s.succeed).cfg = s.cfg := rfl
@[simp] theorem State.succeed_host : (s.succeed).host = s.host := rfl

/-! ### failWith -/

@[simp] theorem State.failWith_params (k : ErrorKind) : (s.failWith k).params = s.params := rfl
@[simp] theorem State.failWith_v (k : ErrorKind) : (s.failWith k).v = s.v := rfl
@[simp] theorem State.failWith_x (k : ErrorKind) : (s.failWith k).x = s.x := rfl
@[simp] theorem State.failWith_raw (k : ErrorKind) : (s.failWith k).raw = s.raw := rfl
@[simp] theorem State.failWith_tbuf (k : ErrorKind) : (s.failWith k).tbuf = s.tbuf := rfl
@[simp] theorem State.failWith_tlen (k : ErrorKind) : (s.failWith k).tlen = s.tlen := rfl
@[simp] theorem State.failWith_status (k : ErrorKind) : (s.failWith k).status = { s.status with err := errorCode k } := rfl
@[simp] theorem State.failWith_cfg (k : ErrorKind) : (s.failWith k).cfg = s.cfg := rfl
@[simp] theorem State.failWith_host (k : ErrorKind) : (s.failWith k).host = s.host := rfl

/-! ### abortBlock -/

@[simp] theorem State.abortBlock_params : (s.abortBlock).params = s.params := rfl
@[simp] theorem State.abortBlock_v : (s.abortBlock).v = s.v := rfl
@[simp] theorem State.abortBlock_x : (s.abortBlock).x = s.x := rfl
@[simp] theorem State.abortBlock_raw : (s.abortBlock).raw = s.raw := rfl
@[simp] theorem State.abortBlock_tbuf : (s.abortBlock).tbuf = s.tbuf := rfl
@[simp] theorem State.abortBlock_tlen : (s.abortBlock).tlen = s.tlen := rfl
@[simp] theorem State.abortBlock_status : (s.abortBlock).status = { s.status with err := abortedCode, abort := true } := rfl
@[simp] theorem State.abortBlock_cfg : (s.abortBlock).cfg = s.cfg := rfl
@[simp] theorem State.abortBlock_host : (s.abortBlock).host = s.host := rfl

/-! ### discardWord -/

@[simp] theorem State.discardWord_params : (s.discardWord).params = s.params := rfl
@[simp] theorem State.discardWord_v : (s.discardWord).v = s.v := rfl
@[simp] theorem State.discardWord_x : (s.discardWord).x = s.x := rfl
@[simp] theorem State.discardWord_raw : (s.discardWord).raw = s.raw := rfl
@[simp] theorem State.discardWord_tbuf : (s.discardWord).tbuf = s.tbuf := rfl
@[simp] theorem State.discardWord_tlen : (s.discardWord).tlen = s.tlen := rfl
@[simp] theorem State.discardWord_status : (s.discardWord).status = { s.status with err := abortedCode } := rfl
@[simp] theorem State.discardWord_cfg : (s.discardWord).cfg = s.cfg := rfl
@[simp] theorem State.discardWord_host : (s.discardWord).host = s.host := rfl

/-! ### setWarn -/

@[simp] theorem State.setWarn_params (b : Bool) : (s.setWarn b).params = s.params := rfl
@[simp] theorem State.setWarn_v (b : Bool) : (s.setWarn b).v = s.v := rfl
@[simp] theorem State.setWarn_x (b : Bool) : (s.setWarn b).x = s.x := rfl
@[simp] theorem State.setWarn_raw (b : Bool) : (s.setWarn b).raw = s.raw := rfl
@[simp] theorem State.setWarn_tbuf (b : Bool) : (s.setWarn b).tbuf = s.tbuf := rfl
@[simp] theorem State.setWarn_tlen (b : Bool) : (s.setWarn b).tlen = s.tlen := rfl
@[simp] theorem State.setWarn_status (b : Bool) : (s.setWarn b).status = { s.status with warn := b } := rfl
@[simp] theorem State.setWarn_cfg (b : Bool) : (s.setWarn b).cfg = s.cfg := rfl
@[simp] theorem State.setWarn_host (b : Bool) : (s.setWarn b).host = s.host := rfl

/-! ### withHost -/

@[simp] theorem State.withHost_params (as : List HostAction) : (s.withHost as).params = s.params := rfl
@[simp] theorem State.withHost_v (as : List HostAction) : (s.withHost as).v = s.v := rfl
@[simp] theorem State.withHost_x (as : List HostAction) : (s.withHost as).x = s.x := rfl
@[simp] theorem State.withHost_raw (as : List HostAction) : (s.withHost as).raw = s.raw := rfl
@[simp] theorem State.withHost_tbuf (as : List HostAction) : (s.withHost as).tbuf = s.tbuf := rfl
@[simp] theorem State.withHost_tlen (as : List HostAction) : (s.withHost as).tlen = s.tlen := rfl
@[simp] theorem State.withHost_status (as : List HostAction) : (s.withHost as).status = s.status := rfl
@[simp] theorem State.withHost_cfg (as : List HostAction) : (s.withHost as).cfg = s.cfg := rfl
@[simp] theorem State.withHost_host (as : List HostAction) : (s.withHost as).host = as := rfl

/-! ### reset -/

@[simp] theorem State.resetWith_params (p : Params) (h : List HostAction) :
    (State.resetWith p h).params = p := rfl
@[simp] theorem State.resetWith_v (p : Params) (h : List HostAction) :
    (State.resetWith p h).v = RegFile.fill Value.zero := rfl
@[simp] theorem State.resetWith_x (p : Params) (h : List HostAction) :
    (State.resetWith p h).x = RegFile.fill 0 := rfl
@[simp] theorem State.resetWith_raw (p : Params) (h : List HostAction) :
    (State.resetWith p h).raw = { sign := false, len := 0, cells := List.replicate (Config.rawMax p) 0#4 } := rfl
@[simp] theorem State.resetWith_tbuf (p : Params) (h : List HostAction) :
    (State.resetWith p h).tbuf = [] := rfl
@[simp] theorem State.resetWith_tlen (p : Params) (h : List HostAction) :
    (State.resetWith p h).tlen = 0 := rfl
@[simp] theorem State.resetWith_status (p : Params) (h : List HostAction) :
    (State.resetWith p h).status = { err := 0#8, abort := false, warn := false } := rfl
@[simp] theorem State.resetWith_cfg (p : Params) (h : List HostAction) :
    (State.resetWith p h).cfg = { pcompat := false } := rfl
@[simp] theorem State.resetWith_host (p : Params) (h : List HostAction) :
    (State.resetWith p h).host = h := rfl

theorem State.reset_eq : State.reset = State.resetWith Config.defaults [] := rfl

end Sys2Proof.Machine
end

