-- ==== Sys2Proof/Laws/Ops.lean ====
section
/-! SUPPORT. What each shared operation of Machine/Ops.lean can do, said once: register files, scalar words, the text
buffer and its canonical form, and the ways a command ends. -/

namespace Sys2Proof.Machine

/-! ### Register files -/

theorem RegFile.get_set_same {α : Type} (f : RegFile α) (i : Fin 8) (a : α) : (f.set i a).get i = a := by
  fin_cases i <;> rfl

theorem RegFile.get_set_other {α : Type} (f : RegFile α) {i j : Fin 8} (a : α) (h : j ≠ i) :
    (f.set i a).get j = f.get j := by
  fin_cases i <;> fin_cases j <;> first | rfl | exact absurd rfl h

/-- Everything a register write does to a read. -/
theorem RegFile.get_set {α : Type} (f : RegFile α) (i j : Fin 8) (a : α) :
    (f.set i a).get j = if j = i then a else f.get j := by
  split
  · subst_vars; exact RegFile.get_set_same ..
  · exact RegFile.get_set_other _ _ ‹_›

@[simp] theorem RegFile.get_fill {α : Type} (a : α) (i : Fin 8) : (RegFile.fill a).get i = a := by
  fin_cases i <;> rfl

/-- Two files that agree at every index are equal. -/
theorem RegFile.ext_get {α : Type} {f g : RegFile α} (h : ∀ i, f.get i = g.get i) : f = g := by
  cases f; cases g
  have h0 := h 0; have h1 := h 1; have h2 := h 2; have h3 := h 3
  have h4 := h 4; have h5 := h 5; have h6 := h 6; have h7 := h 7
  simp only [RegFile.get] at h0 h1 h2 h3 h4 h5 h6 h7
  subst_vars; rfl

theorem State.readV_writeV (s : State) (i j : VReg) (a : Value) :
    (s.writeV i a).readV j = if j = i then a else s.readV j := RegFile.get_set ..

/-! ### Scalar words -/

/-- A scalar read is the stored number modulo `2^W`. -/
theorem State.uX_eq (s : State) (i : XReg) : s.uX i = s.x.get i % 2 ^ s.params.width := by
  simp [State.uX]

/-- The signed reading of a scalar word (20_memory.md R43). -/
theorem State.sX_eq (s : State) (i : XReg) : s.sX i = (s.uX i : Int).bmod (2 ^ s.params.width) := by
  simp [State.sX, State.uX, BitVec.toInt_eq_toNat_bmod]

/-- The stored number after a scalar write is a `W`-bit word. -/
theorem State.writeX_lt (s : State) (n : Int) : (BitVec.ofInt s.params.width n).toNat < 2 ^ s.params.width :=
  BitVec.isLt _

/-- The word a natural number leaves in a scalar register. -/
theorem ofInt_natCast_toNat (w n : Nat) : (BitVec.ofInt w (n : Int)).toNat = n % 2 ^ w := by
  simp

/-! ### The text buffer -/

theorem Memory.wf_cons {k : Nat} {b : Byte} {m : List Host.Cell} :
    Memory.wf ((k, b) :: m) = true ↔ b ≠ Memory.unlisted ∧ (∀ c ∈ m, k < c.1) ∧ Memory.wf m = true := by
  simp [Memory.wf, and_assoc]

theorem Memory.wf_nil : Memory.wf [] = true := rfl

/-- An index below every listed one reads as the unlisted byte. -/
theorem Memory.read_below {m : List Host.Cell} {a : Nat} (h : ∀ c ∈ m, a < c.1) :
    Memory.read m a = Memory.unlisted := by
  induction m with
  | nil => rfl
  | cons c m ih =>
    obtain ⟨k, b⟩ := c
    have hk : a < k := h (k, b) (by simp)
    rw [Memory.read, if_neg (by omega)]
    exact ih fun c hc => h c (by simp [hc])

theorem Memory.read_consCell (a : Nat) (b : Byte) (m : List Host.Cell) (j : Nat) (h : ∀ c ∈ m, a < c.1) :
    Memory.read (Memory.cons a b m) j = if j = a then b else Memory.read m j := by
  unfold Memory.cons
  split
  · next hb =>
    split
    · next hj => subst hj; rw [Memory.read_below h, hb]
    · rfl
  · by_cases hj : j = a
    · simp [Memory.read, hj]
    · rw [Memory.read, if_neg (fun h => hj h.symm), if_neg hj]

/-- Every index a write lists is the written one or was listed before. -/
theorem Memory.mem_write {m : List Host.Cell} {a : Nat} {b : Byte} {c : Host.Cell}
    (h : c ∈ Memory.write m a b) : c = (a, b) ∨ c ∈ m := by
  induction m with
  | nil => unfold Memory.write Memory.cons at h; split at h <;> simp_all
  | cons d m ih =>
    obtain ⟨k, e⟩ := d
    unfold Memory.write Memory.cons at h
    split at h
    · split at h <;> simp_all
    · split at h
      · split at h
        · exact .inr (by simp [h])
        · rcases List.mem_cons.mp h with h | h
          · exact .inl h
          · exact .inr (by simp [h])
      · rcases List.mem_cons.mp h with h | h
        · exact .inr (by simp [h])
        · rcases ih h with h | h
          · exact .inl h
          · exact .inr (by simp [h])

/-- A write keeps the canonical form. -/
theorem Memory.write_wf {m : List Host.Cell} (a : Nat) (b : Byte) (h : Memory.wf m = true) :
    Memory.wf (Memory.write m a b) = true := by
  induction m with
  | nil =>
    unfold Memory.write Memory.cons
    split
    · rfl
    · next hb => exact Memory.wf_cons.mpr ⟨hb, by simp, rfl⟩
  | cons d m ih =>
    obtain ⟨k, e⟩ := d
    obtain ⟨he, hk, hm⟩ := Memory.wf_cons.mp h
    unfold Memory.write Memory.cons
    split
    · next hlt =>
      split
      · exact h
      · next hb =>
        refine Memory.wf_cons.mpr ⟨hb, fun c hc => ?_, h⟩
        rcases List.mem_cons.mp hc with rfl | hc
        · exact hlt
        · exact Nat.lt_trans hlt (hk c hc)
    · next hge =>
      split
      · next heq =>
        split
        · exact hm
        · next hb => exact Memory.wf_cons.mpr ⟨hb, fun c hc => heq ▸ hk c hc, hm⟩
      · next hne =>
        refine Memory.wf_cons.mpr ⟨he, fun c hc => ?_, ih hm⟩
        rcases Memory.mem_write hc with rfl | hc
        · simp only; omega
        · exact hk c hc

/-- Everything a write does to a read: the written index gives the byte, every other index reads as before. -/
theorem Memory.read_write {m : List Host.Cell} (a : Nat) (b : Byte) (j : Nat) (h : Memory.wf m = true) :
    Memory.read (Memory.write m a b) j = if j = a then b else Memory.read m j := by
  induction m with
  | nil => exact Memory.read_consCell a b [] j (by simp)
  | cons d m ih =>
    obtain ⟨k, e⟩ := d
    obtain ⟨he, hk, hm⟩ := Memory.wf_cons.mp h
    unfold Memory.write
    split
    · next hlt =>
      refine Memory.read_consCell a b _ j fun c hc => ?_
      rcases List.mem_cons.mp hc with rfl | hc
      · exact hlt
      · exact Nat.lt_trans hlt (hk c hc)
    · split
      · next heq =>
        subst heq
        rw [Memory.read_consCell _ _ _ _ hk]
        split
        · rfl
        · next hj => rw [Memory.read, if_neg (fun h => hj h.symm)]
      · next hne =>
        rw [Memory.read, ih hm]
        by_cases hkj : k = j
        · subst hkj; simp [Memory.read, Ne.symm hne]
        · simp [Memory.read, hkj]

/-- Writing a whole text keeps the canonical form. -/
theorem Memory.writeAll_wf {m : List Host.Cell} (a : Nat) (bs : List Byte) (h : Memory.wf m = true) :
    Memory.wf (Memory.writeAll m a bs) = true := by
  induction bs generalizing m a with
  | nil => exact h
  | cons b bs ih => exact ih (a + 1) (Memory.write_wf a b h)

/-- Every index a text write lists is one of the text's or was listed before. -/
theorem Memory.mem_writeAll {m : List Host.Cell} {a : Nat} {bs : List Byte} {c : Host.Cell}
    (h : c ∈ Memory.writeAll m a bs) : (a ≤ c.1 ∧ c.1 < a + bs.length) ∨ c ∈ m := by
  induction bs generalizing m a with
  | nil => exact .inr h
  | cons b bs ih =>
    rcases ih h with h | h
    · left; simp only [List.length_cons]; omega
    · rcases Memory.mem_write h with rfl | h
      · left; simp
      · exact .inr h

/-- Everything a text write does to a read. -/
theorem Memory.read_writeAll {m : List Host.Cell} (a : Nat) (bs : List Byte) (j : Nat) (h : Memory.wf m = true) :
    Memory.read (Memory.writeAll m a bs) j =
      if a ≤ j ∧ j < a + bs.length then bs.getD (j - a) 0#8 else Memory.read m j := by
  induction bs generalizing m a with
  | nil => rw [Memory.writeAll, if_neg (by simp)]
  | cons b bs ih =>
    rw [Memory.writeAll, ih (a + 1) (Memory.write_wf a b h), Memory.read_write a b j h]
    by_cases h1 : j = a
    · subst h1; simp
    · by_cases h2 : a + 1 ≤ j ∧ j < a + 1 + bs.length
      · have h3 : a ≤ j ∧ j < a + (b :: bs).length := by simp only [List.length_cons]; omega
        obtain ⟨n, rfl⟩ : ∃ n, j = a + 1 + n := ⟨j - (a + 1), by omega⟩
        have e1 : a + 1 + n - (a + 1) = n := by omega
        have e2 : a + 1 + n - a = n + 1 := by omega
        rw [if_pos h2, if_pos h3, e1, e2]
        simp
      · have h3 : ¬(a ≤ j ∧ j < a + (b :: bs).length) := by simp only [List.length_cons]; omega
        rw [if_neg h2, if_neg h1, if_neg h3]

@[simp] theorem Memory.readAll_length (m : List Host.Cell) (a n : Nat) : (Memory.readAll m a n).length = n := by
  induction n generalizing a with
  | zero => rfl
  | succ n ih => simp [Memory.readAll, ih]

/-- Byte `k` of a read of `n` bytes. -/
theorem Memory.readAll_getElem (m : List Host.Cell) (a n k : Nat) (h : k < (Memory.readAll m a n).length) :
    (Memory.readAll m a n)[k] = Memory.read m (a + k) := by
  induction n generalizing a k with
  | zero => simp [Memory.readAll] at h
  | succ n ih =>
    cases k with
    | zero => rfl
    | succ k =>
      have := ih (a + 1) k (by simpa [Memory.readAll] using h)
      simp only [Memory.readAll, List.getElem_cons_succ, this]
      congr 1
      omega

theorem State.reset_memory_wf : Memory.wf State.reset.tbuf = true := rfl

/-! ### How a command ends -/

@[simp] theorem Res.bind_ok {α β : Type} (a : α) (f : α → Res β) : (Res.ok a).bind f = f a := rfl
@[simp] theorem Res.bind_fail {α β : Type} (k : ErrorKind) (f : α → Res β) : (Res.fail k).bind f = .fail k := rfl
@[simp] theorem Res.bind_abort {α β : Type} (f : α → Res β) : (Res.abort : Res α).bind f = .abort := rfl
@[simp] theorem Res.bind_stuck {α β : Type} (e : Fault) (f : α → Res β) : (Res.stuck e : Res α).bind f = .stuck e := rfl

/-- A bind that ends well has both parts end well. -/
theorem Res.bind_eq_ok {α β : Type} {r : Res α} {f : α → Res β} {b : β} :
    r.bind f = .ok b ↔ ∃ a, r = .ok a ∧ f a = .ok b := by
  cases r <;> simp [Res.bind]

@[simp] theorem finish_ok {α : Type} (a : α) (w : α → State → State) (s : State) :
    finish (.ok a) w s = .next (w a s).succeed := rfl
@[simp] theorem finish_fail {α : Type} (k : ErrorKind) (w : α → State → State) (s : State) :
    finish (.fail k) w s = .next (s.failWith k) := rfl
@[simp] theorem finish_abort {α : Type} (w : α → State → State) (s : State) :
    finish .abort w s = .next s.abortBlock := rfl
@[simp] theorem finish_stuck {α : Type} (e : Fault) (w : α → State → State) (s : State) :
    finish (.stuck e) w s = .fault e := rfl

/-- Everything a command that ends through `finish` can leave. -/
theorem finish_next {α : Type} {r : Res α} {w : α → State → State} {s t : State} (h : finish r w s = .next t) :
    (∃ a, r = .ok a ∧ t = (w a s).succeed) ∨ (∃ k, r = .fail k ∧ t = s.failWith k) ∨
      (r = .abort ∧ t = s.abortBlock) := by
  cases r <;> simp [finish] at h <;> simp [h]

/-- `finish` refuses nothing. -/
theorem finish_not_refused {α : Type} (r : Res α) (w : α → State → State) (s : State) (e : Refusal) :
    finish r w s ≠ .refused e := by
  cases r <;> simp [finish]

end Sys2Proof.Machine
end

