-- ==== Sys2Proof/Laws/Canon.lean ====
section
/-! SUPPORT. What stripping high zeros, the canonicalising constructor and the shifter's shortcut do, said once. -/

namespace Sys2Proof.Machine

/-- The shapes stripping can leave: nothing, one digit, or several digits whose highest is not zero. -/
def Stripped (r : List Digit) : Prop := r.length ≤ 1 ∨ r.getD (r.length - 1) 0#4 ≠ 0#4

theorem digit_toNat_eq_zero {d : Digit} : (d.toNat == 0) = true ↔ d = 0#4 := by
  simp [BitVec.toNat_eq]

theorem stripHigh_eq_nil {ds : List Digit} : stripHigh ds = [] ↔ ds = [] := by
  cases ds with
  | nil => simp [stripHigh]
  | cons d ds =>
    simp only [stripHigh, reduceCtorEq, iff_false]
    split
    · simp
    · split <;> simp

/-- Stripping keeps the magnitude. -/
theorem magOf_stripHigh (ds : List Digit) : magOf (stripHigh ds) = magOf ds := by
  induction ds with
  | nil => rfl
  | cons d ds ih =>
    simp only [stripHigh, magOf]
    split
    · next h => rw [stripHigh_eq_nil.mp h]; simp [magOf]
    · next e es h =>
      rw [h] at ih
      split
      · next hz =>
        simp only [Bool.and_eq_true, List.isEmpty_iff, beq_iff_eq] at hz
        rw [← ih]; simp [magOf, hz.1, hz.2]
      · rw [← ih]; simp [magOf]

/-- Stripping leaves no redundant high zero. -/
theorem stripHigh_stripped (ds : List Digit) : Stripped (stripHigh ds) := by
  induction ds with
  | nil => exact .inl (by simp [stripHigh])
  | cons d ds ih =>
    simp only [stripHigh]
    split
    · exact .inl (by simp)
    · next e es h =>
      rw [h] at ih
      split
      · exact .inl (by simp)
      · next hz =>
        right
        rcases ih with hl | hl
        · have hes : es = [] := by cases es with
            | nil => rfl
            | cons _ _ => simp at hl
          subst hes
          simp only [List.isEmpty_nil, Bool.true_and] at hz
          simpa using fun he => hz (digit_toNat_eq_zero.mpr he)
        · simpa using hl

/-- Stripping never lengthens. -/
theorem stripHigh_length_le (ds : List Digit) : (stripHigh ds).length ≤ ds.length := by
  induction ds with
  | nil => simp [stripHigh]
  | cons d ds ih =>
    simp only [stripHigh]
    split
    · simp
    · next e es h =>
      rw [h] at ih
      split <;> simp_all

/-- A digit sequence already stripped is kept. -/
theorem stripHigh_of_stripped {ds : List Digit} (h : ds.length ≤ 1 ∨ ds.getD (ds.length - 1) 0#4 ≠ 0#4) :
    stripHigh ds = ds := by
  induction ds with
  | nil => rfl
  | cons d ds ih =>
    cases ds with
    | nil => simp [stripHigh]
    | cons e es =>
      have hl : (e :: es).getD ((e :: es).length - 1) 0#4 ≠ 0#4 := by
        rcases h with h | h
        · simp at h
        · simpa using h
      have hs := ih (.inr hl)
      rw [stripHigh, hs]
      simp only
      rw [if_neg]
      intro hz
      simp only [Bool.and_eq_true, List.isEmpty_iff] at hz
      obtain ⟨rfl, hz⟩ := hz
      exact hl (by simpa using digit_toNat_eq_zero.mp hz)

/-- The highest digit counts: several digits with a non-zero highest one have a positive magnitude. -/
theorem magOf_pos {ds : List Digit} (h : ds.getD (ds.length - 1) 0#4 ≠ 0#4) : 0 < magOf ds := by
  induction ds with
  | nil => simp at h
  | cons d ds ih =>
    cases ds with
    | nil =>
      have hd : d ≠ 0#4 := by simpa using h
      have : d.toNat ≠ 0 := fun hn => hd (BitVec.eq_of_toNat_eq (by simpa using hn))
      simp only [magOf]; omega
    | cons e es =>
      have := ih (by simpa using h)
      simp only [magOf, Config.radix] at this ⊢
      omega

/-- Everything `canon` can answer: ZERO for a zero magnitude, a failure, or the stripped digits with the sign given. -/
theorem Value.canon_cases (md : Nat) (sg : Bool) (ds : List Digit) :
    (Value.canon md sg ds = .ok .zero ∧ magOf ds = 0) ∨
      (Value.canon md sg ds = .fail .capacityExceeded ∧ md < (stripHigh ds).length ∧ 0 < magOf ds) ∨
      (Value.canon md sg ds = .ok ⟨sg, stripHigh ds⟩ ∧ (stripHigh ds).length ≤ md ∧
        (stripHigh ds).getD ((stripHigh ds).length - 1) 0#4 ≠ 0#4 ∧ 0 < magOf ds) := by
  have hm := magOf_stripHigh ds
  have hs := stripHigh_stripped ds
  unfold Value.canon
  split
  · next h => left; rw [h] at hm; exact ⟨rfl, hm.symm⟩
  · next d r h =>
    rw [h] at hm hs ⊢
    split
    · next hz =>
      simp only [Bool.and_eq_true, List.isEmpty_iff, beq_iff_eq] at hz
      left; refine ⟨rfl, ?_⟩
      rw [← hm, hz.1]; simp [magOf, hz.2]
    · next hz =>
      have htop : (d :: r).getD ((d :: r).length - 1) 0#4 ≠ 0#4 := by
        rcases hs with hl | hl
        · have hr : r = [] := by cases r with
            | nil => rfl
            | cons _ _ => simp at hl
          subst hr
          intro hd
          exact hz (by simpa using digit_toNat_eq_zero.mpr (by simpa using hd))
        · exact hl
      have hpos : 0 < magOf ds := hm ▸ magOf_pos htop
      split
      · next hlt => right; left; exact ⟨rfl, by simpa using hlt, hpos⟩
      · next hge => right; right; exact ⟨rfl, by simpa using Nat.not_lt.mp hge, htop, hpos⟩

theorem Value.zero_canonical {md : Nat} (h : 1 ≤ md) : Value.zero.Canonical md :=
  ⟨by decide, by simpa [Value.zero, Value.len] using h, .inr rfl, by simp [Value.zero]⟩

/-- What `canon` gives is canonical and has the magnitude of its digits. -/
theorem Value.canon_ok {md : Nat} {sg : Bool} {ds : List Digit} {a : Value} (hmd : 1 ≤ md)
    (h : Value.canon md sg ds = .ok a) : a.Canonical md ∧ a.mag = magOf ds := by
  rcases Value.canon_cases md sg ds with ⟨hc, hm⟩ | ⟨hc, -, -⟩ | ⟨hc, hl, ht, hp⟩
  · rw [hc] at h; cases h
    exact ⟨Value.zero_canonical hmd, by rw [hm]; rfl⟩
  · rw [hc] at h; cases h
  · rw [hc] at h; cases h
    have hne : stripHigh ds ≠ [] := fun hn => by
      rw [stripHigh_eq_nil] at hn; subst hn; simp [magOf] at hp
    refine ⟨⟨?_, hl, .inl ht, fun _ => ?_⟩, magOf_stripHigh ds⟩
    · exact List.length_pos_iff.mpr hne
    · simpa [Value.mag, magOf_stripHigh] using hp

/-- `canon` aborts and sticks at nothing. -/
theorem Value.canon_outcome (md : Nat) (sg : Bool) (ds : List Digit) :
    (∃ a, Value.canon md sg ds = .ok a) ∨ Value.canon md sg ds = .fail .capacityExceeded := by
  rcases Value.canon_cases md sg ds with ⟨hc, -⟩ | ⟨hc, -⟩ | ⟨hc, -⟩
  · exact .inl ⟨_, hc⟩
  · exact .inr hc
  · exact .inl ⟨_, hc⟩

theorem stripHigh_replicate_append {k : Nat} {d : Digit} {r : List Digit}
    (h : (d :: r).getD ((d :: r).length - 1) 0#4 ≠ 0#4) :
    stripHigh (List.replicate k 0#4 ++ d :: r) = List.replicate k 0#4 ++ d :: r := by
  refine stripHigh_of_stripped (.inr ?_)
  have e : (List.replicate k 0#4 ++ d :: r).length - 1 = k + r.length := by simp
  rw [e, List.getD_append_right _ _ _ _ (by simp)]
  simpa using h

/-- The stripped form of zeros below a digit sequence depends only on its stripped form. -/
theorem stripHigh_append_stripHigh (zs ds : List Digit) :
    stripHigh (zs ++ ds) = stripHigh (zs ++ stripHigh ds) := by
  induction zs with
  | nil => exact (stripHigh_of_stripped (stripHigh_stripped ds)).symm
  | cons z zs ih => simp only [List.cons_append, stripHigh, ih]

/-- The shifter gives exactly what the letter of 43_shifter.md R115 gives: `canon` of `k` zeros below the digits. -/
theorem Value.shl_eq_canon (md : Nat) (a : Value) (k : Nat) (h : a.digits ≠ []) :
    Value.shl md a k = Value.canon md a.sign (List.replicate k 0#4 ++ a.digits) := by
  have hstr := stripHigh_append_stripHigh (List.replicate k 0#4) a.digits
  have hs := stripHigh_stripped a.digits
  unfold Value.shl Value.canon
  rw [hstr]
  generalize hr : stripHigh a.digits = q at hs
  cases q with
  | nil => exact absurd (stripHigh_eq_nil.mp hr) h
  | cons d r =>
    simp only
    by_cases hz : (r.isEmpty && d.toNat == 0) = true
    · rw [if_pos hz]
      simp only [Bool.and_eq_true, List.isEmpty_iff] at hz
      obtain ⟨rfl, hd⟩ := hz
      rw [digit_toNat_eq_zero] at hd
      subst hd
      have hz : ∀ n, stripHigh (List.replicate n 0#4 ++ [0#4]) = [0#4] := by
        intro n
        induction n with
        | zero => rfl
        | succ n ih => simp only [List.replicate_succ, List.cons_append, stripHigh, ih]; rfl
      rw [hz k]; rfl
    · rw [if_neg hz]
      have htop : (d :: r).getD ((d :: r).length - 1) 0#4 ≠ 0#4 := by
        rcases hs with hl | hl
        · have hr : r = [] := by cases r with
            | nil => rfl
            | cons _ _ => simp at hl
          subst hr
          intro hd
          exact hz (by simpa using digit_toNat_eq_zero.mpr (by simpa using hd))
        · exact hl
      rw [stripHigh_replicate_append htop]
      cases k with
      | zero => simp [hz]
      | succ k =>
        simp only [List.replicate_succ, List.cons_append]
        have he : (List.replicate k 0#4 ++ d :: r).isEmpty = false := by simp
        simp only [he, Bool.false_and, Bool.false_eq_true, if_false, List.length_append, List.length_replicate,
          List.length_cons]
        congr 1
        simp only [eq_iff_iff]
        omega

end Sys2Proof.Machine
end

