-- ==== Sys2Proof/Laws/PerInstr.lean ====
section
/-! SUPPORT. One lemma per command: its encoding has the match bits of its opcode-table row where the row's mask is one
(30_encoding.md R59), so the operand fields touch no fixed bit. -/

namespace Sys2Proof.Laws.EncodingFits

/-- The encoding of `i` matches its row: `(w & mask) == match`. -/
abbrev Statement (i : Instr) : Prop := encode i &&& maskOf (fieldsOf i).format = matchOf (fieldsOf i).opcode

/-- Every mask holds the whole opcode. -/
theorem match_within (f : Format) (op : BitVec 8) : matchOf op &&& maskOf f = matchOf op := by
  have h : ∀ m : CommandWord, m.extractLsb' 24 8 = 0xFF#8 → matchOf op &&& m = matchOf op := by
    intro m hm
    ext i hi
    simp only [matchOf, BitVec.getElem_and, BitVec.getElem_shiftLeft]
    by_cases h24 : i < 24
    · simp [h24]
    · have hb : (m.extractLsb' 24 8)[i - 24]'(by omega) = true := by
        simp only [hm]
        have : ∀ k : Fin 8, (0xFF#8).getLsbD k.val = true := by decide
        rw [← BitVec.getLsbD_eq_getElem]
        exact this ⟨i - 24, by omega⟩
      rw [BitVec.getElem_extractLsb', Nat.add_sub_cancel' (by omega), BitVec.getLsbD_eq_getElem hi] at hb
      simp [hb]
  exact h _ (by cases f <;> decide)

/-- Where a format uses `rd`, the mask leaves its bits free. -/
theorem rd_free (f : Format) (h : f ≠ .s) (r : Fin 8) : placeField r 21 &&& maskOf f = 0#32 := by
  revert r; cases f <;> first | exact absurd rfl h | decide
@[inherit_doc rd_free] theorem rd2_free (r : Fin 8) : placeField r 18 &&& maskOf .ddss = 0#32 := by revert r; decide
@[inherit_doc rd_free] theorem rs1_free (f : Format) (h : f ≠ .d) (r : Fin 8) : placeField r 15 &&& maskOf f = 0#32 := by
  revert r; cases f <;> first | exact absurd rfl h | decide
@[inherit_doc rd_free] theorem rs2_free (f : Format) (h : f = .dss ∨ f = .ddss) (r : Fin 8) :
    placeField r 12 &&& maskOf f = 0#32 := by
  revert r; rcases h with rfl | rfl <;> decide
/-- A field that is not used places no bit. -/
theorem placeField_zero (lo : Nat) (m : CommandWord) : placeField 0 lo &&& m = 0#32 := by simp [placeField]

/-- A word whose fields place no bit in the mask matches its row. -/
theorem word_fits (f : Fields) (h1 : placeField f.rd 21 &&& maskOf f.format = 0#32)
    (h2 : placeField f.rd2 18 &&& maskOf f.format = 0#32) (h3 : placeField f.rs1 15 &&& maskOf f.format = 0#32)
    (h4 : placeField f.rs2 12 &&& maskOf f.format = 0#32) : wordOf f &&& maskOf f.format = matchOf f.opcode := by
  simp [wordOf, BitVec.and_comm _ (maskOf f.format), BitVec.and_or_distrib_left] at *
  simp [h1, h2, h3, h4, BitVec.and_comm (maskOf f.format), match_within]

theorem canon (rd : VReg) : Statement (.canon rd) :=
  word_fits _ (rd_free .d (by decide) _) (placeField_zero _ _) (placeField_zero _ _) (placeField_zero _ _)
theorem mov (rd : VReg) (rs1 : VReg) : Statement (.mov rd rs1) :=
  word_fits _ (rd_free .ds (by decide) _) (placeField_zero _ _) (rs1_free .ds (by decide) _) (placeField_zero _ _)
theorem len (rd : XReg) (rs1 : VReg) : Statement (.len rd rs1) :=
  word_fits _ (rd_free .ds (by decide) _) (placeField_zero _ _) (rs1_free .ds (by decide) _) (placeField_zero _ _)
theorem digit (rd : XReg) (rs1 : VReg) (rs2 : XReg) : Statement (.digit rd rs1 rs2) :=
  word_fits _ (rd_free .dss (by decide) _) (placeField_zero _ _) (rs1_free .dss (by decide) _) (rs2_free .dss (by decide) _)
theorem isneg (rd : XReg) (rs1 : VReg) : Statement (.isneg rd rs1) :=
  word_fits _ (rd_free .ds (by decide) _) (placeField_zero _ _) (rs1_free .ds (by decide) _) (placeField_zero _ _)
theorem mlt (rd : XReg) (rs1 : VReg) (rs2 : VReg) : Statement (.mlt rd rs1 rs2) :=
  word_fits _ (rd_free .dss (by decide) _) (placeField_zero _ _) (rs1_free .dss (by decide) _) (rs2_free .dss (by decide) _)
theorem cmplt (rd : XReg) (rs1 : VReg) (rs2 : VReg) : Statement (.cmplt rd rs1 rs2) :=
  word_fits _ (rd_free .dss (by decide) _) (placeField_zero _ _) (rs1_free .dss (by decide) _) (rs2_free .dss (by decide) _)
theorem cmple (rd : XReg) (rs1 : VReg) (rs2 : VReg) : Statement (.cmple rd rs1 rs2) :=
  word_fits _ (rd_free .dss (by decide) _) (placeField_zero _ _) (rs1_free .dss (by decide) _) (rs2_free .dss (by decide) _)
theorem cmpgt (rd : XReg) (rs1 : VReg) (rs2 : VReg) : Statement (.cmpgt rd rs1 rs2) :=
  word_fits _ (rd_free .dss (by decide) _) (placeField_zero _ _) (rs1_free .dss (by decide) _) (rs2_free .dss (by decide) _)
theorem cmpge (rd : XReg) (rs1 : VReg) (rs2 : VReg) : Statement (.cmpge rd rs1 rs2) :=
  word_fits _ (rd_free .dss (by decide) _) (placeField_zero _ _) (rs1_free .dss (by decide) _) (rs2_free .dss (by decide) _)
theorem cmpeq (rd : XReg) (rs1 : VReg) (rs2 : VReg) : Statement (.cmpeq rd rs1 rs2) :=
  word_fits _ (rd_free .dss (by decide) _) (placeField_zero _ _) (rs1_free .dss (by decide) _) (rs2_free .dss (by decide) _)
theorem cmpne (rd : XReg) (rs1 : VReg) (rs2 : VReg) : Statement (.cmpne rd rs1 rs2) :=
  word_fits _ (rd_free .dss (by decide) _) (placeField_zero _ _) (rs1_free .dss (by decide) _) (rs2_free .dss (by decide) _)
theorem madd (rd : VReg) (rs1 : VReg) (rs2 : VReg) : Statement (.madd rd rs1 rs2) :=
  word_fits _ (rd_free .dss (by decide) _) (placeField_zero _ _) (rs1_free .dss (by decide) _) (rs2_free .dss (by decide) _)
theorem msub (rd : VReg) (rs1 : VReg) (rs2 : VReg) : Statement (.msub rd rs1 rs2) :=
  word_fits _ (rd_free .dss (by decide) _) (placeField_zero _ _) (rs1_free .dss (by decide) _) (rs2_free .dss (by decide) _)
theorem add (rd : VReg) (rs1 : VReg) (rs2 : VReg) : Statement (.add rd rs1 rs2) :=
  word_fits _ (rd_free .dss (by decide) _) (placeField_zero _ _) (rs1_free .dss (by decide) _) (rs2_free .dss (by decide) _)
theorem sub (rd : VReg) (rs1 : VReg) (rs2 : VReg) : Statement (.sub rd rs1 rs2) :=
  word_fits _ (rd_free .dss (by decide) _) (placeField_zero _ _) (rs1_free .dss (by decide) _) (rs2_free .dss (by decide) _)
theorem neg (rd : VReg) (rs1 : VReg) : Statement (.neg rd rs1) :=
  word_fits _ (rd_free .ds (by decide) _) (placeField_zero _ _) (rs1_free .ds (by decide) _) (placeField_zero _ _)
theorem inc (rd : VReg) (rs1 : VReg) : Statement (.inc rd rs1) :=
  word_fits _ (rd_free .ds (by decide) _) (placeField_zero _ _) (rs1_free .ds (by decide) _) (placeField_zero _ _)
theorem dec (rd : VReg) (rs1 : VReg) : Statement (.dec rd rs1) :=
  word_fits _ (rd_free .ds (by decide) _) (placeField_zero _ _) (rs1_free .ds (by decide) _) (placeField_zero _ _)
theorem shl (rd : VReg) (rs1 : VReg) (rs2 : XReg) : Statement (.shl rd rs1 rs2) :=
  word_fits _ (rd_free .dss (by decide) _) (placeField_zero _ _) (rs1_free .dss (by decide) _) (rs2_free .dss (by decide) _)
theorem shr (rd : VReg) (rs1 : VReg) (rs2 : XReg) : Statement (.shr rd rs1 rs2) :=
  word_fits _ (rd_free .dss (by decide) _) (placeField_zero _ _) (rs1_free .dss (by decide) _) (rs2_free .dss (by decide) _)
theorem mul (rd : VReg) (rs1 : VReg) (rs2 : VReg) : Statement (.mul rd rs1 rs2) :=
  word_fits _ (rd_free .dss (by decide) _) (placeField_zero _ _) (rs1_free .dss (by decide) _) (rs2_free .dss (by decide) _)
theorem div (rd : VReg) (rs1 : VReg) (rs2 : VReg) : Statement (.div rd rs1 rs2) :=
  word_fits _ (rd_free .dss (by decide) _) (placeField_zero _ _) (rs1_free .dss (by decide) _) (rs2_free .dss (by decide) _)
theorem mod (rd : VReg) (rs1 : VReg) (rs2 : VReg) : Statement (.mod rd rs1 rs2) :=
  word_fits _ (rd_free .dss (by decide) _) (placeField_zero _ _) (rs1_free .dss (by decide) _) (rs2_free .dss (by decide) _)
theorem divrem (rd : VReg) (rd2 : VReg) (rs1 : VReg) (rs2 : VReg) : Statement (.divrem rd rd2 rs1 rs2) :=
  word_fits _ (rd_free .ddss (by decide) _) (rd2_free _) (rs1_free .ddss (by decide) _) (rs2_free .ddss (by decide) _)
theorem parse (rd : VReg) : Statement (.parse rd) :=
  word_fits _ (rd_free .d (by decide) _) (placeField_zero _ _) (placeField_zero _ _) (placeField_zero _ _)
theorem fmtd (rs1 : VReg) : Statement (.fmtd rs1) :=
  word_fits _ (placeField_zero _ _) (placeField_zero _ _) (rs1_free .s (by decide) _) (placeField_zero _ _)
theorem fmth (rs1 : VReg) : Statement (.fmth rs1) :=
  word_fits _ (placeField_zero _ _) (placeField_zero _ _) (rs1_free .s (by decide) _) (placeField_zero _ _)
theorem fmto (rs1 : VReg) : Statement (.fmto rs1) :=
  word_fits _ (placeField_zero _ _) (placeField_zero _ _) (rs1_free .s (by decide) _) (placeField_zero _ _)
theorem fromint (rd : VReg) (rs1 : XReg) : Statement (.fromint rd rs1) :=
  word_fits _ (rd_free .ds (by decide) _) (placeField_zero _ _) (rs1_free .ds (by decide) _) (placeField_zero _ _)
theorem toint (rd : XReg) (rs1 : VReg) : Statement (.toint rd rs1) :=
  word_fits _ (rd_free .ds (by decide) _) (placeField_zero _ _) (rs1_free .ds (by decide) _) (placeField_zero _ _)

end Sys2Proof.Laws.EncodingFits
end

