-- ==== Sys2Proof/Tests/Slice0.lean ====
section
/-! SUPPORT. Tests: expected results are from spec/ (95_test_vectors.md and the examples of the rules), and a witness for
the hypotheses of each statement in Certificates/Slice0/Obligations.lean. -/

namespace Sys2Proof.Tests

open Sys2Proof Sys2Proof.Machine

/-! ### Helpers -/

/-- The value with sign `sg` and magnitude `m`. -/
def num (sg : Bool) (m : Nat) : Value := { sign := sg, digits := digitsOf m }

/-- After reset with the default configuration, `V[0] = a`, `V[1] = b`. -/
def std (a b : Value) : State := (State.reset.writeV 0 a).writeV 1 b

/-- The small configuration of the vectors, `MAX_DIGITS = 4`, `W = 32`, `TEXT_MAX = 16`, with `V[0] = a`, `V[1] = b`. -/
def small (a b : Value) : State := ((State.resetWith ⟨4, 32, 16⟩ []).writeV 0 a).writeV 1 b

/-- What one presented word leaves. -/
def after (s : State) (w : CommandWord) : Option State :=
  match step (s.withHost [.command w]) with
  | .next t => some t
  | .fault _ => none
  | .refused _ => none

/-- `V[i]` and the outcome code after one word. -/
def seeV (s : State) (w : CommandWord) (i : VReg) : Option (Value × Nat) :=
  (after s w).map fun t => (t.readV i, t.status.err.toNat)

/-- `X[i]` and the outcome code after one word. -/
def seeX (s : State) (w : CommandWord) (i : XReg) : Option (Nat × Nat) :=
  (after s w).map fun t => (t.uX i, t.status.err.toNat)

/-- The text and the outcome code after one word. -/
def seeText (s : State) (w : CommandWord) : Option (List Byte × Nat) :=
  (after s w).map fun t => (t.text, t.status.err.toNat)

/-- `s` with a text in the buffer. -/
def withText (s : State) (t : List Byte) : State := s.writeText t

/-- `s` in compatibility mode. -/
def compat (s : State) : State := { s with cfg := { pcompat := true } }

/-- `s` with a raw triple in RAW. -/
def withRaw (s : State) (sg : Bool) (ds : List Digit) : State :=
  { s with raw := { sign := sg, len := ds.length, cells := ds ++ s.raw.cells.drop ds.length } }

/-- The same state, stopped by an abort. -/
def stopped (s : State) : State := { s with status := { s.status with err := 0xFF#8, abort := true } }


/-! ### WellFormed -/

/-- 30_encoding.md R65. -/
theorem test_wellFormed_refuses_one_destination : (Instr.divrem 2 2 0 1).wellFormed = false := by decide
/-- 70_reset_and_hazards.md R211. -/
theorem test_wellFormed_accepts_two_destinations : (Instr.divrem 2 3 2 3).wellFormed = true := by decide

/-! ### Decoding: one word per command, written out from 30_encoding.md R58, R62 (95_test_vectors.md section 9) -/

theorem test_decode_canon :
    decode 0x10E00000#32 = .command (.canon 7) ∧ encode (.canon 7) = 0x10E00000#32 := by decide
theorem test_decode_mov : decode 0x11E38000#32 = .command (.mov 7 7) ∧ encode (.mov 7 7) = 0x11E38000#32 := by decide
theorem test_decode_len : decode 0x12008000#32 = .command (.len 0 1) ∧ encode (.len 0 1) = 0x12008000#32 := by decide
theorem test_decode_digit :
    decode 0x1300A000#32 = .command (.digit 0 1 2) ∧ encode (.digit 0 1 2) = 0x1300A000#32 := by decide
theorem test_decode_isneg :
    decode 0x14008000#32 = .command (.isneg 0 1) ∧ encode (.isneg 0 1) = 0x14008000#32 := by decide
theorem test_decode_mlt :
    decode 0x20401000#32 = .command (.mlt 2 0 1) ∧ encode (.mlt 2 0 1) = 0x20401000#32 := by decide
theorem test_decode_cmplt :
    decode 0x2160A000#32 = .command (.cmplt 3 1 2) ∧ encode (.cmplt 3 1 2) = 0x2160A000#32 := by decide
theorem test_decode_cmple :
    decode 0x2201B000#32 = .command (.cmple 0 3 3) ∧ encode (.cmple 0 3 3) = 0x2201B000#32 := by decide
theorem test_decode_cmpgt :
    decode 0x23210000#32 = .command (.cmpgt 1 2 0) ∧ encode (.cmpgt 1 2 0) = 0x23210000#32 := by decide
theorem test_decode_cmpge :
    decode 0x24E3F000#32 = .command (.cmpge 7 7 7) ∧ encode (.cmpge 7 7 7) = 0x24E3F000#32 := by decide
theorem test_decode_cmpeq :
    decode 0x25619000#32 = .command (.cmpeq 3 3 1) ∧ encode (.cmpeq 3 3 1) = 0x25619000#32 := by decide
theorem test_decode_cmpne :
    decode 0x26001000#32 = .command (.cmpne 0 0 1) ∧ encode (.cmpne 0 0 1) = 0x26001000#32 := by decide
theorem test_decode_madd :
    decode 0x30401000#32 = .command (.madd 2 0 1) ∧ encode (.madd 2 0 1) = 0x30401000#32 := by decide
theorem test_decode_msub :
    decode 0x31601000#32 = .command (.msub 3 0 1) ∧ encode (.msub 3 0 1) = 0x31601000#32 := by decide
theorem test_decode_add :
    decode 0x32401000#32 = .command (.add 2 0 1) ∧ encode (.add 2 0 1) = 0x32401000#32 := by decide
theorem test_decode_sub :
    decode 0x33E31000#32 = .command (.sub 7 6 1) ∧ encode (.sub 7 6 1) = 0x33E31000#32 := by decide
theorem test_decode_neg : decode 0x34A18000#32 = .command (.neg 5 3) ∧ encode (.neg 5 3) = 0x34A18000#32 := by decide
theorem test_decode_inc : decode 0x35400000#32 = .command (.inc 2 0) ∧ encode (.inc 2 0) = 0x35400000#32 := by decide
theorem test_decode_dec : decode 0x36E00000#32 = .command (.dec 7 0) ∧ encode (.dec 7 0) = 0x36E00000#32 := by decide
theorem test_decode_shl :
    decode 0x4020B000#32 = .command (.shl 1 1 3) ∧ encode (.shl 1 1 3) = 0x4020B000#32 := by decide
theorem test_decode_shr :
    decode 0x4181A000#32 = .command (.shr 4 3 2) ∧ encode (.shr 4 3 2) = 0x4181A000#32 := by decide
theorem test_decode_mul :
    decode 0x5080B000#32 = .command (.mul 4 1 3) ∧ encode (.mul 4 1 3) = 0x5080B000#32 := by decide
theorem test_decode_div :
    decode 0x60608000#32 = .command (.div 3 1 0) ∧ encode (.div 3 1 0) = 0x60608000#32 := by decide
theorem test_decode_mod :
    decode 0x61601000#32 = .command (.mod 3 0 1) ∧ encode (.mod 3 0 1) = 0x61601000#32 := by decide
theorem test_decode_divrem :
    decode 0x62DC5000#32 = .command (.divrem 6 7 0 5) ∧ encode (.divrem 6 7 0 5) = 0x62DC5000#32 := by decide
theorem test_decode_parse :
    decode 0x70A00000#32 = .command (.parse 5) ∧ encode (.parse 5) = 0x70A00000#32 := by decide
theorem test_decode_fmtd : decode 0x71038000#32 = .command (.fmtd 7) ∧ encode (.fmtd 7) = 0x71038000#32 := by decide
theorem test_decode_fmth : decode 0x72018000#32 = .command (.fmth 3) ∧ encode (.fmth 3) = 0x72018000#32 := by decide
theorem test_decode_fmto : decode 0x73008000#32 = .command (.fmto 1) ∧ encode (.fmto 1) = 0x73008000#32 := by decide
theorem test_decode_fromint :
    decode 0x74838000#32 = .command (.fromint 4 7) ∧ encode (.fromint 4 7) = 0x74838000#32 := by decide
theorem test_decode_toint :
    decode 0x75210000#32 = .command (.toint 1 2) ∧ encode (.toint 1 2) = 0x75210000#32 := by decide
/-- NEG with rs2 = 1; ADD with bit 11 set (95_test_vectors.md section 9). -/
theorem test_decode_refuses_unused_bits :
    decode 0x34401000#32 = .illegal .nonzeroUnusedBit ∧ decode 0x32401800#32 = .illegal .nonzeroUnusedBit := by decide
/-- 95_test_vectors.md section 9. -/
theorem test_decode_refuses_opcodes :
    decode 0xFFFFFFFF#32 = .illegal .unassignedOpcode ∧ decode 0x15000000#32 = .illegal .unassignedOpcode := by decide
theorem test_table_word :
    decodeTableWord 32 0x62040000 = some (.divrem 0 1 0 0) ∧ decodeTableWord 32 0 = none := by decide
/-- FMTO as the first word after reset fails with UnsupportedFormat. -/
theorem test_fetch_word :
    (match step (State.reset.withFetchWord 32 0x73000000) with | .next t => t.status.err.toNat | _ => 99) = 6 := by decide

/-! ### Digit store (95_test_vectors.md section 2) -/

theorem test_canon_strips :
    seeV (withRaw (std .zero .zero) true [10, 1, 0, 0]) 0x10000000#32 0 = some (num true 0x1a, 0) := by decide
theorem test_canon_capacity :
    seeV (withRaw (small (num false 0x77) .zero) false [1, 2, 3, 4, 5]) 0x10000000#32 0 = some (num false 0x77, 2) := by decide
theorem test_mov : seeV (std .zero (num true 0x1a)) 0x11008000#32 0 = some (num true 0x1a, 0) := by decide
theorem test_len :
    seeX (std .zero (num false 0x18ee90ff6c373e0ee4e3f0ad2)) 0x12008000#32 0 = some (25, 0) := by decide
theorem test_digit : seeX ((std .zero (num false 0x1a)).writeX 2 1) 0x1300A000#32 0 = some (1, 0) := by decide
theorem test_digit_past_the_top :
    seeX ((std .zero (num false 0x1a)).writeX 2 0xFFFFFFFF) 0x1300A000#32 0 = some (0, 0) := by decide
theorem test_isneg : seeX (std .zero (num true 0x1a)) 0x14008000#32 0 = some (1, 0) := by decide

/-! ### Comparator (95_test_vectors.md section 3) -/

theorem test_mlt_ignores_signs : seeX (std (num true 2) (num false 3)) 0x20001000#32 0 = some (1, 0) := by decide
theorem test_mlt_length_first :
    seeX (std (num false 0xff) (num false 0x100)) 0x20001000#32 0 = some (1, 0) := by decide
theorem test_cmplt : seeX (std (num true 3) (num true 2)) 0x21001000#32 0 = some (1, 0) := by decide
theorem test_cmple : seeX (std (num true 2) (num true 3)) 0x22001000#32 0 = some (0, 0) := by decide
theorem test_cmpgt : seeX (std (num false 0x1b0) (num false 0x1af)) 0x23001000#32 0 = some (1, 0) := by decide
theorem test_cmpge : seeX (std (num true 7) (num true 7)) 0x24001000#32 0 = some (1, 0) := by decide
theorem test_cmpeq : seeX (std (num false 7) (num true 7)) 0x25001000#32 0 = some (0, 0) := by decide
theorem test_cmpne : seeX (std (num false 7) (num true 7)) 0x26001000#32 0 = some (1, 0) := by decide

/-! ### Additive engine (95_test_vectors.md section 4) -/

theorem test_madd_appends_carry :
    seeV (std (num false 0xff) (num false 1)) 0x30401000#32 2 = some (num false 0x100, 0) := by decide
theorem test_madd_aborts :
    (after (std (num true 1) (num false 1)) 0x30401000#32).map (fun t => statusWord t.status) = some 0x1FF#32 := by decide
theorem test_msub_borrow :
    seeV (std (num false 0x100) (num false 1)) 0x31401000#32 2 = some (num false 0xff, 0) := by decide
theorem test_msub_aborts :
    (after (std (num false 0xff) (num false 0x100)) 0x31401000#32).map (fun t => statusWord t.status) = some 0x1FF#32 := by decide
theorem test_add_opposite_signs :
    seeV (std (num true 0x100) (num false 1)) 0x32401000#32 2 = some (num true 0xff, 0) := by decide
theorem test_add_capacity : seeV (small (num true 0xffff) (num true 1)) 0x32401000#32 2 = some (.zero, 2) := by decide
theorem test_sub : seeV (std (num false 2) (num false 7)) 0x33401000#32 2 = some (num true 5, 0) := by decide
theorem test_sub_to_zero : seeV (std (num true 7) (num true 7)) 0x33401000#32 2 = some (.zero, 0) := by decide
theorem test_neg_zero : seeV (std .zero .zero) 0x34400000#32 2 = some (.zero, 0) := by decide
theorem test_neg : seeV (std (num false 0x1a) .zero) 0x34400000#32 2 = some (num true 0x1a, 0) := by decide
theorem test_inc_to_zero : seeV (std (num true 1) .zero) 0x35400000#32 2 = some (.zero, 0) := by decide
theorem test_inc_carry : seeV (std (num false 0xf) .zero) 0x35400000#32 2 = some (num false 0x10, 0) := by decide
theorem test_dec_capacity : seeV (small (num true 0xffff) .zero) 0x36400000#32 2 = some (.zero, 2) := by decide
theorem test_dec_below_zero : seeV (std .zero .zero) 0x36400000#32 2 = some (num true 1, 0) := by decide

/-! ### Shifter (95_test_vectors.md section 5) -/

theorem test_shl :
    seeV ((std (num true 0x1a) .zero).writeX 1 8) 0x40401000#32 2 = some (num true 0x1a00, 0) := by decide
theorem test_shl_huge :
    seeV ((std (num false 5) .zero).writeX 1 0xFFFFFFFC) 0x40401000#32 2 = some (.zero, 2) := by decide
theorem test_shr_truncates :
    seeV ((std (num true 0x1f) .zero).writeX 1 4) 0x41401000#32 2 = some (num true 1, 0) := by decide
theorem test_shr_misaligned : seeV ((std .zero .zero).writeX 1 6) 0x41401000#32 2 = some (.zero, 5) := by decide

/-! ### Multiplier and divider (95_test_vectors.md sections 6 and 7) -/

theorem test_mul : seeV (std (num false 0x1a) (num true 0x13)) 0x50401000#32 2 = some (num true 0x1ee, 0) := by decide
theorem test_mul_precheck :
    seeV (small (num false 0x10) (num false 0x100)) 0x50401000#32 2 = some (.zero, 2) := by decide
theorem test_div :
    seeV (std (num false 0x3e8) (num false 7)) 0x60401000#32 2 = some (num false 0x8e, 0) := by decide +kernel
theorem test_div_by_zero : seeV (std .zero .zero) 0x60401000#32 2 = some (.zero, 1) := by decide
theorem test_mod_dividend_sign :
    seeV (std (num true 7) (num false 2)) 0x61401000#32 2 = some (num true 1, 0) := by decide
theorem test_mod_small_dividend :
    seeV (std (num true 1) (num false 2)) 0x61401000#32 2 = some (num true 1, 0) := by decide
theorem test_divrem_onto_sources :
    seeV (std (num true 7) (num false 2)) 0x62041000#32 0 = some (num true 3, 0) ∧
      seeV (std (num true 7) (num false 2)) 0x62041000#32 1 = some (num true 1, 0) := by decide

/-! ### Text codec (95_test_vectors.md section 8) -/

theorem test_parse_hex :
    seeV (withText (std .zero .zero) [0x2D, 0x30, 0x78, 0x31, 0x61]) 0x70000000#32 0 = some (num true 0x1a, 0) := by decide
theorem test_parse_refused :
    seeV (withText (small (num false 0x77) .zero) [0x34, 0x30, 0x39, 0x36, 0x30]) 0x70000000#32 0 = some (num false 0x77, 2) := by decide +kernel
theorem test_fmtd :
    seeText (std (num true 0x1ee) .zero) 0x71000000#32 = some ([0x2D, 0x34, 0x39, 0x34], 0) := by decide +kernel
theorem test_fmtd_keeps_stale_bytes :
    (after (withText (std (num false 7) .zero) [0x2D, 0x34, 0x39, 0x34]) 0x71000000#32).map
      (fun t => (t.tlen, Memory.readAll t.tbuf 0 4)) = some (1, [0x37, 0x34, 0x39, 0x34]) := by decide +kernel
theorem test_fmth :
    seeText (std (num true 0x1a00) .zero) 0x72000000#32 = some ([0x2D, 0x31, 0x61, 0x30, 0x30], 0) := by decide
theorem test_fmth_zero : seeText (std .zero .zero) 0x72000000#32 = some ([0x30], 0) := by decide
theorem test_fmto : seeText (withText (std .zero .zero) [0x35]) 0x73000000#32 = some ([0x35], 6) := by decide
theorem test_fromint_minimum :
    seeV ((std .zero .zero).writeX 1 0x80000000) 0x74008000#32 0 = some (num true 0x80000000, 0) := by decide
theorem test_fromint_minus_one :
    seeV ((std .zero .zero).writeX 1 0xFFFFFFFF) 0x74008000#32 0 = some (num true 1, 0) := by decide
theorem test_toint : seeX (std (num true 0x7fffffff) .zero) 0x75400000#32 2 = some (0x80000001, 0) := by decide
theorem test_toint_overflow :
    seeX ((std (num true 0x80000000) .zero).writeX 2 0x77) 0x75400000#32 2 = some (0x77, 3) := by decide

/-! ### The host and the abort state -/

/-- 95_test_vectors.md program 4, step 7. -/
theorem test_abort_discards :
    (after (stopped (std (num false 3) (num false 5))) 0x32401000#32).map
      (fun t => (t.readV 2, statusWord t.status)) = some (.zero, 0x1FF#32) := by decide
/-- 95_test_vectors.md program 4, the reset. -/
theorem test_reset_recovers :
    (match step ((stopped ((std .zero .zero).writeX 7 9)).withHost [.reset]) with
      | .next t => (t.uX 7, statusWord t.status) | _ => (1, 1)) = (0, 0) := by decide
/-- 95_test_vectors.md program 5, step 4. -/
theorem test_compat_warns :
    (after (compat (withText (std (num false 0x77) .zero) [0x61, 0x62, 0x63])) 0x70000000#32).map
      (fun t => (t.readV 0, statusWord t.status)) = some (.zero, 0x200#32) := by decide

/-- 70_reset_and_hazards.md R218: a run with only host accesses left has ended; one with a word left has not. -/
theorem test_run_ended_before_host_accesses :
    (State.reset.withHost [.writeX 0 5, .read .status]).EndedWell ∧
      ¬ (State.reset.withHost [.writeX 0 5, .command 0x11000000#32]).RunEnded := by decide
/-- 95_test_vectors.md program 4: stopped when the list is exhausted, and reset begins another run. -/
theorem test_run_stopped :
    ((stopped State.reset).withHost [.reset, .command 0x74838000#32]).RunEnded ∧
      (stopped State.reset).RunStopped ∧ ¬ (stopped State.reset).EndedWell := by decide

/-! ### Witnesses: states and operands that meet the hypotheses of each statement -/

/-- Canonical operands at the capacity of the small configuration: 16^4 - 1 and its negative. -/
def top : Value := num false 0xffff
@[inherit_doc top] def bottom : Value := num true 0xffff

theorem witness_DecodeOfEncode :
    (Instr.divrem 7 6 7 7).wellFormed = true ∧ (Instr.divrem 0 1 0 0).wellFormed = true := by decide
theorem witness_EncodeOfDecode :
    decode 0x62FBF000#32 = .command (.divrem 7 6 7 7) ∧ decode 0x10000000#32 = .command (.canon 0) := by decide
/-- A legal word and an illegal one. -/
theorem witness_LegalWordsAreTheTableRows : LegalWord 0x62FBF000#32 ∧ ¬ LegalWord 0x62001000#32 := by
  refine ⟨⟨(0x62000000#32, 0xFF000FFF#32), by simp [legalRows], by decide, fun _ => by decide⟩, ?_⟩
  simp [LegalWord, legalRows]
theorem witness_IllegalWordsFailByName :
    (State.reset.withHost [.command 0x62001000#32]).host = .command 0x62001000#32 :: [] ∧
      (State.reset.withHost [.command 0x62001000#32]).status.abort = false ∧ ¬ LegalWord 0x62001000#32 :=
  ⟨rfl, rfl, witness_LegalWordsAreTheTableRows.2⟩
theorem witness_StepRunsTheDecodedCommand :
    (State.reset.withHost [.command 0x32401000#32]).host = .command 0x32401000#32 :: [] ∧
      State.reset.status.abort = false ∧ decode 0x32401000#32 = .command (.add 2 0 1) ∧ State.reset.host = [] := by decide
theorem witness_AbortedBlockDiscardsWords :
    ((stopped State.reset).withHost [.command 0#32]).host = .command 0#32 :: [] ∧
      ((stopped State.reset).withHost [.command 0#32]).status.abort = true := by decide
theorem witness_AbortIsSetByViolationAndClearedByReset :
    (small top bottom).Inv ∧ (stopped (small top bottom)).Inv ∧
      (match step ((small top bottom).withHost [.command 0x30401000#32]) with | .next t => t.status.abort | _ => false) = true ∧
      (match step ((stopped (small top bottom)).withHost [.reset]) with | .next t => t.status.abort | _ => true) = false := by decide +kernel
theorem witness_HostWritesTakeEffect :
    ∀ a ∈ ([.writeX 7 (2 ^ 32), .writeRawSign true, .writeRawLen 8, .writeRawDigit 7 15, .writeTextLen 16,
        .writeCfg 0xFFFFFFFF#32] : List HostAction),
      ((small top bottom).withHost [a]).host = a :: [] ∧ 8 ≤ 2 * (small top bottom).params.maxDigits ∧
      7 < 2 * (small top bottom).params.maxDigits ∧ 16 ≤ (small top bottom).params.textMax :=
  fun _ _ => ⟨rfl, (by decide : 8 ≤ 2 * 4), (by decide : 7 < 2 * 4), (by decide : 16 ≤ 16)⟩
theorem witness_HostWriteOfTextByte :
    ((small top bottom).withHost [.writeText 15 0#8]).host = .writeText 15 0#8 :: [] ∧
      15 < (small top bottom).params.textMax ∧ Memory.wf (small top bottom).tbuf = true := by decide
theorem witness_OversizedRawLenIgnored :
    ((small top bottom).withHost [.writeRawLen 9]).host = .writeRawLen 9 :: [] ∧
      2 * (small top bottom).params.maxDigits < 9 := by decide
theorem witness_OversizedTextLenIgnored :
    ((small top bottom).withHost [.writeTextLen 17]).host = .writeTextLen 17 :: [] ∧ (small top bottom).params.textMax < 17 := by decide
theorem witness_HostReadsSeeTheState :
    ((small top bottom).withHost [.read (.text 15)]).host = .read (.text 15) :: [] ∧
      (HostAction.read (.text 15)).Named (small top bottom).params ∧
      (HostAction.read (.rawDigit 7)).Named (small top bottom).params ∧ bottom.Canonical 4 ∧
      (withRaw (small top bottom) true [0, 0, 0, 0, 0, 0, 0, 9]).raw.cells[7]? = some 9#4 :=
  ⟨rfl, (by decide : (15 : Nat) < 16), (by decide : (7 : Nat) < 2 * 4), by decide, by decide⟩
theorem witness_ResetEventClearsEverything :
    ((stopped (small top bottom)).withHost [.reset]).host = .reset :: [] := by decide
theorem witness_StepKeepsTheInvariant :
    ((small top bottom).withHost [.command 0x62DC1000#32]).Inv ∧
      (after (small top bottom) 0x62DC1000#32).isSome = true := by decide +kernel
theorem witness_StepAlwaysCompletes :
    ((small top bottom).withHost [.writeText 15 5#8]).Inv ∧
      (∀ a, ((small top bottom).withHost [.writeText 15 5#8]).host.head? = some a → a.Named (small top bottom).params) := by
  refine ⟨by decide +kernel, fun a h => ?_⟩
  cases h
  exact (by decide : (15 : Nat) < 16)
theorem witness_FailingCommandsWriteOnlyStatus :
    seeV (small top (num false 1)) 0x32401000#32 2 = some (.zero, 2) ∧ (after (small top bottom) 0x70000000#32).map (fun t => t.status.err) = some 4#8 := by decide
theorem witness_CommandsWriteOnlyTheirDestinations :
    (match exec (.divrem 2 3 0 1) (small top bottom) with | .next t => t.status.err.toNat | _ => 99) = 0 ∧
      (match exec (.madd 2 0 1) (small top bottom) with | .next t => t.status.err.toNat | _ => 99) = 255 := by decide +kernel
theorem witness_CommandsReadOnlyTheirSources :
    (small top bottom).params = ((small top bottom).writeX 7 9).params ∧
      (∀ j ∈ sourceV (.sub 2 0 1), (small top bottom).readV j = ((small top bottom).writeX 7 9).readV j) ∧
      (∀ j ∈ sourceX (.sub 2 0 1), (small top bottom).uX j = ((small top bottom).writeX 7 9).uX j) ∧
      isCanon (.sub 2 0 1) = false ∧ isParse (.sub 2 0 1) = false ∧
      Memory.wf (small top bottom).tbuf = true ∧ Memory.wf ((small top bottom).writeX 7 9).tbuf = true ∧
      (match exec (.sub 2 1 0) (small top bottom) with | .next _ => true | _ => false) = true := by
  decide
theorem witness_OnlyCommandsAndResetWriteErr :
    (match step ((small top (num false 1)).withHost [.command 0x32401000#32]) with
      | .next t => t.status.err | _ => 0#8) ≠ (small top (num false 1)).status.err := by decide
theorem witness_RepresentableIntegers :
    (65535 : Int).natAbs < 16 ^ 4 ∧ (-65535 : Int).natAbs < 16 ^ 4 ∧ bottom.Canonical 4 ∧ bottom.val = -65535 := by decide
theorem witness_CanonicaliserOutcome :
    4 < ndig (magOf [0, 0, 0, 0, 1]) ∧ ndig (magOf [1, 2, 3, 4, 0]) ≤ 4 ∧
      Value.canon 4 true [0, 0] = .ok .zero ∧ top.Canonical 4 ∧ magOf [5, 0] = magOf [5] := by decide
theorem witness_CanonBuildsFromRaw :
    Fits 4 (signed true (magOf ((withRaw (small top bottom) true [15, 15, 15, 15, 0]).raw.cells.take 5))) ∧
      ¬ Fits 4 (signed true (magOf ((withRaw (small top bottom) true [0, 0, 0, 0, 1]).raw.cells.take 5))) := by decide
theorem witness_CopyAndQueries :
    ((small top bottom).readV 1).Canonical 4 ∧ ((small top .zero).readV 1).Canonical 4 ∧ (small top bottom).params.Meets := by decide
theorem witness_ComparatorOrdersIntegers : top.Canonical 4 ∧ bottom.Canonical 4 ∧ Value.zero.Canonical 4 := by decide
theorem witness_ComparisonCommands :
    ((small top bottom).readV 0).Canonical 4 ∧ ((small top bottom).readV 1).Canonical 4 ∧ (small top bottom).params.Meets := by decide
theorem witness_MagnitudeAdderOutcome :
    top.sign = false ∧ top.mag + Value.zero.mag < 16 ^ 4 ∧ 16 ^ 4 ≤ top.mag + Value.one.mag ∧ bottom.sign = true := by decide
theorem witness_MagnitudeSubtractorOutcome :
    top.Canonical 4 ∧ Value.zero.Canonical 4 ∧ top.sign = false ∧ top.mag ≤ top.mag ∧ Value.zero.mag < top.mag ∧ bottom.sign = true := by decide
theorem witness_PrimitiveCommands :
    top.Canonical 4 ∧ Value.zero.Canonical 4 ∧ Value.one.Canonical 4 ∧ bottom.Canonical 4 ∧ 0 ≤ top.val ∧
      Fits 4 (top.val + Value.zero.val) ∧ ¬ Fits 4 (top.val + Value.one.val) ∧ bottom.val < 0 ∧ Value.zero.val < top.val := by decide
theorem witness_SignResolverOutcome :
    top.Canonical 4 ∧ bottom.Canonical 4 ∧ Value.one.Canonical 4 ∧ Fits 4 (top.val + bottom.val) ∧
      ¬ Fits 4 (top.val + Value.one.val) ∧ ¬ Fits 4 (bottom.val - Value.one.val) ∧ Fits 4 (top.val - Value.one.val) := by decide
theorem witness_SignedCommands :
    ((small top bottom).readV 0).Canonical 4 ∧ ((small top bottom).readV 1).Canonical 4 ∧
      ¬ (top.val + 1 < 16 ^ 4) ∧ ¬ (-(16 ^ 4) < bottom.val - 1) ∧ top.val - 1 < 16 ^ 4 := by decide
theorem witness_AdditiveIdentities :
    top.Canonical 4 ∧ bottom.Canonical 4 ∧ Value.one.Canonical 4 ∧ Value.add 4 top bottom = .ok .zero ∧
      Value.add 4 .zero .one = .ok .one ∧ Value.add 4 bottom .one = .ok (num true 0xfffe) ∧
      Value.add 4 top (num true 0xfffe) = .ok .one := by
  decide
theorem witness_ShiftLeftOutcome :
    (num false 0x123).Canonical 4 ∧ num false 0x123 ≠ .zero ∧ 4 < (num false 0x123).len + 2 ∧ (num false 0x123).len + 1 ≤ 4 := by decide
theorem witness_ShiftRightOutcome : bottom.Canonical 4 ∧ Value.zero.Canonical 4 := by decide
theorem witness_ShiftCommands :
    ((small (num true 0x123) .zero).readV 0).Canonical 4 ∧ ((small top .zero).writeX 1 6).uX 1 % 4 ≠ 0 ∧
      ((small top .zero).writeX 1 4).uX 1 % 4 = 0 ∧ ndig (num true 0x123).val.natAbs + 4 / 4 ≤ 4 ∧
      4 < ndig (num true 0x123).val.natAbs + 8 / 4 ∧ (num true 0x123).val ≠ 0 := by decide
theorem witness_ShiftInverse :
    ((small (num true 0x123) .zero).readV 0).Canonical 4 ∧
      (match exec (.shl 2 0 1) ((small (num true 0x123) .zero).writeX 1 4) with | .next t => t.status.err.toNat | _ => 99) = 0 ∧
      (num true 0x123).Canonical 4 ∧ Value.shr 4 (num true 0x123) 1 = .ok (num true 0x12) := by decide
theorem witness_MultiplierOutcome :
    top.Canonical 4 ∧ (num false 0x10).Canonical 4 ∧ Value.one.mag ≤ 1 ∧ 2 ≤ (num false 0x10).mag ∧
      4 < top.len + (num false 0x10).len ∧ (num false 0x10).len + (num false 0x10).len ≤ 4 := by decide
theorem witness_MultiplyCommand :
    ((small (num false 0x10) top).readV 0).Canonical 4 ∧ ((small (num false 0x10) top).readV 1).Canonical 4 ∧
      (2 ≤ (num false 0x10).val.natAbs ∧ 2 ≤ top.val.natAbs ∧ 4 < ndig (num false 0x10).val.natAbs + ndig top.val.natAbs) ∧
      ¬ (2 ≤ Value.one.val.natAbs) := by decide
theorem witness_MultiplicativeIdentities : top.Canonical 4 ∧ bottom.Canonical 4 ∧ Value.zero.Canonical 4 := by decide
theorem witness_DividerOutcome :
    bottom.Canonical 4 ∧ (num false 2).Canonical 4 ∧ num false 2 ≠ .zero ∧ Value.zero.Canonical 4 := by decide
theorem witness_DivisionCommands :
    ((small bottom (num false 2)).readV 0).Canonical 4 ∧ ((small bottom (num false 2)).readV 1).Canonical 4 ∧
      (num false 2).val ≠ 0 ∧ Value.zero.val = 0 ∧ Value.zero.Canonical 4 := by decide
theorem witness_DivisionIdentity :
    (2 : VReg) ≠ 3 ∧ ((small bottom (num false 2)).readV 0).Canonical 4 ∧ ((small bottom (num false 2)).readV 1).Canonical 4 ∧
      (match exec (.divrem 2 3 0 1) (small bottom (num false 2)) with | .next t => t.status.err.toNat | _ => 99) = 0 := by decide +kernel
/-- `"-0xfFfFg"` at the capacity, and `"0X10000"` above it. -/
theorem witness_ParseHexadecimalText :
    SignText [0x2D] true ∧ SignText [] false ∧ (withText (small top bottom) [0x2D, 0x30, 0x78, 0x66, 0x46, 0x66, 0x46, 0x67]).tlen ≤ 16 ∧
      (withText (small top bottom) [0x2D, 0x30, 0x78, 0x66, 0x46, 0x66, 0x46, 0x67]).text = [0x2D] ++ 0x30#8 :: 0x78#8 :: ([0x66, 0x46, 0x66, 0x46] ++ [0x67]) ∧
      (∀ c ∈ ([0x66, 0x46, 0x66, 0x46] : List Byte), isHexDigit c = true) ∧ isHexDigit 0x67 = false ∧
      Fits 4 (signed true (hexNumber [0x66, 0x46, 0x66, 0x46])) ∧
      (withText (small top bottom) [0x30, 0x58, 0x31, 0x30, 0x30, 0x30, 0x30]).text = [] ++ 0x30#8 :: 0x58#8 :: ([0x31, 0x30, 0x30, 0x30, 0x30] ++ []) ∧
      ¬ Fits 4 (signed false (hexNumber [0x31, 0x30, 0x30, 0x30, 0x30])) :=
  ⟨.inr (.inr ⟨rfl, rfl⟩), .inl ⟨rfl, rfl⟩, by decide, by decide, by decide, by decide, by decide, by decide, by decide⟩
/-- `"+40959abc"`, which fits; `"40960"`, which the pre-check refuses (46_text_codec.md R149). -/
theorem witness_ParseDecimalText :
    SignText [0x2B] false ∧ (small top bottom).params.Meets ∧ (withText (small top bottom) [0x2B, 0x34, 0x30, 0x39, 0x35, 0x39, 0x61, 0x62, 0x63]).tlen ≤ 16 ∧
      (withText (small top bottom) [0x2B, 0x34, 0x30, 0x39, 0x35, 0x39, 0x61, 0x62, 0x63]).text = [0x2B] ++ ([0x34, 0x30, 0x39, 0x35, 0x39] ++ [0x61, 0x62, 0x63]) ∧
      (∀ c ∈ ([0x34, 0x30, 0x39, 0x35, 0x39] : List Byte), isDecDigit c = true) ∧ isDecDigit 0x61 = false ∧
      hasHexPrefix ([0x34, 0x30, 0x39, 0x35, 0x39] ++ [0x61, 0x62, 0x63]) = false ∧ Fits 4 (signed false (decNumber [0x34, 0x30, 0x39, 0x35, 0x39])) ∧
      ndig (decNumber [0x34, 0x30, 0x39, 0x35]) < 4 ∧
      ([0x34, 0x30, 0x39, 0x36, 0x30] : List Byte) = [0x34, 0x30, 0x39, 0x36] ++ 0x30 :: [] ∧ 2 ≤ decNumber [0x34, 0x30, 0x39, 0x36] ∧ 4 ≤ ndig (decNumber [0x34, 0x30, 0x39, 0x36]) :=
  ⟨.inr (.inl ⟨rfl, rfl⟩), by decide, by decide, by decide, by decide, by decide, by decide, by decide, by decide,
    by decide, by decide, by decide⟩
/-- `""`, `"--5"` and `"0x"` in either mode. -/
theorem witness_ParseMalformedText :
    SignText [] false ∧ SignText [0x2D] true ∧ (small top bottom).text = [] ++ [] ∧
      (withText (small top bottom) [0x2D, 0x2D, 0x35]).text = [0x2D] ++ [0x2D, 0x35] ∧ hasHexPrefix [0x2D, 0x35] = false ∧
      isDecDigit 0x2D = false ∧
      (withText (small top bottom) [0x30, 0x78]).text = [] ++ [0x30, 0x78] ∧ hasHexPrefix [0x30, 0x78] = true ∧
      ([0x30, 0x78] : List Byte).drop 2 = [] ∧
      (small top bottom).cfg.pcompat = false ∧ (compat (small top bottom)).cfg.pcompat = true ∧
      (small top bottom).tlen ≤ 16 :=
  ⟨.inl ⟨rfl, rfl⟩, .inr (.inr ⟨rfl, rfl⟩), by decide, by decide, by decide, by decide, by decide, by decide, by decide,
    by decide, by decide, by decide⟩
theorem witness_FormatDecimal :
    (small bottom .zero).params.Meets ∧ ((small bottom .zero).readV 0).Canonical 4 ∧ Memory.wf (small bottom .zero).tbuf = true := by decide
theorem witness_FormatHexadecimal :
    (small bottom .zero).params.Meets ∧ ((small bottom .zero).readV 1).Canonical 4 ∧ Memory.wf (small bottom .zero).tbuf = true := by decide
theorem witness_MachineIntegerCommands :
    (small top bottom).params.Meets ∧ Fits 4 (((small top bottom).writeX 1 0xFFFF0001).sX 1) ∧
      ¬ Fits 4 (((small top bottom).writeX 1 0x00010000).sX 1) ∧ (num true 0x7fffffff).Canonical 64 ∧
      (num true 0x7fffffff).val.natAbs < 2 ^ 31 ∧ (num true 0x80000000).Canonical 64 ∧ 2 ^ 31 ≤ (num true 0x80000000).val.natAbs := by decide
theorem witness_MachineIntegerRoundTrip :
    State.reset.params.Meets ∧ Fits 64 ((State.reset.writeX 1 0x80000001).sX 1) ∧
      (State.reset.writeX 1 0x80000001).sX 1 ≠ -(2 ^ 31) ∧ (State.reset.writeX 1 0x80000000).sX 1 = -(2 ^ 31) := by decide
theorem witness_DecimalTextRoundTrip :
    (small top (num false 0x9fff)).Inv ∧ ndig ((num false 0x9fff).val.natAbs / 10) < 4 ∧
      2 ≤ top.val.natAbs / 10 ∧ 4 ≤ ndig (top.val.natAbs / 10) := by decide +kernel
theorem witness_HexadecimalTextRoundTrip :
    (small bottom top).Inv ∧ (after (small bottom top) 0x72000000#32).map (fun t => t.text) = some [0x2D, 0x66, 0x66, 0x66, 0x66] ∧
      (withText (small bottom top) [0x2D, 0x30, 0x78, 0x66, 0x66, 0x66, 0x66]).text = insertPrefix [0x2D, 0x66, 0x66, 0x66, 0x66] ∧
      (withText (small bottom top) [0x2D, 0x30, 0x78, 0x66, 0x66, 0x66, 0x66]).tlen ≤ 16 := by decide +kernel
/-- The last word with a host write after it, here a failing one; then the host write alone. -/
theorem witness_RunEndsAtItsLastWord :
    ((small top (num false 1)).withHost [.command 0x32401000#32, .writeX 0 5]).host = .command 0x32401000#32 :: [.writeX 0 5] ∧
      (match step ((small top (num false 1)).withHost [.command 0x32401000#32, .writeX 0 5]) with
        | .next t => (t.status.err.toNat, t.host) | _ => (99, [])) = (2, [.writeX 0 5]) ∧
      (State.reset.withHost [.writeX 0 5]).RunEnded ∧ (State.reset.withHost [.writeX 0 5]).host.head? ≠ some .reset ∧
      (match step (State.reset.withHost [.writeX 0 5]) with | .next t => t.host | _ => [.reset]) = [] := by decide

end Sys2Proof.Tests
end

/-! ### The digits of a natural number (00_scope.md R11)

`ndig` is defined through the top bit and `digits_of` by repeated division. These lemmas say once what they are in terms
of powers of the radix. -/

namespace Sys2Proof.Machine

theorem ndig_zero : ndig 0 = 1 := by decide

/-- A positive number reaches the radix power of its top digit. -/
theorem pow_ndig_sub_one_le {m : Nat} (h : 0 < m) : 16 ^ (ndig m - 1) ≤ m := by
  have htop : 4 * (Nat.log2 m / 4) ≤ Nat.log2 m := Nat.mul_div_le ..
  calc 16 ^ (ndig m - 1) = 2 ^ (4 * (Nat.log2 m / 4)) := (Nat.pow_mul 2 4 _).symm
    _ ≤ 2 ^ Nat.log2 m := Nat.pow_le_pow_right (by decide) htop
    _ ≤ m := Nat.log2_self_le h.ne'

/-- A number lies below the radix power of its digit count, zero included. -/
theorem lt_pow_ndig (m : Nat) : m < 16 ^ ndig m := by
  have htop : Nat.log2 m + 1 ≤ 4 * ndig m := by simp only [ndig, Config.dw]; omega
  calc m < 2 ^ (Nat.log2 m + 1) := Nat.lt_log2_self
    _ ≤ 2 ^ (4 * ndig m) := Nat.pow_le_pow_right (by decide) htop
    _ = 16 ^ ndig m := Nat.pow_mul 2 4 _

@[simp] theorem lowDigits_length (n m : Nat) : (lowDigits n m).length = n := by
  induction n generalizing m with
  | zero => rfl
  | succ n ih => simp [lowDigits, ih]

/-- The `n` low digits of a number have the value of the number modulo `RADIX^n`. -/
theorem magOf_lowDigits (n m : Nat) : magOf (lowDigits n m) = m % 16 ^ n := by
  induction n generalizing m with
  | zero => simp [lowDigits, magOf, Nat.mod_one]
  | succ n ih =>
    calc magOf (lowDigits (n + 1) m) = m % 16 + 16 * (m / 16 % 16 ^ n) := by
          simp [lowDigits, magOf, Config.radix, ih]
      _ = m % 16 ^ (n + 1) := by rw [Nat.pow_succ', Nat.mod_mul]

/-- Digit `i` of the `n` low digits, while `i` is one of them. -/
theorem lowDigits_getD_of_lt {n i : Nat} (m : Nat) (h : i < n) :
    ((lowDigits n m).getD i 0#4).toNat = m / 16 ^ i % 16 := by
  induction n generalizing m i with
  | zero => exact absurd h (Nat.not_lt_zero i)
  | succ n ih =>
    cases i with
    | zero => simp [lowDigits, Config.radix]
    | succ i =>
      calc ((lowDigits (n + 1) m).getD (i + 1) 0#4).toNat = m / 16 / 16 ^ i % 16 := by
            simpa [lowDigits, Config.radix] using ih (m / 16) (Nat.lt_of_succ_lt_succ h)
        _ = m / 16 ^ (i + 1) % 16 := by rw [Nat.div_div_eq_div_mul, Nat.pow_succ']

theorem digitsOf_length (m : Nat) : (digitsOf m).length = ndig m := lowDigits_length ..

theorem magOf_digitsOf (m : Nat) : magOf (digitsOf m) = m :=
  (magOf_lowDigits ..).trans (Nat.mod_eq_of_lt (lt_pow_ndig m))

/-- Digit `i` of `digits_of(m)`, at any index: above the length both sides are zero. -/
theorem digitsOf_getD (m i : Nat) : ((digitsOf m).getD i 0#4).toNat = m / 16 ^ i % 16 := by
  rcases Nat.lt_or_ge i (ndig m) with hi | hi
  · exact lowDigits_getD_of_lt m hi
  · have hm : m < 16 ^ i := (lt_pow_ndig m).trans_le (Nat.pow_le_pow_right (by decide) hi)
    rw [List.getD_eq_default _ _ (by rwa [digitsOf_length]), Nat.div_eq_of_lt hm]
    rfl

/-- Settles O22: the bounds on `ndig` come from those of the top bit, the digits from the recursion of `lowDigits`. -/
theorem digitsOfANumber : Obligations.DigitsOfANumber :=
  ⟨ndig_zero, fun m hm => ⟨pow_ndig_sub_one_le hm, lt_pow_ndig m⟩, digitsOf_length, digitsOf_getD, magOf_digitsOf⟩

/-! ### The state after reset (10_state.md R36) -/

/-- Reset meets the invariant in every configuration that 00_scope.md R7 allows, whatever the host does next. -/
theorem State.resetWith_inv {p : Params} (hp : p.Meets) (host : List HostAction) : (State.resetWith p host).Inv := by
  have hv (i : VReg) : (State.resetWith p host).readV i = Value.zero := RegFile.get_fill ..
  have hdigits : 1 ≤ p.maxDigits := hp.1
  refine ⟨hp, fun i => ?canonical, fun i => ?scalars, ?cells, Nat.zero_le _, Memory.wf_nil, ?bytes, Nat.zero_le _,
    .inl ?code, ?abort⟩
  case canonical => rw [hv]; exact Value.zero_canonical hdigits
  case scalars => simp
  case cells => simp
  case bytes => simp
  case code => simp
  case abort => simp

/-- Settles O15, as the instance of `State.resetWith_inv` at the defaults of 00_scope.md R6. -/
theorem resetMeetsTheInvariant : Obligations.ResetMeetsTheInvariant :=
  ⟨State.resetWith_inv (by decide) [], rfl⟩

end Sys2Proof.Machine

/-! ### One step, by cases

What a step and a host access can do, said once; the proofs about all steps cite these instead of unfolding `step`. -/

namespace Sys2Proof.Machine

variable {s t : State}

/-- A step performs the first action on the host's list, taken off it. -/
theorem step_of_host {a : HostAction} {rest : List HostAction} (h : s.host = a :: rest) :
    step s = perform a (s.withHost rest) := by
  simp [step, h]

/-- Everything a step that answers a next state can be: idle, or one action performed. -/
theorem step_cases (h : step s = .next t) :
    (s.host = [] ∧ t = s) ∨ ∃ a rest, s.host = a :: rest ∧ perform a (s.withHost rest) = .next t := by
  cases hs : s.host with
  | nil => exact .inl ⟨rfl, by simpa [step, hs] using h.symm⟩
  | cons a rest => exact .inr ⟨a, rest, rfl, step_of_host hs ▸ h⟩

/-- Everything a presented word can be: discarded, illegal, or a command run (60_exceptions.md R189). -/
theorem presentWord_cases {w : CommandWord} (h : presentWord w s = .next t) :
    (s.status.abort = true ∧ t = s.discardWord) ∨
      (s.status.abort = false ∧ (∃ why, decode w = .illegal why) ∧ t = s.failWith .illegalCommand) ∨
      (s.status.abort = false ∧ ∃ i, decode w = .command i ∧ exec i s = .next t) := by
  cases ha : s.status.abort with
  | true => exact .inl ⟨rfl, by simpa [presentWord, ha] using h.symm⟩
  | false =>
    cases hd : decode w with
    | illegal why => exact .inr (.inl ⟨rfl, ⟨why, rfl⟩, by simpa [presentWord, ha, hd] using h.symm⟩)
    | command i => exact .inr (.inr ⟨rfl, i, rfl, by simpa [presentWord, ha, hd] using h⟩)

/-- Everything a host write of `RAW.len` can do (10_state.md R23). -/
theorem hostWriteRawLen_cases {n : Nat} (h : hostWriteRawLen n s = .next t) :
    (Config.rawMax s.params < n ∧ t = s) ∨
      (n ≤ Config.rawMax s.params ∧ t = { s with raw := { s.raw with len := n } }) := by
  unfold hostWriteRawLen at h
  split at h
  · next hn => exact .inl ⟨hn, by cases h; rfl⟩
  · next hn => exact .inr ⟨Nat.not_lt.mp hn, by cases h; rfl⟩

/-- Everything a host write of `TLEN` can do (10_state.md R25). -/
theorem hostWriteTextLen_cases {n : Nat} (h : hostWriteTextLen n s = .next t) :
    (s.params.textMax < n ∧ t = s) ∨ (n ≤ s.params.textMax ∧ t = { s with tlen := n }) := by
  unfold hostWriteTextLen at h
  split at h
  · next hn => exact .inl ⟨hn, by cases h; rfl⟩
  · next hn => exact .inr ⟨Nat.not_lt.mp hn, by cases h; rfl⟩

/-- A host write of a cell of `RAW` that is answered names an existing cell and writes it. -/
theorem hostWriteRawDigit_next {k : Nat} {d : Digit} (h : hostWriteRawDigit k d s = .next t) :
    k < Config.rawMax s.params ∧ t = { s with raw := { s.raw with cells := setCell s.raw.cells k d } } := by
  unfold hostWriteRawDigit at h
  split at h
  · next hk => exact ⟨hk, by cases h; rfl⟩
  · cases h

/-- A host write of a text byte that is answered names an existing byte and writes it. -/
theorem hostWriteText_next {k : Nat} {b : Byte} (h : hostWriteText k b s = .next t) :
    k < s.params.textMax ∧ t = { s with tbuf := Memory.write s.tbuf k b } := by
  unfold hostWriteText at h
  split at h
  · next hk => exact ⟨hk, by cases h; rfl⟩
  · cases h

/-- A host read that is answered changes nothing (20_memory.md R47). -/
theorem hostReads_next {p : Port} (h : hostReads p s = .next t) : t = s := by
  unfold hostReads at h
  split at h
  · split at h <;> cases h; rfl
  · split at h <;> cases h; rfl
  all_goals cases h; rfl

/-- A host action other than a presented word and reset writes no field of STATUS (10_state.md R27 to R29). -/
theorem perform_status {a : HostAction} (hw : ∀ w, a ≠ .command w) (hr : a ≠ .reset)
    (h : perform a s = .next t) : t.status = s.status := by
  cases a with
  | command w => exact absurd rfl (hw w)
  | reset => exact absurd rfl hr
  | writeX | writeRawSign | writeCfg => cases h; rfl
  | writeRawLen =>
    obtain ⟨-, rfl⟩ | ⟨-, rfl⟩ := hostWriteRawLen_cases h
    · rfl
    · rfl
  | writeTextLen =>
    obtain ⟨-, rfl⟩ | ⟨-, rfl⟩ := hostWriteTextLen_cases h
    · rfl
    · rfl
  | writeRawDigit => rw [(hostWriteRawDigit_next h).2]
  | writeText => rw [(hostWriteText_next h).2]
  | read => rw [hostReads_next h]

/-- Settles O11: the oversized branch of the host write of `RAW.len`. -/
theorem oversizedRawLenIgnored : Obligations.OversizedRawLenIgnored := by
  intro s n rest hs hn
  rw [step_of_host hs]
  exact if_pos hn

/-- Settles O12: the oversized branch of the host write of `TLEN`. -/
theorem oversizedTextLenIgnored : Obligations.OversizedTextLenIgnored := by
  intro s n rest hs hn
  rw [step_of_host hs]
  exact if_pos hn

/-- Settles O21, from `perform_status`: no other host action writes STATUS. -/
theorem onlyCommandsAndResetWriteErr : Obligations.OnlyCommandsAndResetWriteErr := by
  intro s t h hne
  obtain ⟨-, rfl⟩ | ⟨a, rest, hs, ha⟩ := step_cases h
  · exact absurd rfl hne
  · by_contra hno
    simp only [hs, List.head?_cons, Option.some.injEq, not_or, not_exists] at hno
    obtain ⟨hreset, hword⟩ := hno
    exact hne (by rw [perform_status hword hreset ha, State.withHost_status])

end Sys2Proof.Machine

/-! ### Internal functions that do not abort

`r.Safe P` says that `r` is no abort and that `P` holds of its value when it has one. Each internal function has one
lemma of this form; a function that calls others has it through `Res.Safe.bind`. -/

namespace Sys2Proof.Machine

/-- The outcome is no abort, and its value, if it has one, satisfies `P`. -/
def Res.Safe {α : Type} (P : α → Prop) : Res α → Prop
  | .ok a => P a
  | .abort => False
  | .fail _ | .stuck _ => True

/-- The outcome with `f` applied to its value. -/
def Res.map {α β : Type} (f : α → β) (r : Res α) : Res β := r.bind fun a => .ok (f a)

section Rules

variable {α β : Type} {P : α → Prop} {Q : β → Prop} {r : Res α}

theorem Res.Safe.ne_abort (h : r.Safe P) : r ≠ .abort := by rintro rfl; exact h

theorem Res.Safe.of_eq_ok {a : α} (h : r.Safe P) (hr : r = .ok a) : P a := by subst hr; exact h

theorem Res.Safe.imp {P' : α → Prop} (h : r.Safe P) (himp : ∀ a, P a → P' a) : r.Safe P' := by
  cases r with
  | ok a => exact himp a h
  | abort => exact h
  | fail | stuck => trivial

theorem Res.Safe.bind {f : α → Res β} (h : r.Safe P) (hf : ∀ a, P a → (f a).Safe Q) : (r.bind f).Safe Q := by
  cases r with
  | ok a => exact hf a h
  | abort => exact h
  | fail | stuck => trivial

theorem Res.Safe.map {f : α → β} (h : r.Safe P) (hf : ∀ a, P a → Q (f a)) : (r.map f).Safe Q := h.bind hf

theorem Res.map_eq_ok {f : α → β} {b : β} (h : r.map f = .ok b) : ∃ a, r = .ok a ∧ f a = b := by
  obtain ⟨a, hr, hb⟩ := Res.bind_eq_ok.mp h
  exact ⟨a, hr, by cases hb; rfl⟩

end Rules

/-! ### The magnitude order is asymmetric (41_comparator.md R85) -/

theorem digitsOrder_swap (xs ys : List Digit) : digitsOrder ys xs = (digitsOrder xs ys).swap := by
  induction xs generalizing ys with
  | nil => cases ys <;> rfl
  | cons x xs ih =>
    cases ys with
    | nil => rfl
    | cons y ys =>
      simp only [digitsOrder, ih ys]
      cases digitsOrder xs ys with
      | lt | gt => rfl
      | eq =>
        rcases Nat.lt_trichotomy x.toNat y.toNat with h | h | h
        · simp [h, Nat.lt_asymm h]
        · simp [h]
        · simp [h, Nat.lt_asymm h]

/-- Of two magnitudes at most one is the smaller. -/
theorem Value.mlt_asymm {a b : Value} (h : a.mlt b = true) : b.mlt a = false := by
  unfold Value.mlt at h ⊢
  by_cases hl : a.len = b.len
  · rw [if_neg (not_not.mpr hl)] at h
    rw [if_neg (not_not.mpr hl.symm), digitsOrder_swap, beq_iff_eq.mp h]
    rfl
  · rw [if_pos hl, decide_eq_true_eq] at h
    rw [if_pos (Ne.symm hl), decide_eq_false_iff_not]
    omega

/-- A longer digit sequence is not the smaller magnitude. -/
theorem Value.mlt_of_len_lt {a b : Value} (h : b.len < a.len) : a.mlt b = false := by
  rw [Value.mlt, if_pos (Nat.ne_of_gt h), decide_eq_false_iff_not]
  omega

theorem Value.len_le_of_not_mlt {a b : Value} (h : a.mlt b = false) : b.len ≤ a.len := by
  by_contra hlt
  rw [Value.mlt, if_pos (by omega), decide_eq_false_iff_not] at h
  omega

/-! ### The additive engine -/

/-- A value with sign 0: what the magnitude loops take and give. -/
abbrev Value.Nonneg (a : Value) : Prop := a.sign = false

theorem Value.zero_nonneg : Value.zero.Nonneg := rfl
theorem Value.abs_nonneg (a : Value) : a.abs.Nonneg := rfl

/-- `canon` of sign 0 has sign 0. -/
theorem Value.canon_nonneg (md : Nat) (ds : List Digit) : (Value.canon md false ds).Safe Value.Nonneg := by
  obtain ⟨h, -⟩ | ⟨h, -⟩ | ⟨h, -⟩ := Value.canon_cases md false ds
  all_goals rw [h]; trivial

theorem Value.madd_nonneg (md : Nat) {a b : Value} (ha : a.Nonneg) (hb : b.Nonneg) :
    (Value.madd md a b).Safe Value.Nonneg := by
  rw [Value.madd, if_neg (by simp [ha, hb])]
  exact Value.canon_nonneg ..

theorem Value.msub_nonneg (md : Nat) {a b : Value} (ha : a.Nonneg) (hb : b.Nonneg) (h : a.mlt b = false) :
    (Value.msub md a b).Safe Value.Nonneg := by
  rw [Value.msub, if_neg (by simp [ha, hb]), h]
  exact Value.canon_nonneg ..

/-- The shifter keeps sign 0, of any value by any amount. -/
theorem Value.shl_nonneg (md : Nat) {a : Value} (k : Nat) (ha : a.Nonneg) : (Value.shl md a k).Safe Value.Nonneg := by
  unfold Value.shl
  split
  · exact Value.zero_nonneg
  · split
    · exact Value.zero_nonneg
    · split
      · trivial
      · exact ha

/-- The repeated addition of the single-digit product never aborts (44_multiplier.md R126). -/
theorem addTimes_nonneg (md : Nat) (a : Value) (k : Nat) {p : Value} (hp : p.Nonneg) :
    (addTimes md a k p).Safe Value.Nonneg := by
  induction k generalizing p with
  | zero => exact hp
  | succ k ih => exact (Value.madd_nonneg md hp a.abs_nonneg).bind fun _ => ih

section Capacity

variable {md : Nat} (hmd : 1 ≤ md)
include hmd

theorem Value.canon_canonical (sg : Bool) (ds : List Digit) : (Value.canon md sg ds).Safe (Value.Canonical md) := by
  obtain ⟨a, ha⟩ | hf := Value.canon_outcome md sg ds
  · rw [ha]; exact (Value.canon_ok hmd ha).1
  · rw [hf]; trivial

theorem Value.neg_canonical (a : Value) : (Value.neg md a).Safe (Value.Canonical md) :=
  Value.canon_canonical hmd ..

/-- The sign resolver never aborts, on any two values: it hands the subtractor the smaller magnitude second
(42_additive.md R112). -/
theorem Value.add_canonical (a b : Value) : (Value.add md a b).Safe (Value.Canonical md) := by
  have hcanon (sg : Bool) (m : Value) (_ : m.Nonneg) : (Value.canon md sg m.digits).Safe (Value.Canonical md) :=
    Value.canon_canonical hmd ..
  unfold Value.add
  split
  · exact (Value.madd_nonneg md a.abs_nonneg b.abs_nonneg).bind (hcanon _)
  · split
    · next hlt => exact (Value.msub_nonneg md b.abs_nonneg a.abs_nonneg (Value.mlt_asymm hlt)).bind (hcanon _)
    · next hge =>
      exact (Value.msub_nonneg md a.abs_nonneg b.abs_nonneg (Bool.eq_false_of_not_eq_true hge)).bind (hcanon _)

theorem Value.sub_canonical (a b : Value) : (Value.sub md a b).Safe (Value.Canonical md) :=
  (Value.neg_canonical hmd b).bind fun _ _ => Value.add_canonical hmd ..

/-! ### The shifter and the multiplier -/

theorem Value.shl_canonical {a : Value} (k : Nat) (ha : a.Canonical md) :
    (Value.shl md a k).Safe (Value.Canonical md) := by
  rw [Value.shl_eq_canon md a k (List.length_pos_iff.mp ha.1)]
  exact Value.canon_canonical hmd ..

theorem Value.shr_canonical (a : Value) (k : Nat) : (Value.shr md a k).Safe (Value.Canonical md) := by
  unfold Value.shr
  split
  · exact Value.zero_canonical hmd
  · exact Value.canon_canonical hmd ..

theorem mulLoop_safe (a : Value) (ds : List Digit) (i : Nat) (total : Value) :
    (mulLoop md a ds i total).Safe fun _ => True := by
  induction ds generalizing i total with
  | nil => trivial
  | cons d ds ih =>
    exact (addTimes_nonneg md a d.toNat Value.zero_nonneg).bind fun p hp =>
      (Value.shl_nonneg md i hp).bind fun q _ => (Value.add_canonical hmd total q).bind fun t _ => ih (i + 1) t

/-- The multiplier never aborts, on any two values (44_multiplier.md R129). -/
theorem Value.mul_canonical (a b : Value) : (Value.mul md a b).Safe (Value.Canonical md) := by
  unfold Value.mul
  split
  · exact Value.zero_canonical hmd
  split
  · exact Value.canon_canonical hmd ..
  split
  · exact Value.canon_canonical hmd ..
  split
  · trivial
  · exact (mulLoop_safe hmd ..).bind fun _ _ => Value.canon_canonical hmd ..

end Capacity

/-! ### The divider

The estimate of a turn is never above the remainder (45_divider.md R134), so the subtractor's precondition holds. -/

/-- A divisor as the loop takes it: sign 0, its top digit not zero. -/
def Value.Divisor (b : Value) : Prop := b.Nonneg ∧ b.dig (b.len - 1) ≠ 0#4

theorem Value.Canonical.abs_divisor {md : Nat} {b : Value} (hb : b.Canonical md) (hz : b ≠ .zero) : b.abs.Divisor := by
  obtain ⟨-, -, htop | hzero, -⟩ := hb
  · exact ⟨b.abs_nonneg, htop⟩
  · exact absurd hzero hz

theorem Value.ten_canonical {md : Nat} (hmd : 1 ≤ md) : Value.ten.Canonical md :=
  ⟨by decide, hmd, .inl (by decide), by decide⟩

theorem top_replicate_append {ds : List Digit} (k : Nat) (h : ds.getD (ds.length - 1) 0#4 ≠ 0#4) :
    (List.replicate k 0#4 ++ ds).getD ((List.replicate k 0#4 ++ ds).length - 1) 0#4 ≠ 0#4 := by
  have hne : ds.length ≠ 0 := fun h0 => by simp [List.length_eq_zero_iff.mp h0] at h
  have htop : (List.replicate k 0#4 ++ ds).length - 1 = k + (ds.length - 1) := by simp; omega
  rw [htop, List.getD_append_right _ _ _ _ (by simp)]
  simpa using h

/-- A digit sequence whose top digit is not zero is kept by `canon`, when it fits. -/
theorem Value.canon_of_top (md : Nat) (sg : Bool) {ds : List Digit} (h : ds.getD (ds.length - 1) 0#4 ≠ 0#4) :
    (Value.canon md sg ds).Safe fun v => v = ⟨sg, ds⟩ := by
  obtain ⟨-, hzero⟩ | ⟨hc, -⟩ | ⟨hc, -⟩ := Value.canon_cases md sg ds
  · exact absurd hzero (magOf_pos h).ne'
  · rw [hc]; trivial
  · rw [hc, stripHigh_of_stripped (.inr h)]; rfl

/-- Shifting a divisor, when the result fits, puts the zeros below its digits. -/
theorem Value.Divisor.shl_safe {b : Value} (hb : b.Divisor) (md k : Nat) :
    (Value.shl md b k).Safe fun v => v = ⟨false, List.replicate k 0#4 ++ b.digits⟩ := by
  obtain ⟨hsign, htop⟩ := hb
  have hne : b.digits ≠ [] := fun h => by simp [Value.dig, h] at htop
  rw [Value.shl_eq_canon md b k hne, hsign]
  exact Value.canon_of_top md false (top_replicate_append k htop)

theorem Value.mlt_congr_right (a : Value) {b c : Value} (h : b.digits = c.digits) : a.mlt b = a.mlt c := by
  unfold Value.mlt Value.len
  rw [h]

/-- The estimate is not above the remainder: the shift by the difference of the lengths is checked, and the shift by one
less is a digit shorter than the remainder. -/
theorem divEstimate_safe (md : Nat) {rem divisor : Value} (hd : divisor.Divisor) (hge : rem.mlt divisor = false) :
    (divEstimate md rem divisor).Safe fun e => e.2.Nonneg ∧ rem.mlt e.2 = false := by
  have hlen := Value.len_le_of_not_mlt hge
  refine (hd.shl_safe md (rem.len - divisor.len)).bind ?_
  rintro sh rfl
  split
  · next hover =>
    have hpos : rem.len - divisor.len ≠ 0 := by
      intro hz
      rw [Value.mlt_congr_right rem (c := divisor) (by simp [hz]), hge] at hover
      cases hover
    refine (hd.shl_safe md (rem.len - divisor.len - 1)).bind ?_
    rintro sh rfl
    refine ⟨rfl, Value.mlt_of_len_lt ?_⟩
    calc (List.replicate (rem.len - divisor.len - 1) 0#4 ++ divisor.digits).length
        = rem.len - divisor.len - 1 + divisor.len := by simp [Value.len]
      _ < rem.len := by omega
  · next hle => exact ⟨rfl, Bool.eq_false_of_not_eq_true hle⟩

/-- A turn keeps the signs of the remainder and the quotient at 0. -/
theorem divTurn_nonneg (md : Nat) {divisor rem quo : Value} (hd : divisor.Divisor) (hge : rem.mlt divisor = false)
    (hr : rem.Nonneg) (hq : quo.Nonneg) : (divTurn md divisor rem quo).Safe fun p => p.1.Nonneg ∧ p.2.Nonneg :=
  (divEstimate_safe md hd hge).bind fun e ⟨he, hle⟩ =>
    (Value.msub_nonneg md hr he hle).bind fun _ hrem' =>
      (Value.shl_nonneg md e.1 (a := .one) rfl).bind fun _ hunit =>
        (Value.madd_nonneg md hq hunit).bind fun _ hquo' => ⟨hrem', hquo'⟩

theorem divLoop_safe (md : Nat) {divisor : Value} (hd : divisor.Divisor) (turns : Nat) {rem quo : Value}
    (hr : rem.Nonneg) (hq : quo.Nonneg) : (divLoop md divisor turns rem quo).Safe fun _ => True := by
  induction turns generalizing rem quo with
  | zero =>
    rw [divLoop]
    split
    · trivial
    · trivial
  | succ turns ih =>
    rw [divLoop]
    split
    · trivial
    · next hge =>
      exact (divTurn_nonneg md hd (Bool.eq_false_of_not_eq_true hge) hr hq).bind fun _ ⟨hrem, hquo⟩ => ih hrem hquo

section Capacity

variable {md : Nat} (hmd : 1 ≤ md)
include hmd

/-- The divider never aborts by a canonical divisor, and what it gives is canonical (45_divider.md R140). -/
theorem Value.divrem_canonical (a : Value) {b : Value} (hb : b.Canonical md) :
    (Value.divrem md a b).Safe fun p => p.1.Canonical md ∧ p.2.Canonical md := by
  unfold Value.divrem
  split
  · trivial
  · next hz =>
    exact (divLoop_safe md (hb.abs_divisor hz) _ a.abs_nonneg Value.zero_nonneg).bind fun _ _ =>
      (Value.canon_canonical hmd ..).bind fun _ hq => (Value.canon_canonical hmd ..).bind fun _ hr => ⟨hq, hr⟩

/-! ### The codec -/

theorem decAccumulate_safe (run : List Byte) (v : Value) : (decAccumulate md run v).Safe fun _ => True := by
  induction run generalizing v with
  | nil => trivial
  | cons c cs ih =>
    exact (Value.mul_canonical hmd v .ten).bind fun p _ =>
      (Value.canon_canonical hmd false [decValue c]).bind fun d _ =>
        (Value.add_canonical hmd p d).bind fun v' _ => ih v'

theorem parseValue_canonical (t : List Byte) : (parseValue md t).Safe (Value.Canonical md) := by
  have hsign (m : Value) (_ : True) : (Value.canon md (takeSign t).1 m.digits).Safe (Value.Canonical md) :=
    Value.canon_canonical hmd ..
  simp only [parseValue]
  split
  · exact ((Value.canon_canonical hmd ..).imp fun _ _ => trivial).bind hsign
  · exact (decAccumulate_safe hmd ..).bind hsign

theorem fmtdLoop_safe (turns : Nat) (m : Value) (out : List Byte) :
    (fmtdLoop md turns m out).Safe fun _ => True := by
  induction turns generalizing m out with
  | zero => trivial
  | succ turns ih =>
    refine (Value.divrem_canonical hmd m (Value.ten_canonical hmd)).bind fun p _ => ?_
    split
    · trivial
    · exact ih ..

theorem fmtd_safe (a : Value) : (fmtd md a).Safe fun _ => True :=
  (fmtdLoop_safe hmd ..).bind fun _ _ => trivial

theorem fromint_canonical (n : Int) : (fromint md n).Safe (Value.Canonical md) := Value.canon_canonical hmd ..

end Capacity

theorem toint_safe (w : Nat) (a : Value) : (toint w a).Safe fun _ => True := by
  simp only [toint]
  split
  · trivial
  · trivial

theorem State.shiftDigits_safe (s : State) (x : XReg) : (s.shiftDigits x).Safe fun _ => True := by
  unfold State.shiftDigits
  split
  · trivial
  · trivial

end Sys2Proof.Machine

/-! ### Every command as one outcome and one write

`exec_eq` gives all 31 commands one form: an outcome computed from the state (`outcomeOf`), and the write of its
result (`Result.write`). What holds of every command is then proved about the outcome and about the four writes. -/

namespace Sys2Proof.Machine

/-- What a command that succeeds writes (10_state.md R35). -/
inductive Result where
  | value (rd : VReg) (a : Value)
  | values (rd rd2 : VReg) (p : Value × Value)
  | scalar (rd : XReg) (n : Int)
  | text (out : List Byte)

/-- The state with the result in its destinations. -/
def Result.write : Result → State → State
  | .value rd a, s => s.writeV rd a
  | .values rd rd2 p, s => (s.writeV rd p.1).writeV rd2 p.2
  | .scalar rd n, s => s.writeX rd n
  | .text out, s => s.writeText out

/-- A text that fits the buffer (20_memory.md R49). -/
def fitText (textMax : Nat) (out : List Byte) : Res (List Byte) :=
  if out.length ≤ textMax then .ok out else .stuck (.textOutOfRange textMax)

/-- The value PARSE gives (46_text_codec.md R147, R148, R152). -/
def State.parseOutcome (s : State) : Res Value :=
  if s.params.textMax < s.tlen then .stuck (.textOutOfRange s.params.textMax)
  else if malformed s.text then if s.cfg.pcompat then .ok .zero else .fail .parseError
  else parseValue s.params.maxDigits s.text

/-- Whether PARSE warns (46_text_codec.md R148). -/
def State.parseWarns (s : State) : Bool := malformed s.text && s.cfg.pcompat

/-- The outcome of a command, with what it writes on success. -/
def outcomeOf (i : Instr) (s : State) : Res Result :=
  let md := s.params.maxDigits
  match i with
  | .canon rd => (Value.canon md s.raw.sign s.rawDigits).map (.value rd)
  | .mov rd a => .ok (.value rd (s.readV a))
  | .len rd a => .ok (.scalar rd (s.readV a).len)
  | .digit rd a x => .ok (.scalar rd ((s.readV a).dig (s.uX x)).toNat)
  | .isneg rd a => .ok (.scalar rd (truth (s.readV a).sign))
  | .mlt rd a b => .ok (.scalar rd (truth ((s.readV a).mlt (s.readV b))))
  | .cmplt rd a b => .ok (.scalar rd (truth ((s.readV a).slt (s.readV b))))
  | .cmple rd a b => .ok (.scalar rd (truth ((s.readV a).slt (s.readV b) || (s.readV a).eq (s.readV b))))
  | .cmpgt rd a b => .ok (.scalar rd (truth ((s.readV b).slt (s.readV a))))
  | .cmpge rd a b => .ok (.scalar rd (truth ((s.readV b).slt (s.readV a) || (s.readV a).eq (s.readV b))))
  | .cmpeq rd a b => .ok (.scalar rd (truth ((s.readV a).eq (s.readV b))))
  | .cmpne rd a b => .ok (.scalar rd (truth (!(s.readV a).eq (s.readV b))))
  | .madd rd a b => (Value.madd md (s.readV a) (s.readV b)).map (.value rd)
  | .msub rd a b => (Value.msub md (s.readV a) (s.readV b)).map (.value rd)
  | .add rd a b => (Value.add md (s.readV a) (s.readV b)).map (.value rd)
  | .sub rd a b => (Value.sub md (s.readV a) (s.readV b)).map (.value rd)
  | .neg rd a => (Value.neg md (s.readV a)).map (.value rd)
  | .inc rd a => (Value.add md (s.readV a) .one).map (.value rd)
  | .dec rd a => (Value.sub md (s.readV a) .one).map (.value rd)
  | .shl rd a x => ((s.shiftDigits x).bind (Value.shl md (s.readV a))).map (.value rd)
  | .shr rd a x => ((s.shiftDigits x).bind (Value.shr md (s.readV a))).map (.value rd)
  | .mul rd a b => (Value.mul md (s.readV a) (s.readV b)).map (.value rd)
  | .div rd a b => (Value.divrem md (s.readV a) (s.readV b)).map fun p => .value rd p.1
  | .mod rd a b => (Value.divrem md (s.readV a) (s.readV b)).map fun p => .value rd p.2
  | .divrem rd rd2 a b => (Value.divrem md (s.readV a) (s.readV b)).map (.values rd rd2)
  | .parse rd => s.parseOutcome.map (.value rd)
  | .fmtd a => ((fmtd md (s.readV a)).bind (fitText s.params.textMax)).map .text
  | .fmth a => (fitText s.params.textMax (fmth (s.readV a))).map .text
  | .fmto _ => .fail .unsupportedFormat
  | .fromint rd x => (fromint md (s.sX x)).map (.value rd)
  | .toint rd a => (toint s.params.width (s.readV a)).map (.scalar rd)

/-- The state a command writes its outcome to: PARSE has recorded its warning (10_state.md R29). -/
def prepared (i : Instr) (s : State) : State := if isParse i then s.setWarn s.parseWarns else s

theorem finish_map {α β : Type} (f : α → β) (r : Res α) (w : β → State → State) (s : State) :
    finish (r.map f) w s = finish r (fun a => w (f a)) s := by
  cases r <;> rfl

theorem execParse_eq (rd : VReg) (s : State) :
    execParse rd s = finish (s.parseOutcome.map (.value rd)) Result.write (s.setWarn s.parseWarns) := by
  rw [finish_map]
  unfold execParse State.parseOutcome State.parseWarns
  split
  · rfl
  · cases malformed s.text with
    | false => rfl
    | true => cases s.cfg.pcompat <;> rfl

/-- Every command ends through `finish`, with its outcome and its result's write. -/
theorem exec_eq (i : Instr) (s : State) : exec i s = finish (outcomeOf i s) Result.write (prepared i s) := by
  cases i with
  | mov | len | digit | isneg | mlt | cmplt | cmple | cmpgt | cmpge | cmpeq | cmpne | fmto => rfl
  | parse rd => exact execParse_eq rd s
  | canon | madd | msub | add | sub | neg | inc | dec | shl | shr | mul | fromint =>
    exact (finish_map (.value _) _ Result.write s).symm
  | toint => exact (finish_map (.scalar _) _ Result.write s).symm
  | div rd => exact (finish_map (fun p : Value × Value => .value rd p.1) _ Result.write s).symm
  | mod rd => exact (finish_map (fun p : Value × Value => .value rd p.2) _ Result.write s).symm
  | divrem => exact (finish_map (.values _ _) _ Result.write s).symm
  | fmtd | fmth => exact (finish_map .text _ Result.write s).symm

/-- Everything a command that answers a next state can do. -/
theorem exec_cases {i : Instr} {s t : State} (h : exec i s = .next t) :
    (∃ r, outcomeOf i s = .ok r ∧ t = (r.write (prepared i s)).succeed) ∨
      (∃ k, outcomeOf i s = .fail k ∧ t = (prepared i s).failWith k) ∨
      (outcomeOf i s = .abort ∧ t = (prepared i s).abortBlock) := by
  rw [exec_eq] at h
  exact finish_next h

/-- Preparing writes STATUS.WARN at most. -/
theorem prepared_eq (i : Instr) (s : State) : ∃ b, prepared i s = s.setWarn b := by
  unfold prepared
  split
  · exact ⟨_, rfl⟩
  · exact ⟨s.status.warn, rfl⟩

theorem prepared_of_not_parse {i : Instr} (s : State) (h : isParse i = false) : prepared i s = s := by
  simp [prepared, h]

end Sys2Proof.Machine

namespace Sys2Proof.Machine

/-! ### What a result may be, and when a command aborts -/

/-- A result the invariant admits in its destinations (10_state.md R18, R24). -/
def Result.Legal (p : Params) : Result → Prop
  | .value _ a => a.Canonical p.maxDigits
  | .values _ _ q => q.1.Canonical p.maxDigits ∧ q.2.Canonical p.maxDigits
  | .scalar _ _ => True
  | .text out => out.length ≤ p.textMax

theorem fitText_safe (textMax : Nat) (out : List Byte) :
    (fitText textMax out).Safe fun out => out.length ≤ textMax := by
  unfold fitText
  split
  · next h => exact h
  · trivial

theorem State.parseOutcome_canonical {s : State} (hmd : 1 ≤ s.params.maxDigits) :
    s.parseOutcome.Safe (Value.Canonical s.params.maxDigits) := by
  unfold State.parseOutcome
  split
  · trivial
  split
  · split
    · exact Value.zero_canonical hmd
    · trivial
  · exact parseValue_canonical hmd s.text

/-- A violated precondition aborts, in any state (60_exceptions.md R191, R192). -/
theorem outcomeOf_of_violates {s : State} {i : Instr} (h : Violates s i) : outcomeOf i s = .abort := by
  cases i with
  | madd rd a b =>
    have hab : Value.madd s.params.maxDigits (s.readV a) (s.readV b) = .abort := if_pos (by simpa [Violates] using h)
    simp [outcomeOf, hab, Res.map]
  | msub rd a b =>
    have hab : Value.msub s.params.maxDigits (s.readV a) (s.readV b) = .abort := by
      obtain h | h | h := h <;> simp [Value.msub, h]
    simp [outcomeOf, hab, Res.map]
  | _ => exact absurd h id

section Canonical

variable {s : State} (hmd : 1 ≤ s.params.maxDigits) (hv : ∀ j, (s.readV j).Canonical s.params.maxDigits)
include hmd

theorem madd_canonical_of_not_violates {rd a b : VReg} (h : ¬ Violates s (.madd rd a b)) :
    (Value.madd s.params.maxDigits (s.readV a) (s.readV b)).Safe (Value.Canonical s.params.maxDigits) := by
  rw [Value.madd, if_neg (by simpa [Violates] using h)]
  exact Value.canon_canonical hmd ..

theorem msub_canonical_of_not_violates {rd a b : VReg} (h : ¬ Violates s (.msub rd a b)) :
    (Value.msub s.params.maxDigits (s.readV a) (s.readV b)).Safe (Value.Canonical s.params.maxDigits) := by
  simp only [Violates, not_or] at h
  obtain ⟨ha, hb, hlt⟩ := h
  rw [Value.msub, if_neg (by simp [ha, hb]), if_neg hlt]
  exact Value.canon_canonical hmd ..

include hv

/-- On canonical registers a command whose precondition holds does not abort, and its result is one the invariant
admits. -/
theorem outcomeOf_legal {i : Instr} (h : ¬ Violates s i) : (outcomeOf i s).Safe (Result.Legal s.params) := by
  have value {r : Res Value} (rd : VReg) (hr : r.Safe (Value.Canonical s.params.maxDigits)) :
      (r.map (.value rd)).Safe (Result.Legal s.params) := hr.map fun _ h => h
  cases i with
  | len | digit | isneg | mlt | cmplt | cmple | cmpgt | cmpge | cmpeq | cmpne | fmto => trivial
  | mov rd a => exact hv a
  | canon rd => exact value rd (Value.canon_canonical hmd ..)
  | madd rd a b => exact value rd (madd_canonical_of_not_violates hmd h)
  | msub rd a b => exact value rd (msub_canonical_of_not_violates hmd h)
  | add rd a b => exact value rd (Value.add_canonical hmd ..)
  | sub rd a b => exact value rd (Value.sub_canonical hmd ..)
  | neg rd a => exact value rd (Value.neg_canonical hmd _)
  | inc rd a => exact value rd (Value.add_canonical hmd ..)
  | dec rd a => exact value rd (Value.sub_canonical hmd ..)
  | shl rd a x => exact value rd ((s.shiftDigits_safe x).bind fun k _ => Value.shl_canonical hmd k (hv a))
  | shr rd a x => exact value rd ((s.shiftDigits_safe x).bind fun k _ => Value.shr_canonical hmd _ k)
  | mul rd a b => exact value rd (Value.mul_canonical hmd ..)
  | div rd a b => exact (Value.divrem_canonical hmd _ (hv b)).map fun p hp => hp.1
  | mod rd a b => exact (Value.divrem_canonical hmd _ (hv b)).map fun p hp => hp.2
  | divrem rd rd2 a b => exact (Value.divrem_canonical hmd _ (hv b)).map fun p hp => hp
  | parse rd => exact value rd (State.parseOutcome_canonical hmd)
  | fmtd a => exact ((fmtd_safe hmd _).bind fun out _ => fitText_safe _ out).map fun _ h => h
  | fmth a => exact (fitText_safe ..).map fun _ h => h
  | fromint rd x => exact value rd (fromint_canonical hmd _)
  | toint rd a => exact (toint_safe ..).map fun _ _ => trivial

/-- On canonical registers a command aborts exactly when it violates its precondition (60_exceptions.md R191). -/
theorem outcomeOf_eq_abort_iff (i : Instr) : outcomeOf i s = .abort ↔ Violates s i :=
  ⟨fun ha => by_contra fun hn => (outcomeOf_legal hmd hv hn).ne_abort ha, outcomeOf_of_violates⟩

theorem legal_of_outcomeOf_ok {i : Instr} {r : Result} (h : outcomeOf i s = .ok r) : r.Legal s.params := by
  have hn : ¬ Violates s i := fun hviol => by rw [outcomeOf_of_violates hviol] at h; cases h
  exact (outcomeOf_legal hmd hv hn).of_eq_ok h

end Canonical

theorem prepared_abort (i : Instr) (s : State) : (prepared i s).status.abort = s.status.abort := by
  obtain ⟨b, hb⟩ := prepared_eq i s
  rw [hb, State.setWarn_status]

/-- A result's write leaves STATUS. -/
@[simp] theorem Result.write_status (r : Result) (s : State) : (r.write s).status = s.status := by
  cases r <;> rfl

/-- A command leaves STATUS.ABORT at 1 exactly when it was 1 or the command violates its precondition. -/
theorem exec_abort_iff {i : Instr} {s t : State} (hmd : 1 ≤ s.params.maxDigits)
    (hv : ∀ j, (s.readV j).Canonical s.params.maxDigits) (ha : s.status.abort = false) (h : exec i s = .next t) :
    t.status.abort = true ↔ Violates s i := by
  rw [← outcomeOf_eq_abort_iff hmd hv i]
  obtain ⟨r, hr, rfl⟩ | ⟨k, hk, rfl⟩ | ⟨habort, rfl⟩ := exec_cases h
  · simp [prepared_abort, ha, hr]
  · simp [prepared_abort, ha, hk]
  · simp [habort]

/-- Settles O8: a command's part is `exec_abort_iff`, the other host actions' `perform_status`. -/
theorem abortIsSetByViolationAndClearedByReset : Obligations.AbortIsSetByViolationAndClearedByReset := by
  intro s t hinv h
  obtain ⟨⟨hmd, -⟩, hv, -⟩ := hinv
  obtain ⟨hs, rfl⟩ | ⟨a, rest, hs, ha⟩ := step_cases h
  · simp [hs]
  by_cases hreset : a = .reset
  · subst hreset; cases ha
    simp [hs]
  by_cases hword : ∃ w, a = .command w
  · obtain ⟨w, rfl⟩ := hword
    obtain ⟨hab, rfl⟩ | ⟨hab, ⟨why, hd⟩, rfl⟩ | ⟨hab, i, hd, hexec⟩ := presentWord_cases ha
    · rw [State.withHost_status] at hab
      simp [hs, hab]
    · rw [State.withHost_status] at hab
      simp [hs, hab, hd]
    · have hiff : t.status.abort = true ↔ Violates s i := exec_abort_iff (s := s.withHost rest) hmd hv hab hexec
      rw [State.withHost_status] at hab
      simp [hs, hab, hd, hiff]
  · rw [perform_status (not_exists.mp hword) hreset ha, State.withHost_status]
    simp [hs, hreset, not_exists.mp hword]

end Sys2Proof.Machine

namespace Sys2Proof.Machine

/-! ### Every step keeps the invariant (10_state.md R18 to R25, 60_exceptions.md R183) -/

section Invariant

variable {s : State}

theorem State.Inv.writeV (h : s.Inv) (i : VReg) {a : Value} (ha : a.Canonical s.params.maxDigits) :
    (s.writeV i a).Inv := by
  obtain ⟨hp, hv, hrest⟩ := h
  refine ⟨hp, fun j => ?_, hrest⟩
  rw [State.readV_writeV]
  split
  · exact ha
  · exact hv j

theorem State.Inv.writeX (h : s.Inv) (i : XReg) (n : Int) : (s.writeX i n).Inv := by
  obtain ⟨hp, hv, hx, hrest⟩ := h
  refine ⟨hp, hv, fun j => ?_, hrest⟩
  rw [State.writeX_x, RegFile.get_set]
  split
  · exact s.writeX_lt n
  · exact hx j

theorem State.Inv.withRaw (h : s.Inv) {raw : Raw} (hcells : raw.cells.length = Config.rawMax s.params)
    (hlen : raw.len ≤ Config.rawMax s.params) : { s with raw := raw }.Inv := by
  obtain ⟨hp, hv, hx, -, -, hrest⟩ := h
  exact ⟨hp, hv, hx, hcells, hlen, hrest⟩

theorem State.Inv.withText (h : s.Inv) {tbuf : List Host.Cell} {tlen : Nat} (hwf : Memory.wf tbuf = true)
    (hcells : ∀ c ∈ tbuf, c.1 < s.params.textMax) (hlen : tlen ≤ s.params.textMax) :
    { s with tbuf := tbuf, tlen := tlen }.Inv := by
  obtain ⟨hp, hv, hx, hraw, hrawLen, -, -, -, hstatus⟩ := h
  exact ⟨hp, hv, hx, hraw, hrawLen, hwf, hcells, hlen, hstatus⟩

theorem State.Inv.withStatus (h : s.Inv) {st : Status} (herr : LegalErr st.err)
    (habort : st.abort = true ↔ st.err = 0xFF#8) : { s with status := st }.Inv := by
  obtain ⟨hp, hv, hx, hraw, hrawLen, hwf, hcells, hlen, -, -⟩ := h
  exact ⟨hp, hv, hx, hraw, hrawLen, hwf, hcells, hlen, herr, habort⟩

theorem State.Inv.setWarn (h : s.Inv) (b : Bool) : (s.setWarn b).Inv := h

theorem State.Inv.withCfg (h : s.Inv) (c : Cfg) : { s with cfg := c }.Inv := h

theorem State.Inv.withHost (h : s.Inv) (as : List HostAction) : (s.withHost as).Inv := h

/-! ### The ends of a command -/

theorem State.Inv.succeed (h : s.Inv) (ha : s.status.abort = false) : s.succeed.Inv :=
  h.withStatus (.inl (by simp [successCode])) (by simp [ha, successCode])

theorem errorCode_ne_zero (k : ErrorKind) : errorCode k ≠ 0#8 := by cases k <;> decide

theorem errorCode_legal (k : ErrorKind) : LegalErr (errorCode k) ∧ errorCode k ≠ 0xFF#8 := by
  cases k <;> decide

theorem State.Inv.failWith (h : s.Inv) (ha : s.status.abort = false) (k : ErrorKind) : (s.failWith k).Inv :=
  h.withStatus (errorCode_legal k).1 (by simp [ha, (errorCode_legal k).2])

theorem State.Inv.abortBlock (h : s.Inv) : s.abortBlock.Inv :=
  h.withStatus (.inr rfl) (by simp [abortedCode])

theorem State.Inv.discardWord (h : s.Inv) (ha : s.status.abort = true) : s.discardWord.Inv :=
  h.withStatus (.inr rfl) (by simp [ha, abortedCode])

theorem State.Inv.writeText (h : s.Inv) {out : List Byte} (hout : out.length ≤ s.params.textMax) :
    (s.writeText out).Inv := by
  have ⟨_, _, _, _, _, hwf, hcells, _⟩ := h
  refine h.withText (Memory.writeAll_wf 0 out hwf) (fun c hc => ?_) hout
  rcases Memory.mem_writeAll hc with ⟨-, hlt⟩ | hold
  · omega
  · exact hcells c hold

theorem State.Inv.writeResult (h : s.Inv) {r : Result} (hr : r.Legal s.params) : (r.write s).Inv := by
  cases r with
  | value rd a => exact h.writeV rd hr
  | values rd rd2 p =>
    obtain ⟨hq, hrem⟩ := hr
    exact (h.writeV rd hq).writeV rd2 hrem
  | scalar rd n => exact h.writeX rd n
  | text out => exact h.writeText hr

/-- A command of a block that has not aborted keeps the invariant. -/
theorem State.Inv.exec {i : Instr} {t : State} (h : s.Inv) (ha : s.status.abort = false)
    (hexec : exec i s = .next t) : t.Inv := by
  have ⟨⟨hmd, _⟩, hv, _⟩ := h
  obtain ⟨b, hb⟩ := prepared_eq i s
  have hprep := h.setWarn b
  have haprep : (s.setWarn b).status.abort = false := ha
  have hcases := exec_cases hexec
  rw [hb] at hcases
  obtain ⟨r, hr, rfl⟩ | ⟨k, -, rfl⟩ | ⟨-, rfl⟩ := hcases
  · have hlegal : r.Legal (s.setWarn b).params := legal_of_outcomeOf_ok hmd hv hr
    exact (hprep.writeResult hlegal).succeed (by rw [Result.write_status, haprep])
  · exact hprep.failWith haprep k
  · exact hprep.abortBlock

theorem State.Inv.presentWord {w : CommandWord} {t : State} (h : s.Inv) (hw : presentWord w s = .next t) : t.Inv := by
  obtain ⟨ha, rfl⟩ | ⟨ha, -, rfl⟩ | ⟨ha, i, -, hexec⟩ := presentWord_cases hw
  · exact h.discardWord ha
  · exact h.failWith ha .illegalCommand
  · exact h.exec ha hexec

/-- One action of the host keeps the invariant. -/
theorem State.Inv.perform {a : HostAction} {t : State} (h : s.Inv) (ha : perform a s = .next t) : t.Inv := by
  have ⟨hp, _, _, hcells, hrawLen, hwf, hbytes, htlen, _⟩ := h
  cases a with
  | command w => exact h.presentWord ha
  | reset => cases ha; exact State.resetWith_inv hp s.host
  | writeX i n => cases ha; exact h.writeX i n
  | writeRawSign b => cases ha; exact h.withRaw hcells hrawLen
  | writeRawLen n =>
    obtain ⟨-, rfl⟩ | ⟨hn, rfl⟩ := hostWriteRawLen_cases ha
    · exact h
    · exact h.withRaw hcells hn
  | writeRawDigit k d =>
    obtain ⟨-, rfl⟩ := hostWriteRawDigit_next ha
    exact h.withRaw (by rw [setCell, List.length_set, hcells]) hrawLen
  | writeText k b =>
    obtain ⟨hk, rfl⟩ := hostWriteText_next ha
    refine h.withText (Memory.write_wf k b hwf) (fun c hc => ?_) htlen
    rcases Memory.mem_write hc with rfl | hold
    · exact hk
    · exact hbytes c hold
  | writeTextLen n =>
    obtain ⟨-, rfl⟩ | ⟨hn, rfl⟩ := hostWriteTextLen_cases ha
    · exact h
    · exact h.withText hwf hbytes hn
  | writeCfg w => cases ha; exact h.withCfg (cfgOfWord w)
  | read p => rw [hostReads_next ha]; exact h

end Invariant

/-- Settles O16: the idle step is the same state, and one action keeps the invariant by `State.Inv.perform`. -/
theorem stepKeepsTheInvariant : Obligations.StepKeepsTheInvariant := by
  intro s t hinv h
  obtain ⟨-, rfl⟩ | ⟨a, rest, -, ha⟩ := step_cases h
  · exact hinv
  · exact (hinv.withHost rest).perform ha

/-! ### What a command leaves and what it reads (10_state.md R35) -/

/-- The value registers a result is written to. -/
def Result.destV : Result → List VReg
  | .value rd _ => [rd]
  | .values rd rd2 _ => [rd, rd2]
  | .scalar _ _ | .text _ => []

/-- The scalar registers a result is written to. -/
def Result.destX : Result → List XReg
  | .scalar rd _ => [rd]
  | .value _ _ | .values _ _ _ | .text _ => []

/-- Whether a result is written to the text buffer. -/
def Result.isText : Result → Bool
  | .text _ => true
  | .value _ _ | .values _ _ _ | .scalar _ _ => false

/-- A command that succeeds writes all its destinations and no others. -/
theorem outcomeOf_ok_dests {i : Instr} {s : State} {r : Result} (h : outcomeOf i s = .ok r) :
    r.destV = destV i ∧ r.destX = destX i ∧ r.isText = writesText i := by
  cases i with
  | mov | len | digit | isneg | mlt | cmplt | cmple | cmpgt | cmpge | cmpeq | cmpne =>
    cases h; exact ⟨rfl, rfl, rfl⟩
  | fmto => cases h
  | canon | madd | msub | add | sub | neg | inc | dec | shl | shr | mul | div | mod | divrem | parse | fmtd | fmth
  | fromint | toint =>
    obtain ⟨a, -, rfl⟩ := Res.map_eq_ok h
    exact ⟨rfl, rfl, rfl⟩

section Write

variable (r : Result) (s : State)

@[simp] theorem Result.write_params : (r.write s).params = s.params := by cases r <;> rfl
@[simp] theorem Result.write_raw : (r.write s).raw = s.raw := by cases r <;> rfl
@[simp] theorem Result.write_cfg : (r.write s).cfg = s.cfg := by cases r <;> rfl
@[simp] theorem Result.write_host : (r.write s).host = s.host := by cases r <;> rfl

theorem State.uX_writeX (i j : XReg) (n : Int) :
    (s.writeX i n).uX j = if j = i then (BitVec.ofInt s.params.width n).toNat else s.uX j := by
  rw [State.uX_eq, State.uX_eq, State.writeX_x, State.writeX_params, RegFile.get_set]
  split
  · exact Nat.mod_eq_of_lt (s.writeX_lt n)
  · rfl

variable {r s}

theorem Result.readV_write_other {j : VReg} (hj : j ∉ r.destV) : (r.write s).readV j = s.readV j := by
  cases r with
  | value rd a => rw [Result.write, State.readV_writeV, if_neg (by simpa [Result.destV] using hj)]
  | values rd rd2 p =>
    simp only [Result.destV, List.mem_cons, List.not_mem_nil, or_false, not_or] at hj
    obtain ⟨hrd, hrd2⟩ := hj
    rw [Result.write, State.readV_writeV, if_neg hrd2, State.readV_writeV, if_neg hrd]
  | scalar | text => rfl

theorem Result.uX_write_other {j : XReg} (hj : j ∉ r.destX) : (r.write s).uX j = s.uX j := by
  cases r with
  | scalar rd n => rw [Result.write, State.uX_writeX, if_neg (by simpa [Result.destX] using hj)]
  | value | values | text => rfl

theorem Result.text_write_other (hr : r.isText = false) : (r.write s).tbuf = s.tbuf ∧ (r.write s).tlen = s.tlen := by
  cases r with
  | text => cases hr
  | value | values | scalar => exact ⟨rfl, rfl⟩

/-- A destination register reads the same after the write, whatever the state before. -/
theorem Result.readV_write_dest {j : VReg} (hj : j ∈ r.destV) (s s' : State) :
    (r.write s).readV j = (r.write s').readV j := by
  cases r with
  | value rd a =>
    obtain rfl : j = rd := by simpa [Result.destV] using hj
    rw [Result.write, State.readV_writeV, Result.write, State.readV_writeV, if_pos rfl, if_pos rfl]
  | values rd rd2 p =>
    have hj : ¬ j = rd2 → j = rd := by simp only [Result.destV, List.mem_cons, List.not_mem_nil] at hj; tauto
    simp only [Result.write, State.readV_writeV]
    split
    · rfl
    · next hne => rw [if_pos (hj hne), if_pos (hj hne)]
  | scalar | text => cases hj

theorem Result.uX_write_dest {j : XReg} (hj : j ∈ r.destX) {s s' : State} (hp : s.params = s'.params) :
    (r.write s).uX j = (r.write s').uX j := by
  cases r with
  | scalar rd n =>
    obtain rfl : j = rd := by simpa [Result.destX] using hj
    rw [Result.write, State.uX_writeX, Result.write, State.uX_writeX, if_pos rfl, if_pos rfl, hp]
  | value | values | text => cases hj

/-- A text written into a buffer in canonical form reads back. -/
theorem State.text_writeText (hwf : Memory.wf s.tbuf = true) (out : List Byte) : (s.writeText out).text = out := by
  have hlen : (s.writeText out).text.length = out.length := Memory.readAll_length ..
  refine List.ext_getElem hlen fun k hk hk' => ?_
  calc (s.writeText out).text[k] = Memory.read (Memory.writeAll s.tbuf 0 out) (0 + k) := Memory.readAll_getElem ..
    _ = out[k] := by rw [Memory.read_writeAll 0 out _ hwf, if_pos (by omega)]; simp [hk']

theorem Result.text_write_dest (hr : r.isText = true) {s s' : State} (hwf : Memory.wf s.tbuf = true)
    (hwf' : Memory.wf s'.tbuf = true) : (r.write s).text = (r.write s').text := by
  cases r with
  | text out => exact (State.text_writeText hwf out).trans (State.text_writeText hwf' out).symm
  | value | values | scalar => cases hr

end Write

theorem prepared_warn {i : Instr} (s : State) (h : isParse i = false) :
    (prepared i s).status.warn = s.status.warn := by
  rw [prepared_of_not_parse s h]

/-- Settles O19: of the three ways a command ends (`exec_cases`) only success writes outside STATUS, and there the
result's write leaves what is no destination. -/
theorem commandsWriteOnlyTheirDestinations : Obligations.CommandsWriteOnlyTheirDestinations := by
  intro i s t h
  obtain ⟨b, hb⟩ := prepared_eq i s
  have hwarn := prepared_warn (i := i) s
  have hcases := exec_cases h
  rw [hb] at hwarn hcases
  obtain ⟨r, hr, rfl⟩ | ⟨k, -, rfl⟩ | ⟨-, rfl⟩ := hcases
  · obtain ⟨hdestV, hdestX, htext⟩ := outcomeOf_ok_dests hr
    refine ⟨fun j hj => ?values, fun j hj => ?scalars, fun hw => ?text, r.write_raw (s.setWarn b),
      r.write_cfg (s.setWarn b), r.write_params (s.setWarn b), r.write_host (s.setWarn b), fun hp => ?warn, .inl ?abort⟩
    case values => exact Result.readV_write_other (s := s.setWarn b) (hdestV ▸ hj)
    case scalars => exact Result.uX_write_other (s := s.setWarn b) (hdestX ▸ hj)
    case text =>
      obtain ⟨hbuf, hlen⟩ := Result.text_write_other (s := s.setWarn b) (htext.trans hw)
      exact ⟨fun a => congrArg (Memory.read · a) hbuf, hlen⟩
    case warn => simpa using hwarn hp
    case abort => simp
  · exact ⟨fun _ _ => rfl, fun _ _ => rfl, fun _ => ⟨fun _ => rfl, rfl⟩, rfl, rfl, rfl, rfl, hwarn, .inl rfl⟩
  · exact ⟨fun _ _ => rfl, fun _ _ => rfl, fun _ => ⟨fun _ => rfl, rfl⟩, rfl, rfl, rfl, rfl, hwarn,
      .inr ⟨rfl, rfl⟩⟩

section Sources

variable {s s' : State}

theorem State.sX_congr {x : XReg} (hp : s.params = s'.params) (hx : s.uX x = s'.uX x) : s.sX x = s'.sX x := by
  rw [State.sX_eq, State.sX_eq, hp, hx]

theorem State.shiftDigits_congr {x : XReg} (hx : s.uX x = s'.uX x) : s.shiftDigits x = s'.shiftDigits x := by
  rw [State.shiftDigits, State.shiftDigits, hx]

theorem State.rawDigits_congr (h : s.raw = s'.raw) : s.rawDigits = s'.rawDigits := by
  rw [State.rawDigits, State.rawDigits, h]

/-- The outcome of a command, with its result, is a function of what the command reads. -/
theorem outcomeOf_congr {i : Instr} (hp : s.params = s'.params) (hv : ∀ j ∈ sourceV i, s.readV j = s'.readV j)
    (hx : ∀ j ∈ sourceX i, s.uX j = s'.uX j) (hraw : isCanon i = true → s.raw = s'.raw)
    (htext : isParse i = true → s.text = s'.text ∧ s.tlen = s'.tlen ∧ s.cfg = s'.cfg) :
    outcomeOf i s = outcomeOf i s' := by
  cases i with
  | canon rd => simp only [outcomeOf, hp, hraw rfl, State.rawDigits_congr (hraw rfl)]
  | parse rd =>
    obtain ⟨ht, hlen, hcfg⟩ := htext rfl
    simp only [outcomeOf, State.parseOutcome, hp, ht, hlen, hcfg]
  | mov _ a | len _ a | isneg _ a | neg _ a | inc _ a | dec _ a | fmtd a | fmth a | fmto a | toint _ a =>
    have ha : s.readV a = s'.readV a := hv a (by simp [sourceV])
    simp only [outcomeOf, hp, ha]
  | mlt _ a b | cmplt _ a b | cmple _ a b | cmpgt _ a b | cmpge _ a b | cmpeq _ a b | cmpne _ a b | madd _ a b
  | msub _ a b | add _ a b | sub _ a b | mul _ a b | div _ a b | mod _ a b | divrem _ _ a b =>
    have ha : s.readV a = s'.readV a := hv a (by simp [sourceV])
    have hb : s.readV b = s'.readV b := hv b (by simp [sourceV])
    simp only [outcomeOf, hp, ha, hb]
  | digit _ a x | shl _ a x | shr _ a x =>
    have ha : s.readV a = s'.readV a := hv a (by simp [sourceV])
    have hx : s.uX x = s'.uX x := hx x (by simp [sourceX])
    simp only [outcomeOf, hp, ha, hx, State.shiftDigits_congr hx]
  | fromint _ x =>
    have hx : s.uX x = s'.uX x := hx x (by simp [sourceX])
    simp only [outcomeOf, hp, State.sX_congr hp hx]

end Sources

theorem prepared_warn_congr {i : Instr} {s s' : State} (hi : isParse i = true) (htext : s.text = s'.text)
    (hcfg : s.cfg = s'.cfg) : (prepared i s).status.warn = (prepared i s').status.warn := by
  simp [prepared, hi, State.parseWarns, htext, hcfg]

/-- Settles O20: the outcome is a function of the sources (`outcomeOf_congr`), and a result's write determines its
destinations whatever state it is written to. -/
theorem commandsReadOnlyTheirSources : Obligations.CommandsReadOnlyTheirSources := by
  intro i s s' t hp hv hx hraw htext hwf hwf' h
  have hout := outcomeOf_congr hp hv hx hraw htext
  have hwarn (hi : isParse i = true) : (prepared i s').status.warn = (prepared i s).status.warn := by
    obtain ⟨ht, -, hcfg⟩ := htext hi
    exact (prepared_warn_congr hi ht hcfg).symm
  obtain ⟨b, hb⟩ := prepared_eq i s
  obtain ⟨b', hb'⟩ := prepared_eq i s'
  have hcases := exec_cases h
  rw [hb] at hwarn hcases
  rw [hb'] at hwarn
  rw [exec_eq, ← hout, hb']
  obtain ⟨r, hr, rfl⟩ | ⟨k, hk, rfl⟩ | ⟨ha, rfl⟩ := hcases
  · obtain ⟨hdestV, hdestX, hisText⟩ := outcomeOf_ok_dests hr
    rw [hr]
    refine ⟨_, rfl, rfl, fun _ => ⟨fun j hj => ?values, fun j hj => ?scalars, fun hw => ?text, ?warn⟩⟩
    case values => exact Result.readV_write_dest (hdestV ▸ hj) (s'.setWarn b') (s.setWarn b)
    case scalars => exact Result.uX_write_dest (s := s'.setWarn b') (s' := s.setWarn b) (hdestX ▸ hj) hp.symm
    case text => exact Result.text_write_dest (s := s'.setWarn b') (s' := s.setWarn b) (hisText.trans hw) hwf' hwf
    case warn => simpa using hwarn
  · rw [hk]
    exact ⟨_, rfl, rfl, fun hzero => absurd hzero (errorCode_ne_zero k)⟩
  · rw [ha]
    exact ⟨_, rfl, rfl, fun hzero => absurd (show abortedCode = 0#8 from hzero) (by decide)⟩

end Sys2Proof.Machine

/-! ### Digit sequences and their magnitude (00_scope.md R11)

A digit sequence without redundant high zeros is `digits_of` its magnitude. So a canonical value is `Value.ofInt` of its
integer, and the canonicaliser answers `Value.within`: the integer its arguments spell, refused at capacity. -/

namespace Sys2Proof.Machine

@[simp] theorem magOf_nil : magOf [] = 0 := rfl

@[simp] theorem magOf_cons (d : Digit) (ds : List Digit) : magOf (d :: ds) = d.toNat + 16 * magOf ds := rfl

theorem magOf_lt_pow_length (ds : List Digit) : magOf ds < 16 ^ ds.length := by
  induction ds with
  | nil => decide
  | cons d ds ih =>
    rw [List.length_cons, Nat.pow_succ', magOf_cons]
    omega

theorem magOf_append (ds es : List Digit) : magOf (ds ++ es) = magOf ds + 16 ^ ds.length * magOf es := by
  induction ds with
  | nil => simp
  | cons d ds ih =>
    rw [List.cons_append, magOf_cons, ih, magOf_cons, List.length_cons, Nat.pow_succ']
    ring

theorem magOf_replicate_zero (k : Nat) : magOf (List.replicate k 0#4) = 0 := by
  induction k with
  | zero => rfl
  | succ k ih => simp [List.replicate_succ, ih]

theorem magOf_eq_head_add_tail (ds : List Digit) : magOf ds = (ds.headD 0#4).toNat + 16 * magOf ds.tail := by
  cases ds <;> rfl

/-- A non-zero top digit brings the magnitude to its weight. -/
theorem pow_le_magOf_of_top {ds : List Digit} (h : ds.getD (ds.length - 1) 0#4 ≠ 0#4) :
    16 ^ (ds.length - 1) ≤ magOf ds := by
  induction ds with
  | nil => exact absurd rfl h
  | cons d ds ih =>
    cases ds with
    | nil => exact magOf_pos h
    | cons e es =>
      have htail : 16 ^ es.length ≤ magOf (e :: es) := ih (by simpa using h)
      calc 16 ^ (es.length + 1) = 16 * 16 ^ es.length := Nat.pow_succ'
        _ ≤ 16 * magOf (e :: es) := Nat.mul_le_mul_left 16 htail
        _ ≤ magOf (d :: e :: es) := Nat.le_add_left ..

/-! ### The digit count -/

theorem one_le_ndig (m : Nat) : 1 ≤ ndig m := Nat.le_add_left ..

theorem ndig_le_iff {m k : Nat} (hk : 1 ≤ k) : ndig m ≤ k ↔ m < 16 ^ k := by
  constructor
  · exact fun h => (lt_pow_ndig m).trans_le (Nat.pow_le_pow_right (by decide) h)
  · intro h
    rcases Nat.eq_zero_or_pos m with rfl | hm
    · exact hk
    · have hlt : ndig m - 1 < k := (Nat.pow_lt_pow_iff_right (by decide)).mp ((pow_ndig_sub_one_le hm).trans_lt h)
      omega

/-- The digit count of a sequence without redundant high zeros. -/
theorem ndig_magOf_of_stripped {ds : List Digit} (hne : ds ≠ []) (h : Stripped ds) : ndig (magOf ds) = ds.length := by
  have hpos : 1 ≤ ds.length := List.length_pos_iff.mpr hne
  have hle : ndig (magOf ds) ≤ ds.length := (ndig_le_iff hpos).mpr (magOf_lt_pow_length ds)
  obtain hshort | htop := h
  · have := one_le_ndig (magOf ds)
    omega
  · have hlt : ds.length - 1 < ndig (magOf ds) :=
      (Nat.pow_lt_pow_iff_right (by decide)).mp ((pow_le_magOf_of_top htop).trans_lt (lt_pow_ndig _))
    omega

theorem lowDigits_magOf (ds : List Digit) : lowDigits ds.length (magOf ds) = ds := by
  induction ds with
  | nil => rfl
  | cons d ds ih =>
    have hlow : (d.toNat + 16 * magOf ds) % 16 = d.toNat := by omega
    have hhigh : (d.toNat + 16 * magOf ds) / 16 = magOf ds := by omega
    simp [lowDigits, Config.radix, hlow, hhigh, ih]

theorem digitsOf_magOf_of_stripped {ds : List Digit} (hne : ds ≠ []) (h : Stripped ds) : digitsOf (magOf ds) = ds := by
  rw [digitsOf, ndig_magOf_of_stripped hne h, lowDigits_magOf]

theorem stripHigh_eq_digitsOf {ds : List Digit} (hne : ds ≠ []) : stripHigh ds = digitsOf (magOf ds) := by
  rw [← magOf_stripHigh, digitsOf_magOf_of_stripped (mt stripHigh_eq_nil.mp hne) (stripHigh_stripped ds)]

/-! ### Values and integers -/

theorem Value.mag_ofInt (z : Int) : (Value.ofInt z).mag = z.natAbs := magOf_digitsOf _

theorem Value.len_ofInt (z : Int) : (Value.ofInt z).len = ndig z.natAbs := digitsOf_length _

theorem Value.ofInt_zero : Value.ofInt 0 = Value.zero := by decide

theorem Value.natAbs_val (a : Value) : a.val.natAbs = a.mag := by
  unfold Value.val
  split
  · rw [Int.natAbs_neg, Int.natAbs_natCast]
  · exact Int.natAbs_natCast _

theorem Value.val_eq_signed (a : Value) : a.val = signed a.sign a.mag := rfl

@[simp] theorem natAbs_signed (sg : Bool) (m : Nat) : (signed sg m).natAbs = m := by
  cases sg <;> simp [signed]

theorem signed_neg_iff (sg : Bool) (m : Nat) : signed sg m < 0 ↔ sg = true ∧ 0 < m := by
  cases sg <;> simp [signed]

theorem signed_natAbs (z : Int) : signed (decide (z < 0)) z.natAbs = z := by
  unfold signed
  split
  · next h => have := of_decide_eq_true h; omega
  · next h => have := of_decide_eq_false (Bool.eq_false_of_not_eq_true h); omega

/-- The value of a signed magnitude carries the sign only when the magnitude is not zero. -/
theorem Value.ofInt_signed (sg : Bool) (m : Nat) :
    Value.ofInt (signed sg m) = { sign := sg && decide (0 < m), digits := digitsOf m } := by
  have hneg : decide (signed sg m < 0) = (sg && decide (0 < m)) := by
    rw [decide_eq_decide.mpr (signed_neg_iff sg m), Bool.decide_and, Bool.decide_eq_true]
  rw [Value.ofInt, natAbs_signed, hneg]

section Canonical

variable {md : Nat} {a : Value} (h : a.Canonical md)
include h

theorem Value.Canonical.digits_eq : a.digits = digitsOf a.mag := by
  obtain ⟨hlen, -, htop | hzero, -⟩ := h
  · exact (digitsOf_magOf_of_stripped (List.length_pos_iff.mp hlen) (.inr htop)).symm
  · rw [hzero]; rfl

theorem Value.Canonical.len_eq : a.len = ndig a.mag := by
  rw [Value.len, h.digits_eq, digitsOf_length]

theorem Value.Canonical.mag_lt : a.mag < 16 ^ md := by
  obtain ⟨-, hlen, -⟩ := h
  exact (magOf_lt_pow_length a.digits).trans_le (Nat.pow_le_pow_right (by decide) hlen)

theorem Value.Canonical.val_neg_iff : a.val < 0 ↔ a.sign = true := by
  have hsign : a.sign = true → 0 < a.mag := h.2.2.2
  rw [Value.val_eq_signed, signed_neg_iff]
  exact ⟨fun hs => hs.1, fun hs => ⟨hs, hsign hs⟩⟩

/-- A canonical value is the value of its integer (40_digit_store.md R82). -/
theorem Value.Canonical.eq_ofInt : a = Value.ofInt a.val := by
  have hsign : a.sign = decide (a.val < 0) := by
    rw [Bool.eq_iff_iff, decide_eq_true_iff, h.val_neg_iff]
  have hdigits : a.digits = digitsOf a.val.natAbs := by rw [Value.natAbs_val]; exact h.digits_eq
  exact congrArg₂ Value.mk hsign hdigits

theorem Value.Canonical.abs_eq_ofInt : a.abs = Value.ofInt a.mag := by
  rw [Value.abs, h.digits_eq, Value.ofInt, Int.natAbs_natCast, decide_eq_false (by omega)]

end Canonical

/-! ### The canonicaliser on integers (40_digit_store.md R75) -/

/-- The value of the integer `z`, refused when it exceeds the capacity. -/
def Value.within (md : Nat) (z : Int) : Res Value :=
  if Fits md z then .ok (Value.ofInt z) else .fail .capacityExceeded

theorem Value.within_of_fits {md : Nat} {z : Int} (h : Fits md z) : Value.within md z = .ok (Value.ofInt z) := if_pos h

theorem Value.within_of_not_fits {md : Nat} {z : Int} (h : ¬ Fits md z) :
    Value.within md z = .fail .capacityExceeded := if_neg h

theorem Value.within_natCast {md m : Nat} (h : m < 16 ^ md) : Value.within md m = .ok (Value.ofInt m) :=
  Value.within_of_fits (by simpa [Fits, Config.radix] using h)

/-- The canonicaliser gives the integer that its sign and digits spell, whatever high zeros they carry. -/
theorem Value.canon_eq_within (md : Nat) (sg : Bool) (ds : List Digit) :
    Value.canon md sg ds = Value.within md (signed sg (magOf ds)) := by
  have hfits : Fits md (signed sg (magOf ds)) ↔ magOf ds < 16 ^ md := by rw [Fits, natAbs_signed]; rfl
  have hne (hpos : 0 < magOf ds) : ds ≠ [] := by rintro rfl; exact absurd hpos (by decide)
  obtain ⟨hc, hzero⟩ | ⟨hc, hlen, hpos⟩ | ⟨hc, hlen, -, hpos⟩ := Value.canon_cases md sg ds
  · have hz : signed sg (magOf ds) = 0 := Int.natAbs_eq_zero.mp (by rw [natAbs_signed, hzero])
    rw [hc, hz, Value.within_of_fits (by simp [Fits, Config.radix]), Value.ofInt_zero]
  · rw [stripHigh_eq_digitsOf (hne hpos), digitsOf_length] at hlen
    have hbig : 16 ^ md ≤ magOf ds :=
      (Nat.pow_le_pow_right (by decide) (Nat.le_sub_one_of_lt hlen)).trans (pow_ndig_sub_one_le hpos)
    rw [hc, Value.within_of_not_fits (by rw [hfits]; omega)]
  · have hsmall : magOf ds < 16 ^ md :=
      magOf_stripHigh ds ▸ (magOf_lt_pow_length _).trans_le (Nat.pow_le_pow_right (by decide) hlen)
    rw [hc, Value.within_of_fits (hfits.mpr hsmall), Value.ofInt_signed, decide_eq_true hpos, Bool.and_true,
      stripHigh_eq_digitsOf (hne hpos)]

/-! ### Ends of a command, in the shapes of Safety.lean -/

theorem finishV_within_of_fits {s : State} {z : Int} (rd : VReg) (h : Fits s.params.maxDigits z) :
    finishV rd (Value.within s.params.maxDigits z) s = .next (resultV s rd z) := by
  rw [Value.within_of_fits h]; rfl

theorem finishV_within_of_not_fits {s : State} {z : Int} (rd : VReg) (h : ¬ Fits s.params.maxDigits z) :
    finishV rd (Value.within s.params.maxDigits z) s = .next (failed s 2#8) := by
  rw [Value.within_of_not_fits h]; rfl

theorem finishX_ok (rd : XReg) (n : Int) (s : State) :
    finishX rd (.ok n) s = .next (resultX s rd (n % 2 ^ s.params.width).toNat) := by
  have hword : (BitVec.ofInt s.params.width n).toNat = (n % 2 ^ s.params.width).toNat := by simp [BitVec.toNat_ofInt]
  rw [finishX, finish_ok, State.writeX, hword]
  rfl

/-! ### Machine integers (20_memory.md R43, 46_text_codec.md R161 to R164) -/

/-- A scalar word in two's complement, by its top bit. -/
theorem State.sX_eq_ite (s : State) (i : XReg) (hw : 1 ≤ s.params.width) :
    s.sX i = if s.uX i < 2 ^ (s.params.width - 1) then (s.uX i : Int) else s.uX i - 2 ^ s.params.width := by
  have hpow : 2 ^ s.params.width = 2 * 2 ^ (s.params.width - 1) := by
    rw [← Nat.pow_succ', Nat.succ_eq_add_one, Nat.sub_add_cancel hw]
  have hhalf : 2 * s.uX i < 2 ^ s.params.width ↔ s.uX i < 2 ^ (s.params.width - 1) := by omega
  rw [State.sX, BitVec.toInt_eq_toNat_cond]
  change (if 2 * s.uX i < 2 ^ s.params.width then (s.uX i : Int) else s.uX i - (2 ^ s.params.width : Nat)) = _
  rw [if_congr hhalf rfl rfl, Nat.cast_pow, Nat.cast_ofNat]

theorem fromint_eq_within (md : Nat) (n : Int) : fromint md n = Value.within md n := by
  rw [fromint, Value.canon_eq_within, magOf_digitsOf, signed_natAbs]

theorem accumulate_append (ds es : List Digit) (acc : Nat) :
    accumulate (ds ++ es) acc = accumulate es (accumulate ds acc) := by
  induction ds generalizing acc with
  | nil => rfl
  | cons d ds ih => exact ih _

theorem accumulate_reverse (ds : List Digit) : accumulate ds.reverse 0 = magOf ds := by
  induction ds with
  | nil => rfl
  | cons d ds ih =>
    rw [List.reverse_cons, accumulate_append, ih, magOf_cons]
    simp only [accumulate, Config.radix]
    omega

theorem toint_eq (w : Nat) (a : Value) :
    toint w a = if 2 ^ (w - 1) ≤ a.val.natAbs then .fail .overflow else .ok a.val := by
  simp only [toint, accumulate_reverse, Value.natAbs_val]
  rfl

/-- Settles O51: FROMINT is the canonicaliser on the digits of the integer (`fromint_eq_within`), TOINT reads the
value's own integer (`toint_eq`). -/
theorem machineIntegerCommands : Obligations.MachineIntegerCommands := by
  intro s ⟨_, hwidth, _⟩
  have hfromint (rd : VReg) (x : XReg) :
      exec (.fromint rd x) s = finishV rd (Value.within s.params.maxDigits (s.sX x)) s := by
    rw [← fromint_eq_within]; rfl
  refine ⟨fun i => s.sX_eq_ite i (by omega), fun rd x => ⟨fun hfits => ?_, fun hbig => ?_⟩, fun rd x _ => ?_⟩
  · rw [hfromint, finishV_within_of_fits rd hfits]
  · rw [hfromint, finishV_within_of_not_fits rd hbig]
  · have htoint : exec (.toint rd x) s = finishX rd (toint s.params.width (s.readV x)) s := rfl
    rw [htoint, toint_eq]
    constructor
    · intro hlt
      rw [if_neg (by omega), finishX_ok]
    · intro hge
      rw [if_pos hge]; rfl

/-! ### What the host reads (70_reset_and_hazards.md R216) -/

/-- The two flag bits of STATUS stand above the eight bits of ERR (10_state.md R26). -/
theorem statusWord_toNat (st : Status) :
    (statusWord st).toNat = st.err.toNat + 256 * st.abort.toNat + 512 * st.warn.toNat := by
  have hor (k : Nat) : st.err.toNat ||| 2 ^ 8 * k = st.err.toNat + 256 * k := by
    rw [Nat.or_comm, ← Nat.two_pow_add_eq_or_of_lt st.err.isLt, Nat.add_comm]
  have herr : (st.err.setWidth 32).toNat = st.err.toNat := by simp; omega
  unfold statusWord
  rw [BitVec.or_assoc, BitVec.toNat_or, herr]
  cases st.abort <;> cases st.warn
  · exact hor 0
  · exact hor 2
  · exact hor 1
  · exact hor 3

theorem cfgWord_toNat (c : Cfg) : (cfgWord c).toNat = c.pcompat.toNat := by
  obtain ⟨_ | _⟩ := c <;> rfl

/-- A host read of an existing cell is answered and changes nothing (20_memory.md R47). -/
theorem hostReads_of_named {s : State} {p : Port} (h : (HostAction.read p).Named s.params) :
    hostReads p s = .next s := by
  cases p with
  | rawDigit k | text k => exact if_pos h
  | vSign | vLen | vDigit | x | rawSign | rawLen | textLen | status | cfg => rfl

/-- Settles O13: the read changes nothing by `hostReads_of_named`; what it gives of a canonical register follows from
the register being `digits_of` its magnitude. -/
theorem hostReadsSeeTheState : Obligations.HostReadsSeeTheState := by
  refine ⟨fun s p rest hs hp => ?_, fun s => statusWord_toNat s.status, fun s => cfgWord_toNat s.cfg,
    fun s i k hcanon => ⟨?_, ?_, ?_⟩, fun s i => ⟨rfl, s.uX_eq i⟩, fun s => ⟨?_, rfl⟩, fun s k d hd => ?_,
    fun s k => rfl, fun s => rfl⟩
  · rw [step_of_host hs]
    exact hostReads_of_named (s := s.withHost rest) hp
  · rw [if_congr hcanon.val_neg_iff rfl rfl, hostRead]
    cases (s.readV i).sign <;> rfl
  · rw [Value.natAbs_val]
    exact hcanon.len_eq
  · rw [Value.natAbs_val, ← digitsOf_getD, ← hcanon.digits_eq]
    rfl
  · rw [hostRead]
    cases s.raw.sign <;> rfl
  · rw [hostRead, List.getD_eq_getElem?_getD, hd]
    rfl

end Sys2Proof.Machine

/-! ### The magnitude engines on natural numbers

Comparison, addition, subtraction and shift as the arithmetic their loops compute (41_comparator.md R85, 42_additive.md
R98, R101, 43_shifter.md R115). -/

namespace Sys2Proof.Machine

theorem Value.val_ofInt (z : Int) : (Value.ofInt z).val = z := by
  rw [Value.val_eq_signed, Value.mag_ofInt]
  exact signed_natAbs z

theorem Value.mag_ofNat (m : Nat) : (Value.ofInt m).mag = m := Value.mag_ofInt m

theorem Value.ofNat_nonneg (m : Nat) : (Value.ofInt m).Nonneg :=
  decide_eq_false (Int.not_lt.mpr (Int.natCast_nonneg m))

theorem Value.ofInt_inj {y z : Int} : Value.ofInt y = Value.ofInt z ↔ y = z :=
  ⟨fun h => by rw [← Value.val_ofInt y, h, Value.val_ofInt], congrArg Value.ofInt⟩

theorem Value.ofInt_canonical {md : Nat} {z : Int} (hmd : 1 ≤ md) (hz : Fits md z) : (Value.ofInt z).Canonical md := by
  have hcanon : Value.canon md (decide (z < 0)) (digitsOf z.natAbs) = .ok (Value.ofInt z) := by
    rw [Value.canon_eq_within, magOf_digitsOf, signed_natAbs, Value.within_of_fits hz]
  exact (Value.canon_ok hmd hcanon).1

theorem digitsOrder_eq_compare {xs ys : List Digit} (h : xs.length = ys.length) :
    digitsOrder xs ys = compare (magOf xs) (magOf ys) := by
  induction xs generalizing ys with
  | nil => rw [List.length_eq_zero_iff.mp h.symm]; rfl
  | cons x xs ih =>
    cases ys with
    | nil => simp at h
    | cons y ys =>
      have hx : x.toNat < 16 := x.isLt
      have hy : y.toNat < 16 := y.isLt
      rw [digitsOrder, ih (by simpa using h), magOf_cons, magOf_cons]
      rcases Nat.lt_trichotomy (magOf xs) (magOf ys) with hlt | heq | hgt
      · rw [Nat.compare_eq_lt.mpr hlt, Nat.compare_eq_lt.mpr (by omega)]
      · rw [Nat.compare_eq_eq.mpr heq, heq]
        simp only [Nat.compare_eq_ite_lt, Nat.add_lt_add_iff_right]
      · rw [Nat.compare_eq_gt.mpr hgt, Nat.compare_eq_gt.mpr (by omega)]

theorem ndig_lt_ndig {x y : Nat} (h : ndig x < ndig y) : x < y := by
  have hy : 0 < y := Nat.pos_of_ne_zero fun h0 => by
    have := one_le_ndig x
    rw [h0, ndig_zero] at h
    omega
  calc x < 16 ^ ndig x := lt_pow_ndig x
    _ ≤ 16 ^ (ndig y - 1) := Nat.pow_le_pow_right (by decide) (Nat.le_sub_one_of_lt h)
    _ ≤ y := pow_ndig_sub_one_le hy

/-- On digits without redundant high zeros the comparator orders magnitudes (41_comparator.md R85). -/
theorem Value.mlt_eq_decide_lt {a b : Value} (ha : a.digits = digitsOf a.mag) (hb : b.digits = digitsOf b.mag) :
    a.mlt b = decide (a.mag < b.mag) := by
  have hla : a.len = ndig a.mag := by rw [Value.len, ha, digitsOf_length]
  have hlb : b.len = ndig b.mag := by rw [Value.len, hb, digitsOf_length]
  unfold Value.mlt
  rcases Nat.lt_trichotomy a.len b.len with hlt | heq | hgt
  · rw [if_pos (by omega), decide_eq_true hlt, decide_eq_true (ndig_lt_ndig (by omega))]
  · rw [if_neg (by omega), digitsOrder_eq_compare heq, Bool.eq_iff_iff, beq_iff_eq, Nat.compare_eq_lt,
      decide_eq_true_iff]
    rfl
  · have hnot : b.mag < a.mag := ndig_lt_ndig (by omega)
    rw [if_pos (by omega), decide_eq_false (by omega), decide_eq_false (by omega)]

theorem Value.digits_ofInt (z : Int) : (Value.ofInt z).digits = digitsOf (Value.ofInt z).mag := by
  rw [Value.mag_ofInt]; rfl

theorem Value.mlt_ofNat (x y : Nat) : (Value.ofInt x).mlt (Value.ofInt y) = decide (x < y) := by
  rw [Value.mlt_eq_decide_lt (Value.digits_ofInt x) (Value.digits_ofInt y), Value.mag_ofNat, Value.mag_ofNat]

/-- The carry loop adds (42_additive.md R97). -/
theorem magOf_addLoop {n carry : Nat} {a b : List Digit} (ha : a.length ≤ n) (hb : b.length ≤ n) (hc : carry ≤ 1) :
    magOf (addLoop n a b carry) = magOf a + magOf b + carry := by
  induction n generalizing a b carry with
  | zero =>
    rw [List.length_eq_zero_iff.mp (Nat.le_zero.mp ha), List.length_eq_zero_iff.mp (Nat.le_zero.mp hb)]
    obtain rfl | rfl : carry = 0 ∨ carry = 1 := by omega
    · rfl
    · rfl
  | succ n ih =>
    have hxa : (a.headD 0#4).toNat < 16 := (a.headD 0#4).isLt
    have hxb : (b.headD 0#4).toNat < 16 := (b.headD 0#4).isLt
    have hta : a.tail.length ≤ n := by rw [List.length_tail]; omega
    have htb : b.tail.length ≤ n := by rw [List.length_tail]; omega
    rw [addLoop, magOf_cons, Config.radix, ih hta htb (by omega), BitVec.toNat_ofNat, magOf_eq_head_add_tail a,
      magOf_eq_head_add_tail b]
    omega

/-- The borrow loop subtracts (42_additive.md R100). -/
theorem magOf_subLoop {n borrow : Nat} {a b : List Digit} (ha : a.length ≤ n) (hb : b.length ≤ n) (hw : borrow ≤ 1)
    (hle : magOf b + borrow ≤ magOf a) : magOf (subLoop n a b borrow) = magOf a - (magOf b + borrow) := by
  induction n generalizing a b borrow with
  | zero => simp [List.length_eq_zero_iff.mp (Nat.le_zero.mp ha), subLoop]
  | succ n ih =>
    have hxa : (a.headD 0#4).toNat < 16 := (a.headD 0#4).isLt
    have hxb : (b.headD 0#4).toNat < 16 := (b.headD 0#4).isLt
    have hta : a.tail.length ≤ n := by rw [List.length_tail]; omega
    have htb : b.tail.length ≤ n := by rw [List.length_tail]; omega
    rw [magOf_eq_head_add_tail a, magOf_eq_head_add_tail b] at hle
    rw [subLoop, magOf_eq_head_add_tail a, magOf_eq_head_add_tail b, Config.radix]
    split
    · rw [magOf_cons, ih hta htb (Nat.le_refl 1) (by omega), BitVec.toNat_ofNat]
      omega
    · rw [magOf_cons, ih hta htb (Nat.zero_le 1) (by omega), BitVec.toNat_ofNat]
      omega

theorem signed_false (m : Nat) : signed false m = m := rfl

/-- Magnitude add is addition, refused at capacity (42_additive.md R98). -/
theorem Value.madd_eq_within (md : Nat) {a b : Value} (ha : a.Nonneg) (hb : b.Nonneg) :
    Value.madd md a b = Value.within md (a.mag + b.mag : Nat) := by
  have hsum : magOf (addLoop (max a.len b.len) a.digits b.digits 0) = a.mag + b.mag :=
    magOf_addLoop (Nat.le_max_left ..) (Nat.le_max_right ..) (Nat.zero_le 1)
  rw [Value.madd, if_neg (by simp [ha, hb]), Value.canon_eq_within, hsum, signed_false]

/-- Magnitude subtract is subtraction, where the comparator and the magnitudes allow it (42_additive.md R101). -/
theorem Value.msub_eq_within (md : Nat) {a b : Value} (ha : a.Nonneg) (hb : b.Nonneg) (hge : a.mlt b = false)
    (hle : b.mag ≤ a.mag) : Value.msub md a b = Value.within md (a.mag - b.mag : Nat) := by
  have hdiff : magOf (subLoop a.len a.digits b.digits 0) = a.mag - b.mag :=
    magOf_subLoop (Nat.le_refl _) (Value.len_le_of_not_mlt hge) (Nat.zero_le 1) hle
  rw [Value.msub, if_neg (by simp [ha, hb]), if_neg (by simp [hge]), Value.canon_eq_within, hdiff, signed_false]

theorem signed_mul_natCast (sg : Bool) (m k : Nat) : signed sg (m * k) = signed sg m * k := by
  cases sg <;> simp [signed]

/-- Shift left is multiplication by a power of the radix, refused at capacity (43_shifter.md R115). -/
theorem Value.shl_eq_within (md : Nat) {a : Value} (k : Nat) (h : a.digits ≠ []) :
    Value.shl md a k = Value.within md (a.val * (16 ^ k : Nat)) := by
  rw [Value.shl_eq_canon md a k h, Value.canon_eq_within, magOf_append, magOf_replicate_zero, List.length_replicate,
    Nat.zero_add, Nat.mul_comm, signed_mul_natCast]
  rfl

theorem Value.digits_ofInt_ne_nil (z : Int) : (Value.ofInt z).digits ≠ [] := by
  rw [← List.length_pos_iff]
  exact (one_le_ndig z.natAbs).trans_eq (Value.len_ofInt z).symm

section Natural

variable {md x y : Nat}

theorem Value.madd_ofNat (h : x + y < 16 ^ md) :
    Value.madd md (Value.ofInt x) (Value.ofInt y) = .ok (Value.ofInt (x + y : Nat)) := by
  rw [Value.madd_eq_within md (Value.ofNat_nonneg x) (Value.ofNat_nonneg y), Value.mag_ofNat, Value.mag_ofNat,
    Value.within_natCast h]

theorem Value.msub_ofNat (hx : x < 16 ^ md) (hle : y ≤ x) :
    Value.msub md (Value.ofInt x) (Value.ofInt y) = .ok (Value.ofInt (x - y : Nat)) := by
  have hge : (Value.ofInt x).mlt (Value.ofInt y) = false := by rw [Value.mlt_ofNat]; exact decide_eq_false (by omega)
  have hmag : (Value.ofInt y).mag ≤ (Value.ofInt x).mag := by rwa [Value.mag_ofNat, Value.mag_ofNat]
  rw [Value.msub_eq_within md (Value.ofNat_nonneg x) (Value.ofNat_nonneg y) hge hmag, Value.mag_ofNat, Value.mag_ofNat,
    Value.within_natCast (by omega)]

theorem Value.shl_ofNat {k : Nat} (h : x * 16 ^ k < 16 ^ md) :
    Value.shl md (Value.ofInt x) k = .ok (Value.ofInt (x * 16 ^ k : Nat)) := by
  rw [Value.shl_eq_within md k (Value.digits_ofInt_ne_nil x), Value.val_ofInt, ← Nat.cast_mul, Value.within_natCast h]

end Natural

/-! ### The divider on natural numbers (45_divider.md R130 to R141) -/

/-- The estimate of a turn is the largest power of the radix whose multiple of the divisor comes off the remainder
(45_divider.md R134). -/
theorem divEstimate_ofNat {md r b : Nat} (hb : 0 < b) (hle : b ≤ r) (hr : r < 16 ^ md) :
    ∃ j, b * 16 ^ j ≤ r ∧ r < b * 16 ^ (j + 1) ∧
      divEstimate md (Value.ofInt r) (Value.ofInt b) = .ok (j, Value.ofInt (b * 16 ^ j : Nat)) := by
  obtain ⟨n, hn⟩ : ∃ n, ndig r = ndig b + n := by
    have hlen : ndig b ≤ ndig r := Nat.not_lt.mp fun h => absurd (ndig_lt_ndig h) (by omega)
    exact ⟨_, (Nat.add_sub_cancel' hlen).symm⟩
  have hlens : (Value.ofInt r).len - (Value.ofInt b).len = n := by
    rw [Value.len_ofInt, Value.len_ofInt, Int.natAbs_natCast, Int.natAbs_natCast]
    omega
  have hbtop : 16 ^ (ndig b - 1) ≤ b := pow_ndig_sub_one_le hb
  have hsucc : ndig b - 1 + 1 = ndig b := Nat.sub_add_cancel (one_le_ndig b)
  have hupper : r < b * 16 ^ (n + 1) :=
    calc r < 16 ^ (ndig b - 1) * 16 ^ (n + 1) := by
          rw [← Nat.pow_add, show ndig b - 1 + (n + 1) = ndig r by omega]; exact lt_pow_ndig r
      _ ≤ b * 16 ^ (n + 1) := Nat.mul_le_mul_right _ hbtop
  have hshift (k : Nat) : b * 16 ^ k < 16 ^ (ndig b + k) := by
    rw [Nat.pow_add]
    exact Nat.mul_lt_mul_of_pos_right (lt_pow_ndig b) (Nat.pow_pos (by decide))
  have hndig : ndig r ≤ md := by
    refine (ndig_le_iff (Nat.pos_of_ne_zero ?_)).mpr hr
    rintro rfl
    omega
  have hcap (k : Nat) (hk : k ≤ n) : b * 16 ^ k < 16 ^ md :=
    (hshift k).trans_le (Nat.pow_le_pow_right (by decide) (by omega))
  simp only [divEstimate, hlens, Value.shl_ofNat (hcap n (Nat.le_refl n)), Res.bind_ok, Value.mlt_ofNat,
    decide_eq_true_eq]
  split
  · next hover =>
    obtain ⟨k, rfl⟩ : ∃ k, n = k + 1 := Nat.exists_eq_succ_of_ne_zero fun h0 => by subst h0; omega
    refine ⟨k, Nat.le_of_lt ?_, hover, ?_⟩
    · calc b * 16 ^ k < 16 ^ (ndig b + k) := hshift k
        _ = 16 ^ (ndig r - 1) := by rw [show ndig r - 1 = ndig b + k by omega]
        _ ≤ r := pow_ndig_sub_one_le (by omega)
    · rw [Nat.add_sub_cancel, Value.shl_ofNat (hcap k (Nat.le_succ k)), Res.bind_ok]
  · next hfits => exact ⟨n, Nat.not_lt.mp hfits, hupper, rfl⟩

theorem Value.one_eq_ofNat : Value.one = Value.ofInt (1 : Nat) := by decide

/-- One turn moves a power of the radix from the remainder, times the divisor, to the quotient (45_divider.md R133). -/
theorem divTurn_ofNat {md r b q : Nat} (hb : 0 < b) (hle : b ≤ r) (hr : r < 16 ^ md) (hq : q + r / b < 16 ^ md) :
    ∃ j, b * 16 ^ j ≤ r ∧ r < b * 16 ^ (j + 1) ∧
      divTurn md (Value.ofInt b) (Value.ofInt r) (Value.ofInt q) =
        .ok (Value.ofInt (r - b * 16 ^ j : Nat), Value.ofInt (q + 16 ^ j : Nat)) := by
  obtain ⟨j, hj, hmax, hest⟩ := divEstimate_ofNat hb hle hr
  have hunit : 16 ^ j ≤ r / b := (Nat.le_div_iff_mul_le hb).mpr (by rwa [Nat.mul_comm])
  have hone : Value.shl md .one j = .ok (Value.ofInt (16 ^ j : Nat)) := by
    rw [Value.one_eq_ofNat, Value.shl_ofNat (by omega), Nat.one_mul]
  refine ⟨j, hj, hmax, ?_⟩
  have hcap : q + 16 ^ j < 16 ^ md := by omega
  simp only [divTurn, hest, Res.bind_ok, Value.msub_ofNat hr hj, hone, Value.madd_ofNat hcap]

/-- A number of turns that is enough: the remainder is below `k * 16^n` divisors with `k` at most 16, and a turn takes
one from `k`, at most 15 turns for each of the `n` lower powers. -/
def TurnsSuffice (b r turns : Nat) : Prop := ∃ n k, k ≤ 16 ∧ r < b * 16 ^ n * k ∧ 15 * n + k ≤ turns + 1

theorem TurnsSuffice.lt_of_zero {b r : Nat} (h : TurnsSuffice b r 0) : r < b := by
  obtain ⟨n, k, -, hr, hturns⟩ := h
  obtain rfl : n = 0 := by omega
  have hk : b * 16 ^ 0 * k ≤ b * 16 ^ 0 * 1 := Nat.mul_le_mul_left _ (by omega)
  omega

theorem TurnsSuffice.turn {b r turns j : Nat} (h : TurnsSuffice b r (turns + 1)) (hj : b * 16 ^ j ≤ r)
    (hmax : r < b * 16 ^ (j + 1)) : TurnsSuffice b (r - b * 16 ^ j) turns := by
  obtain ⟨n, k, hk, hr, hturns⟩ := h
  have hk0 : k ≠ 0 := by rintro rfl; simp at hr
  have hsub {c : Nat} (hc : r < b * 16 ^ j * c) : r - b * 16 ^ j < b * 16 ^ j * (c - 1) := by
    rw [Nat.mul_sub_one]
    omega
  rcases Nat.lt_trichotomy j n with hlt | rfl | hgt
  · exact ⟨j, 15, by decide, hsub (c := 16) (by rwa [Nat.mul_assoc, ← Nat.pow_succ]), by omega⟩
  · exact ⟨j, k - 1, by omega, hsub hr, by omega⟩
  · have hcontra : b * 16 ^ n * k ≤ b * 16 ^ j :=
      calc b * 16 ^ n * k ≤ b * 16 ^ n * 16 := Nat.mul_le_mul_left _ hk
        _ = b * 16 ^ (n + 1) := by rw [Nat.mul_assoc, ← Nat.pow_succ]
        _ ≤ b * 16 ^ j := Nat.mul_le_mul_left _ (Nat.pow_le_pow_right (by decide) hgt)
    omega

/-- The bound of 45_divider.md R141 is enough. -/
theorem turnsSuffice_divTurns {a b : Value} (hb : 0 < b.mag) (hlen : b.len = ndig b.mag) :
    TurnsSuffice b.mag a.mag (divTurns a b) := by
  have hbtop : 16 ^ (b.len - 1) ≤ b.mag := hlen ▸ pow_ndig_sub_one_le hb
  have hpos : 1 ≤ b.len := hlen ▸ one_le_ndig _
  refine ⟨a.len - b.len, 16, by decide, ?_, by simp only [divTurns, Config.radix]; omega⟩
  calc a.mag < 16 ^ a.len := magOf_lt_pow_length a.digits
    _ ≤ 16 ^ (b.len - 1 + (a.len - b.len + 1)) := Nat.pow_le_pow_right (by decide) (by omega)
    _ = 16 ^ (b.len - 1) * 16 ^ (a.len - b.len) * 16 := by rw [Nat.pow_add, Nat.pow_succ, Nat.mul_assoc]
    _ ≤ b.mag * 16 ^ (a.len - b.len) * 16 := Nat.mul_le_mul_right _ (Nat.mul_le_mul_right _ hbtop)

/-- The loop ends within its turns, with the remainder and the quotient (45_divider.md R130, R140). -/
theorem divLoop_ofNat {md b turns r q : Nat} (hb : 0 < b) (hr : r < 16 ^ md) (hq : q + r / b < 16 ^ md)
    (hturns : TurnsSuffice b r turns) :
    divLoop md (Value.ofInt b) turns (Value.ofInt r) (Value.ofInt q) =
      .ok (Value.ofInt (r % b : Nat), Value.ofInt (q + r / b : Nat)) := by
  have hdone {r q : Nat} (h : r < b) :
      (Value.ofInt r, Value.ofInt q) = (Value.ofInt (r % b : Nat), Value.ofInt (q + r / b : Nat)) := by
    rw [Nat.mod_eq_of_lt h, Nat.div_eq_of_lt h, Nat.add_zero]
  induction turns generalizing r q with
  | zero =>
    have hlt : r < b := hturns.lt_of_zero
    rw [divLoop, Value.mlt_ofNat, if_pos (decide_eq_true hlt), hdone hlt]
  | succ turns ih =>
    rw [divLoop, Value.mlt_ofNat]
    split
    · next hlt => rw [hdone (of_decide_eq_true hlt)]
    · next hge =>
      obtain ⟨j, hj, hmax, hturn⟩ := divTurn_ofNat hb (by simpa using hge) hr hq
      have hrem : (r - b * 16 ^ j) % b = r % b := Nat.sub_mul_mod hj
      have hquo : q + 16 ^ j + (r - b * 16 ^ j) / b = q + r / b := by
        have hunit : 16 ^ j ≤ r / b := (Nat.le_div_iff_mul_le hb).mpr (by rwa [Nat.mul_comm])
        rw [Nat.sub_mul_div]
        omega
      rw [hturn, Res.bind_ok, ih (by omega) (by omega) (hturns.turn hj hmax), hrem, hquo]

end Sys2Proof.Machine

/-! ### Division and the decimal numeral (45_divider.md R140, 46_text_codec.md R154) -/

namespace Sys2Proof.Machine

theorem Value.Canonical.mag_pos {md : Nat} {a : Value} (h : a.Canonical md) (hz : a ≠ .zero) : 0 < a.mag := by
  obtain ⟨-, -, htop | hzero, -⟩ := h
  · exact magOf_pos htop
  · exact absurd hzero hz

/-- On canonical values the divider gives quotient and remainder of the magnitudes under the signs of 45_divider.md
R136; it stays within capacity and within its turns. -/
theorem Value.divrem_eq {md : Nat} {a b : Value} (ha : a.Canonical md) (hb : b.Canonical md) (hz : b ≠ .zero) :
    Value.divrem md a b = .ok (Value.ofInt (signed (a.sign ^^ b.sign) (a.mag / b.mag)),
      Value.ofInt (signed a.sign (a.mag % b.mag))) := by
  have hpos : 0 < b.mag := hb.mag_pos hz
  have hquo : a.mag / b.mag < 16 ^ md := (Nat.div_le_self ..).trans_lt ha.mag_lt
  have hrem : a.mag % b.mag < 16 ^ md := (Nat.mod_le ..).trans_lt ha.mag_lt
  have hcanon (sg : Bool) {m : Nat} (hm : m < 16 ^ md) :
      Value.canon md sg (Value.ofInt m).digits = .ok (Value.ofInt (signed sg m)) := by
    rw [Value.canon_eq_within, Value.digits_ofInt, Value.mag_ofNat, magOf_digitsOf, Value.within_of_fits]
    rwa [Fits, natAbs_signed]
  have hloop := divLoop_ofNat (q := 0) hpos ha.mag_lt (by omega) (turnsSuffice_divTurns (a := a) hpos hb.len_eq)
  rw [Nat.zero_add] at hloop
  rw [Value.divrem, if_neg hz, ha.abs_eq_ofInt, hb.abs_eq_ofInt, ← Value.ofInt_zero, ← Nat.cast_zero, hloop,
    Res.bind_ok, hcanon _ hquo, Res.bind_ok, hcanon _ hrem, Res.bind_ok]

/-- The decimal numeral of a natural number, as the characters' codes (20_memory.md R44). -/
def decimalText (m : Nat) : List Byte := (Nat.toDigits 10 m).map fun c => BitVec.ofNat 8 c.toNat

/-- A digit's character is the one of the library's numeral. -/
theorem decChar_dig_ofNat {k : Nat} (h : k < 10) : [decChar ((Value.ofInt k).dig 0)] = decimalText k := by
  have hcode : ∀ k < 10, (Nat.digitChar k).toNat = 0x30 + k := by decide
  have hdig : ((Value.ofInt k).dig 0).toNat = k := by
    rw [Value.dig, Value.digits_ofInt, digitsOf_getD, Value.mag_ofNat]
    omega
  rw [decimalText, Nat.toDigits_of_lt_base h, decChar, hdig, List.map_singleton, hcode k h]

theorem decimalText_of_le {m : Nat} (h : 10 ≤ m) : decimalText m = decimalText (m / 10) ++ decimalText (m % 10) := by
  rw [decimalText, Nat.toDigits_of_base_le (by decide) h, List.map_append,
    ← Nat.toDigits_of_lt_base (Nat.mod_lt m (by decide))]
  rfl

/-- One turn of the formatter: the last decimal digit goes in front, the other digits are left. -/
theorem fmtdLoop_succ_ofNat {md m : Nat} (hmd : 1 ≤ md) (hm : m < 16 ^ md) (turns : Nat) (out : List Byte) :
    fmtdLoop md (turns + 1) (Value.ofInt m) out =
      if m < 10 then .ok (decimalText m ++ out)
      else fmtdLoop md turns (Value.ofInt (m / 10 : Nat)) (decimalText (m % 10) ++ out) := by
  have hcanon : (Value.ofInt m).Canonical md := Value.ofInt_canonical hmd (by simpa [Fits, Config.radix] using hm)
  have hdiv : Value.divrem md (Value.ofInt m) .ten = .ok (Value.ofInt (m / 10 : Nat), Value.ofInt (m % 10 : Nat)) := by
    rw [Value.divrem_eq hcanon (Value.ten_canonical hmd) (by decide), Value.mag_ofNat, Value.ofNat_nonneg]
    rfl
  have hlast : decChar ((Value.ofInt (m % 10 : Nat)).dig 0) :: out = decimalText (m % 10) ++ out := by
    rw [← decChar_dig_ofNat (Nat.mod_lt m (by decide))]; rfl
  have hend : Value.ofInt (m / 10 : Nat) = .zero ↔ m < 10 := by
    rw [← Value.ofInt_zero, Value.ofInt_inj]
    omega
  rw [fmtdLoop, hdiv, Res.bind_ok, hlast, if_congr hend rfl rfl]
  split
  · next hlt => rw [Nat.mod_eq_of_lt hlt]
  · rfl

/-- The formatter's loop puts the numeral in front of what it has, when its turns are at least the digits. -/
theorem fmtdLoop_ofNat {md turns m : Nat} (hmd : 1 ≤ md) (hm : m < 16 ^ md) (hturns : m < 10 ^ (turns + 1))
    (out : List Byte) : fmtdLoop md (turns + 1) (Value.ofInt m) out = .ok (decimalText m ++ out) := by
  induction turns generalizing m out with
  | zero => rw [fmtdLoop_succ_ofNat hmd hm, if_pos (show m < 10 from hturns)]
  | succ turns ih =>
    rw [fmtdLoop_succ_ofNat hmd hm]
    split
    · rfl
    · next hge =>
      rw [Nat.pow_succ] at hturns
      rw [ih (by omega) (by omega), decimalText_of_le (Nat.not_lt.mp hge), List.append_assoc]

/-- FMTD's text is the decimal numeral, signed (46_text_codec.md R154). -/
theorem fmtd_eq {md : Nat} {a : Value} (hmd : 1 ≤ md) (ha : a.Canonical md) :
    fmtd md a = .ok (withSign a.sign (decimalText a.mag)) := by
  have hlen : 1 ≤ a.len := ha.1
  have hturns : a.mag < 10 ^ (2 * a.len - 1 + 1) :=
    calc a.mag < 16 ^ a.len := magOf_lt_pow_length a.digits
      _ ≤ 100 ^ a.len := Nat.pow_le_pow_left (by decide) _
      _ = 10 ^ (2 * a.len - 1 + 1) := by rw [Nat.sub_add_cancel (by omega), Nat.pow_mul]
  rw [fmtd, ha.abs_eq_ofInt, show 2 * a.len = 2 * a.len - 1 + 1 by omega, fmtdLoop_ofNat hmd ha.mag_lt hturns,
    List.append_nil, Res.bind_ok]

/-! ### Every text fits the buffer (20_memory.md R49) -/

theorem withSign_length_le (sg : Bool) (t : List Byte) : (withSign sg t).length ≤ t.length + 1 := by
  cases sg <;> simp [withSign]

/-- A decimal digit counts for at least three bits. -/
theorem decimalText_length_le {md m : Nat} (hmd : 1 ≤ md) (hm : m < 16 ^ md) :
    (decimalText m).length ≤ (md * Config.dw + 2) / 3 := by
  have hbits : 4 * md ≤ 3 * ((md * 4 + 2) / 3) := by omega
  have hlt : m < 10 ^ ((md * 4 + 2) / 3) :=
    calc m < 16 ^ md := hm
      _ = 2 ^ (4 * md) := (Nat.pow_mul 2 4 md).symm
      _ ≤ 2 ^ (3 * ((md * 4 + 2) / 3)) := Nat.pow_le_pow_right (by decide) hbits
      _ = 8 ^ ((md * 4 + 2) / 3) := Nat.pow_mul 2 3 _
      _ ≤ 10 ^ ((md * 4 + 2) / 3) := Nat.pow_le_pow_left (by decide) _
  rw [decimalText, List.length_map, Config.dw]
  exact (Nat.length_toDigits_le_iff (by decide) (by omega)).mpr hlt

section Texts

variable {p : Params} {a : Value} (hp : p.Meets) (ha : a.Canonical p.maxDigits)
include hp ha

theorem fmtd_text_fits : (withSign a.sign (decimalText a.mag)).length ≤ p.textMax := by
  obtain ⟨hmd, -, -, htext⟩ := hp
  have hsign := withSign_length_le a.sign (decimalText a.mag)
  have hdigits := decimalText_length_le hmd ha.mag_lt
  omega

theorem fmth_text_fits : (fmth a).length ≤ p.textMax := by
  obtain ⟨-, -, -, htext⟩ := hp
  have hlen : a.digits.length ≤ p.maxDigits := ha.2.1
  have hsign := withSign_length_le a.sign (a.digits.reverse.map hexChar)
  rw [List.length_map, List.length_reverse] at hsign
  rw [Config.dw] at htext
  rw [fmth]
  omega

end Texts

/-! ### No command gets stuck

`stuck` is where a command would fault. Only the loops of the divider and of the decimal formatter, and the text
buffer's bounds, can answer it; the other functions of the block cannot, on any arguments. -/

/-- The outcome is not the model's `stuck`. -/
def Res.Unstuck {α : Type} : Res α → Prop
  | .stuck _ => False
  | .ok _ | .fail _ | .abort => True

section Rules

variable {α β : Type} {r : Res α}

theorem Res.Unstuck.of_eq_ok {a : α} (h : r = .ok a) : r.Unstuck := by subst h; trivial

theorem Res.Unstuck.bind {f : α → Res β} (h : r.Unstuck) (hf : ∀ a, (f a).Unstuck) : (r.bind f).Unstuck := by
  cases r with
  | ok a => exact hf a
  | stuck e => exact h
  | fail | abort => trivial

theorem Res.Unstuck.map {f : α → β} (h : r.Unstuck) : (r.map f).Unstuck := h.bind fun _ => trivial

theorem Res.Unstuck.finish (h : r.Unstuck) (w : α → State → State) (s : State) : ∃ t, finish r w s = .next t := by
  cases r with
  | ok | fail | abort => exact ⟨_, rfl⟩
  | stuck e => exact absurd h id

end Rules

theorem Value.canon_unstuck (md : Nat) (sg : Bool) (ds : List Digit) : (Value.canon md sg ds).Unstuck := by
  obtain ⟨a, ha⟩ | hf := Value.canon_outcome md sg ds
  · rw [ha]; trivial
  · rw [hf]; trivial

section Engines

variable (md : Nat) (a b : Value)

theorem Value.madd_unstuck : (Value.madd md a b).Unstuck := by
  unfold Value.madd
  split
  · trivial
  · exact Value.canon_unstuck ..

theorem Value.msub_unstuck : (Value.msub md a b).Unstuck := by
  unfold Value.msub
  split
  · trivial
  split
  · trivial
  · exact Value.canon_unstuck ..

theorem Value.add_unstuck : (Value.add md a b).Unstuck := by
  unfold Value.add
  split
  · exact (Value.madd_unstuck ..).bind fun _ => Value.canon_unstuck ..
  split
  · exact (Value.msub_unstuck ..).bind fun _ => Value.canon_unstuck ..
  · exact (Value.msub_unstuck ..).bind fun _ => Value.canon_unstuck ..

theorem Value.sub_unstuck : (Value.sub md a b).Unstuck :=
  (Value.canon_unstuck ..).bind fun _ => Value.add_unstuck ..

theorem Value.shl_unstuck (k : Nat) : (Value.shl md a k).Unstuck := by
  unfold Value.shl
  split
  · trivial
  split
  · trivial
  split
  · trivial
  · trivial

theorem Value.shr_unstuck (k : Nat) : (Value.shr md a k).Unstuck := by
  unfold Value.shr
  split
  · trivial
  · exact Value.canon_unstuck ..

theorem addTimes_unstuck (k : Nat) (p : Value) : (addTimes md a k p).Unstuck := by
  induction k generalizing p with
  | zero => trivial
  | succ k ih => exact (Value.madd_unstuck ..).bind ih

theorem mulLoop_unstuck (ds : List Digit) (i : Nat) (total : Value) : (mulLoop md a ds i total).Unstuck := by
  induction ds generalizing i total with
  | nil => trivial
  | cons d ds ih =>
    exact (addTimes_unstuck ..).bind fun _ => (Value.shl_unstuck ..).bind fun _ => (Value.add_unstuck ..).bind (ih _)

theorem Value.mul_unstuck : (Value.mul md a b).Unstuck := by
  unfold Value.mul
  split
  · trivial
  split
  · exact Value.canon_unstuck ..
  split
  · exact Value.canon_unstuck ..
  split
  · trivial
  · exact (mulLoop_unstuck ..).bind fun _ => Value.canon_unstuck ..

theorem decAccumulate_unstuck (run : List Byte) (v : Value) : (decAccumulate md run v).Unstuck := by
  induction run generalizing v with
  | nil => trivial
  | cons c cs ih =>
    exact (Value.mul_unstuck ..).bind fun _ => (Value.canon_unstuck ..).bind fun _ => (Value.add_unstuck ..).bind ih

theorem parseValue_unstuck (t : List Byte) : (parseValue md t).Unstuck := by
  simp only [parseValue]
  split
  · exact (Value.canon_unstuck ..).bind fun _ => Value.canon_unstuck ..
  · exact (decAccumulate_unstuck ..).bind fun _ => Value.canon_unstuck ..

theorem toint_unstuck (w : Nat) : (toint w a).Unstuck := by
  rw [toint_eq]
  split
  · trivial
  · trivial

end Engines

theorem State.shiftDigits_unstuck (s : State) (x : XReg) : (s.shiftDigits x).Unstuck := by
  unfold State.shiftDigits
  split
  · trivial
  · trivial

/-- PARSE reads below TLEN, so within the buffer (20_memory.md R49). -/
theorem State.parseOutcome_unstuck {s : State} (h : s.tlen ≤ s.params.textMax) : s.parseOutcome.Unstuck := by
  rw [State.parseOutcome, if_neg (Nat.not_lt.mpr h)]
  split
  · split
    · trivial
    · trivial
  · exact parseValue_unstuck ..

theorem fitText_of_le {textMax : Nat} {out : List Byte} (h : out.length ≤ textMax) : fitText textMax out = .ok out :=
  if_pos h

theorem Value.divrem_unstuck {md : Nat} {a b : Value} (ha : a.Canonical md) (hb : b.Canonical md) :
    (Value.divrem md a b).Unstuck := by
  by_cases hz : b = .zero
  · rw [Value.divrem, if_pos hz]; trivial
  · exact .of_eq_ok (Value.divrem_eq ha hb hz)

/-- From the invariant no command gets stuck. -/
theorem outcomeOf_unstuck {s : State} (h : s.Inv) (i : Instr) : (outcomeOf i s).Unstuck := by
  have ⟨hp, hv, _, _, _, _, _, htlen, _⟩ := h
  have hmd : 1 ≤ s.params.maxDigits := hp.1
  cases i with
  | mov | len | digit | isneg | mlt | cmplt | cmple | cmpgt | cmpge | cmpeq | cmpne | fmto => trivial
  | canon | neg | fromint => exact (Value.canon_unstuck ..).map
  | madd => exact (Value.madd_unstuck ..).map
  | msub => exact (Value.msub_unstuck ..).map
  | add | inc => exact (Value.add_unstuck ..).map
  | sub | dec => exact (Value.sub_unstuck ..).map
  | shl _ a x => exact ((s.shiftDigits_unstuck x).bind fun _ => Value.shl_unstuck ..).map
  | shr _ a x => exact ((s.shiftDigits_unstuck x).bind fun _ => Value.shr_unstuck ..).map
  | mul => exact (Value.mul_unstuck ..).map
  | div _ a b | mod _ a b | divrem _ _ a b => exact (Value.divrem_unstuck (hv a) (hv b)).map
  | parse => exact (State.parseOutcome_unstuck htlen).map
  | fmtd a =>
    have htext := fitText_of_le (fmtd_text_fits hp (hv a))
    exact (Res.Unstuck.of_eq_ok (by rw [fmtd_eq hmd (hv a), Res.bind_ok, htext])).map
  | fmth a => exact (Res.Unstuck.of_eq_ok (fitText_of_le (fmth_text_fits hp (hv a)))).map
  | toint => exact (toint_unstuck ..).map

/-! ### Every step completes -/

section Completes

variable {s : State} (h : s.Inv)
include h

/-- A presented word is answered: discarded, failed as illegal, or run to the end of its command. -/
theorem State.Inv.presentWord_completes (w : CommandWord) : ∃ t, Machine.presentWord w s = .next t := by
  unfold Machine.presentWord
  split
  · exact ⟨_, rfl⟩
  split
  · exact ⟨_, rfl⟩
  · next i _ => exact exec_eq i s ▸ (outcomeOf_unstuck h i).finish Result.write (prepared i s)

/-- A host action that names only existing cells is answered. -/
theorem State.Inv.perform_completes {a : HostAction} (ha : a.Named s.params) : ∃ t, Machine.perform a s = .next t := by
  cases a with
  | command w => exact h.presentWord_completes w
  | writeX | writeRawSign | writeCfg | reset => exact ⟨_, rfl⟩
  | writeRawDigit | writeText => exact ⟨_, if_pos ha⟩
  | read p => exact ⟨s, hostReads_of_named ha⟩
  | writeRawLen n =>
    rw [Machine.perform, hostWriteRawLen]
    split
    · exact ⟨_, rfl⟩
    · exact ⟨_, rfl⟩
  | writeTextLen n =>
    rw [Machine.perform, hostWriteTextLen]
    split
    · exact ⟨_, rfl⟩
    · exact ⟨_, rfl⟩

end Completes

/-- Settles O17: an idle step is answered, and so is every named host action; a command because from the invariant its
outcome is never `stuck` (`outcomeOf_unstuck`), which turns on the divider's and the formatter's exact results. -/
theorem stepAlwaysCompletes : Obligations.StepAlwaysCompletes := by
  intro s hinv hnamed
  cases hs : s.host with
  | nil => exact ⟨s, by rw [step, hs]⟩
  | cons a rest =>
    have ha : a.Named s.params := hnamed a (by rw [hs, List.head?_cons])
    rw [step_of_host hs]
    exact (hinv.withHost rest).perform_completes ha

end Sys2Proof.Machine

/-! ### The command words (30_encoding.md R58, R59, R62, R63, R65, R71)

A word and its fields: what a field reads from a word built from fields, and which bits of a word the mask of a format
leaves to its fields. The two readings of the opcode map, `rowOf` from the word and `fieldsOf` from the command, are
compared row by row once; the statements about `decode` follow from `decode_eq_command_iff`. -/

namespace Sys2Proof.Laws.EncodingFits

/-- The encoding of a command matches its row of the opcode table. -/
theorem encode_and_maskOf : ∀ i, Statement i
  | .canon _ => canon _ | .mov _ _ => mov _ _ | .len _ _ => len _ _ | .digit _ _ _ => digit _ _ _
  | .isneg _ _ => isneg _ _ | .mlt _ _ _ => mlt _ _ _ | .cmplt _ _ _ => cmplt _ _ _ | .cmple _ _ _ => cmple _ _ _
  | .cmpgt _ _ _ => cmpgt _ _ _ | .cmpge _ _ _ => cmpge _ _ _ | .cmpeq _ _ _ => cmpeq _ _ _
  | .cmpne _ _ _ => cmpne _ _ _ | .madd _ _ _ => madd _ _ _ | .msub _ _ _ => msub _ _ _ | .add _ _ _ => add _ _ _
  | .sub _ _ _ => sub _ _ _ | .neg _ _ => neg _ _ | .inc _ _ => inc _ _ | .dec _ _ => dec _ _
  | .shl _ _ _ => shl _ _ _ | .shr _ _ _ => shr _ _ _ | .mul _ _ _ => mul _ _ _ | .div _ _ _ => div _ _ _
  | .mod _ _ _ => mod _ _ _ | .divrem _ _ _ _ => divrem _ _ _ _ | .parse _ => parse _ | .fmtd _ => fmtd _
  | .fmth _ => fmth _ | .fmto _ => fmto _ | .fromint _ _ => fromint _ _ | .toint _ _ => toint _ _

end Sys2Proof.Laws.EncodingFits

namespace Sys2Proof.Machine

variable {op : BitVec 8} {rd rd2 rs1 rs2 : Fin 8} {fmt : Format} {i : Instr} {w : CommandWord}

/-- The bits of the word that a register field with its low bit at `lo` takes up. -/
def fieldMask (lo : Nat) : CommandWord := (BitVec.allOnes 3).setWidth 32 <<< lo

theorem regField_eq (w : CommandWord) (lo : Nat) : regField w lo = (w.extractLsb' lo 3).toFin := rfl

theorem placeField_eq (f : Fin 8) (lo : Nat) : placeField f lo = (BitVec.ofFin (w := 3) f).setWidth 32 <<< lo := by
  have hwiden : ∀ f : Fin 8, BitVec.ofNat 32 f.val = (BitVec.ofFin (w := 3) f).setWidth 32 := by decide
  rw [placeField, hwiden]

@[simp] theorem placeField_zero_reg (lo : Nat) : placeField 0 lo = 0#32 := by simp [placeField]

/-- Reading a field and placing it again keeps the field's bits and clears the others. -/
theorem placeField_regField (w : CommandWord) (lo : Nat) : placeField (regField w lo) lo = w &&& fieldMask lo := by
  ext k hk
  simp only [placeField_eq, regField_eq, fieldMask, BitVec.ofFin_toFin, BitVec.getElem_and, BitVec.getElem_shiftLeft,
    BitVec.getElem_setWidth, BitVec.getLsbD_extractLsb', BitVec.getLsbD_allOnes]
  by_cases hlo : k < lo
  · simp [hlo]
  · have hsub : lo + (k - lo) = k := by omega
    simp [hlo, hsub, BitVec.getLsbD_eq_getElem hk, Bool.and_comm]

/-! Reading the fields of a word built from fields. -/

theorem opcodeOf_or (v w : CommandWord) : opcodeOf (v ||| w) = opcodeOf v ||| opcodeOf w := BitVec.extractLsb'_or

@[simp] theorem opcodeOf_matchOf (op : BitVec 8) : opcodeOf (matchOf op) = op := by
  ext k hk
  have hk32 : 24 + k < 32 ∧ k < 32 := by omega
  simp [opcodeOf, matchOf, hk32, BitVec.getLsbD_eq_getElem hk]

/-- Every mask holds the whole opcode. -/
theorem opcodeOf_and_maskOf (w : CommandWord) (fmt : Format) : opcodeOf (w &&& maskOf fmt) = opcodeOf w := by
  have hmask : (maskOf fmt).extractLsb' 24 8 = BitVec.allOnes 8 := by cases fmt <;> decide
  rw [opcodeOf, BitVec.extractLsb'_and, hmask, BitVec.and_allOnes, opcodeOf]

/-- A register field lies below the opcode. -/
theorem opcodeOf_placeField (f : Fin 8) {lo : Nat} (h : lo ≤ 21) : opcodeOf (placeField f lo) = 0#8 := by
  ext k hk
  have habove : 3 ≤ 24 + k - lo := by omega
  simp [opcodeOf, placeField_eq, BitVec.getLsbD_of_ge _ _ habove]

/-- The opcode lies above every register field. -/
theorem matchOf_extract (op : BitVec 8) {lo : Nat} (h : lo ≤ 21) : (matchOf op).extractLsb' lo 3 = 0#3 := by
  ext k hk
  have hbelow : lo + k < 24 := by omega
  simp [matchOf, hbelow]

theorem placeField_extract_same (f : Fin 8) {lo : Nat} (h : lo ≤ 21) :
    (placeField f lo).extractLsb' lo 3 = BitVec.ofFin f := by
  ext k hk
  have hk32 : lo + k < 32 ∧ k < 32 := by omega
  simp [placeField_eq, hk32]

/-- A field places no bit in a field beside it. -/
theorem placeField_extract_other (f : Fin 8) {lo lo' : Nat} (h : lo + 3 ≤ lo' ∨ lo' + 3 ≤ lo) :
    (placeField f lo).extractLsb' lo' 3 = 0#3 := by
  ext k hk
  obtain habove | hbelow : 3 ≤ lo' + k - lo ∨ lo' + k < lo := by omega
  · simp [placeField_eq, BitVec.getLsbD_of_ge _ _ habove]
  · simp [placeField_eq, hbelow]

@[simp] theorem opcodeOf_wordOf (f : Fields) : opcodeOf (wordOf f) = f.opcode := by
  simp [wordOf, opcodeOf_or, opcodeOf_placeField]

@[simp] theorem regFields_wordOf (f : Fields) :
    rdOf (wordOf f) = f.rd ∧ rd2Of (wordOf f) = f.rd2 ∧ rs1Of (wordOf f) = f.rs1 ∧ rs2Of (wordOf f) = f.rs2 := by
  simp [rdOf, rd2Of, rs1Of, rs2Of, regField_eq, wordOf, BitVec.extractLsb'_or, matchOf_extract, placeField_extract_same,
    placeField_extract_other]

/-! The opcode map, read from the word and from the command. -/

/-- The opcode map gives a command back for its own fields. -/
theorem rowOf_fieldsOf (i : Instr) :
    rowOf (fieldsOf i).opcode (fieldsOf i).rd (fieldsOf i).rd2 (fieldsOf i).rs1 (fieldsOf i).rs2 =
      some ((fieldsOf i).format, i) := by
  cases i <;> rfl

/-- The fields that a format takes from a word, the ones it does not use being 0 (R59). -/
def formatFields (op : BitVec 8) (rd rd2 rs1 rs2 : Fin 8) : Format → Fields
  | .d => fieldsD op rd
  | .ds => fieldsDS op rd rs1
  | .dss => fieldsDSS op rd rs1 rs2
  | .s => fieldsS op rs1
  | .ddss => ⟨op, .ddss, rd, rd2, rs1, rs2⟩

/-- A row's command has exactly the fields that the row's format takes. -/
theorem fieldsOf_of_rowOf (h : rowOf op rd rd2 rs1 rs2 = some (fmt, i)) :
    fieldsOf i = formatFields op rd rd2 rs1 rs2 fmt := by
  unfold rowOf at h
  split at h <;> cases h <;> rfl

/-- Only the two destinations of DIVREM can make a row's command ill formed (R65). -/
theorem wellFormed_of_rowOf (h : rowOf op rd rd2 rs1 rs2 = some (fmt, i)) :
    i.wellFormed = true ↔ (op = 0x62#8 → rd ≠ rd2) := by
  unfold rowOf at h
  split at h <;> cases h <;> simp [Instr.wellFormed]

/-- What a word has to be for `decode` to give `i` (R63). -/
theorem decode_eq_command_iff :
    decode w = .command i ↔ ∃ fmt, rowOf (opcodeOf w) (rdOf w) (rd2Of w) (rs1Of w) (rs2Of w) = some (fmt, i) ∧
      w &&& maskOf fmt = matchOf (opcodeOf w) ∧ i.wellFormed = true := by
  unfold decode
  cases rowOf (opcodeOf w) (rdOf w) (rd2Of w) (rs1Of w) (rs2Of w) with
  | none => simp
  | some row =>
    obtain ⟨fmt, j⟩ := row
    by_cases hbits : w &&& maskOf fmt = matchOf (opcodeOf w)
    · cases hwf : j.wellFormed <;> simpa [hbits, hwf] using fun hj : j = i => hj ▸ hwf
    · simp [hbits]

/-- Settles O1: the fields of the encoding are the command's (`rowOf_fieldsOf`), and its fixed bits are the row's
(`encode_and_maskOf`). -/
theorem decodeOfEncode : Obligations.DecodeOfEncode := by
  intro i hi
  refine decode_eq_command_iff.mpr ⟨(fieldsOf i).format, ?_, ?_, hi⟩
  · simpa [encode] using rowOf_fieldsOf i
  · rw [encode, opcodeOf_wordOf]
    exact Laws.EncodingFits.encode_and_maskOf i

/-- The bits of the word that a format leaves to its fields. -/
def fieldsMask : Format → CommandWord
  | .d => fieldMask 21
  | .ds => fieldMask 21 ||| fieldMask 15
  | .dss => fieldMask 21 ||| fieldMask 15 ||| fieldMask 12
  | .s => fieldMask 15
  | .ddss => fieldMask 21 ||| fieldMask 18 ||| fieldMask 15 ||| fieldMask 12

/-- Every bit of the word is fixed by the format or is in one of its fields. -/
theorem maskOf_or_fieldsMask (fmt : Format) : maskOf fmt ||| fieldsMask fmt = BitVec.allOnes 32 := by
  cases fmt <;> decide

/-- The fields that a format takes from a word rebuild the word's opcode and its bits in those fields. -/
theorem wordOf_formatFields (w : CommandWord) (fmt : Format) :
    wordOf (formatFields (opcodeOf w) (rdOf w) (rd2Of w) (rs1Of w) (rs2Of w) fmt) =
      matchOf (opcodeOf w) ||| w &&& fieldsMask fmt := by
  cases fmt <;>
    simp [formatFields, fieldsD, fieldsDS, fieldsDSS, fieldsS, wordOf, rdOf, rd2Of, rs1Of, rs2Of, placeField_regField,
      fieldsMask, BitVec.and_or_distrib_left, BitVec.or_assoc]

/-- Settles O2: a row's command has the fields its format takes from the word, and they rebuild the word. -/
theorem encodeOfDecode : Obligations.EncodeOfDecode := by
  intro w i hdecode
  obtain ⟨fmt, hrow, hbits, hwf⟩ := decode_eq_command_iff.mp hdecode
  refine ⟨hwf, ?_⟩
  calc encode i = matchOf (opcodeOf w) ||| w &&& fieldsMask fmt := by
        rw [encode, fieldsOf_of_rowOf hrow, wordOf_formatFields]
    _ = w &&& (maskOf fmt ||| fieldsMask fmt) := by rw [← hbits, BitVec.and_or_distrib_left]
    _ = w := by rw [maskOf_or_fieldsMask, BitVec.and_allOnes]

/-! The opcode map against the independent table `legalRows`. -/

/-- The match and the mask of the opcode map's row for an opcode, if it has one; the fields do not matter. -/
def rowBits (op : BitVec 8) : Option (CommandWord × CommandWord) :=
  (rowOf op 0 0 0 0).map fun row => (matchOf op, maskOf row.1)

theorem rowOf_map_bits (op : BitVec 8) (rd rd2 rs1 rs2 : Fin 8) :
    (rowOf op rd rd2 rs1 rs2).map (fun row => (matchOf op, maskOf row.1)) = rowBits op := by
  unfold rowBits rowOf
  split <;> rfl

theorem mem_legalRows_of_rowOf (h : rowOf op rd rd2 rs1 rs2 = some (fmt, i)) :
    (matchOf op, maskOf fmt) ∈ legalRows := by
  unfold rowOf at h
  split at h <;> cases h <;> decide

theorem rowBits_of_mem_legalRows {row : CommandWord × CommandWord} (h : row ∈ legalRows) :
    rowBits (opcodeOf row.1) = some row := by
  have hall : legalRows.all (fun row => decide (rowBits (opcodeOf row.1) = some row)) = true := by decide
  exact of_decide_eq_true (List.all_eq_true.mp hall row h)

/-- A row of the table is the opcode map's row of its opcode, whatever the fields. -/
theorem exists_rowOf_of_mem_legalRows {row : CommandWord × CommandWord} (h : row ∈ legalRows) (rd rd2 rs1 rs2 : Fin 8) :
    ∃ fmt i, rowOf (opcodeOf row.1) rd rd2 rs1 rs2 = some (fmt, i) ∧
      row = (matchOf (opcodeOf row.1), maskOf fmt) := by
  have hbits := (rowOf_map_bits (opcodeOf row.1) rd rd2 rs1 rs2).trans (rowBits_of_mem_legalRows h)
  obtain ⟨⟨fmt, i⟩, hrow, heq⟩ := Option.map_eq_some_iff.mp hbits
  exact ⟨fmt, i, hrow, heq.symm⟩

/-- The DIVREM restriction, said of the row's match and the word's bits. -/
theorem destinations_differ_iff (w : CommandWord) (op : BitVec 8) :
    (op = 0x62#8 → rdOf w ≠ rd2Of w) ↔ (matchOf op = 0x62000000#32 → w.extractLsb' 21 3 ≠ w.extractLsb' 18 3) := by
  have hop : matchOf op = 0x62000000#32 ↔ op = 0x62#8 :=
    ⟨fun h => by rw [← opcodeOf_matchOf op, h]; decide, fun h => by rw [h]; decide⟩
  have hfields : rdOf w = rd2Of w ↔ w.extractLsb' 21 3 = w.extractLsb' 18 3 :=
    BitVec.toFin_inj (x := w.extractLsb' 21 3)
  rw [hop, ne_eq, hfields]

/-- Settles O3: the opcode map and the table have the same rows, and a command is well formed when DIVREM's
destinations differ. -/
theorem legalWordsAreTheTableRows : Obligations.LegalWordsAreTheTableRows := by
  intro w
  constructor
  · rintro ⟨i, hdecode⟩
    obtain ⟨fmt, hrow, hbits, hwf⟩ := decode_eq_command_iff.mp hdecode
    exact ⟨_, mem_legalRows_of_rowOf hrow, hbits, (destinations_differ_iff w _).mp ((wellFormed_of_rowOf hrow).mp hwf)⟩
  · rintro ⟨row, hmem, hbits, hdiffer⟩
    obtain ⟨fmt, i, hrow, heq⟩ := exists_rowOf_of_mem_legalRows hmem (rdOf w) (rd2Of w) (rs1Of w) (rs2Of w)
    generalize opcodeOf row.1 = op at hrow heq
    subst heq
    have hop : opcodeOf w = op := by rw [← opcodeOf_and_maskOf w fmt, hbits, opcodeOf_matchOf]
    subst hop
    exact ⟨i, decode_eq_command_iff.mpr
      ⟨fmt, hrow, hbits, (wellFormed_of_rowOf hrow).mpr ((destinations_differ_iff w _).mpr hdiffer)⟩⟩

/-- Settles O5: `decode` evaluated on the worked words of R71 and the near misses of R72. -/
theorem sampleWordsDecode : Obligations.SampleWordsDecode := by
  unfold Obligations.SampleWordsDecode
  decide

end Sys2Proof.Machine

/-! ### The digit store (40_digit_store.md R75 to R80)

The canonicaliser is `Value.within` (`Value.canon_eq_within`), so what is left is when an integer fits the capacity and
which arguments spell one integer. -/

namespace Sys2Proof.Machine

theorem fits_signed_iff {md : Nat} (hmd : 1 ≤ md) (sg : Bool) (m : Nat) : Fits md (signed sg m) ↔ ndig m ≤ md := by
  rw [ndig_le_iff hmd, Fits, natAbs_signed]
  rfl

theorem signed_congr {sg sg' : Bool} {m : Nat} (h : m ≠ 0 → sg' = sg) : signed sg' m = signed sg m := by
  rcases eq_or_ne m 0 with rfl | hm
  · cases sg <;> cases sg' <;> rfl
  · rw [h hm]

theorem Value.Canonical.fits {md : Nat} {a : Value} (h : a.Canonical md) : Fits md a.val := by
  rw [Fits, Value.natAbs_val]
  exact h.mag_lt

/-- A canonical value is a fixed point of the canonicaliser. -/
theorem Value.Canonical.canon_eq {md : Nat} {a : Value} (h : a.Canonical md) :
    Value.canon md a.sign a.digits = .ok a :=
  calc Value.canon md a.sign a.digits = Value.within md a.val := Value.canon_eq_within ..
    _ = .ok (Value.ofInt a.val) := Value.within_of_fits h.fits
    _ = .ok a := by rw [← h.eq_ofInt]

/-- Settles O24: every clause is one about the integer that the sign and the digits spell. -/
theorem canonicaliserOutcome : Obligations.CanonicaliserOutcome := by
  intro md sg ds hmd
  refine ⟨fun hbig => ?_, fun hsmall => ?_, fun a ha => (Value.canon_ok hmd ha).1, fun a ha => ha.canon_eq,
    fun sg' ds' hmag hsign => ?_⟩
  · have hno : ¬ Fits md (signed sg (magOf ds)) := by rw [fits_signed_iff hmd]; omega
    rw [Value.canon_eq_within, Value.within_of_not_fits hno]
  · rw [Value.canon_eq_within, Value.within_of_fits ((fits_signed_iff hmd ..).mpr hsmall), Value.ofInt_signed,
      decide_eq_decide.mpr Nat.pos_iff_ne_zero]
  · rw [Value.canon_eq_within, Value.canon_eq_within, hmag, signed_congr hsign]

/-- Settles O25: CANON ends as the canonicaliser does on the digits staged in RAW. -/
theorem canonBuildsFromRaw : Obligations.CanonBuildsFromRaw := by
  intro s rd
  have hcanon : exec (.canon rd) s =
      finishV rd (Value.within s.params.maxDigits (signed s.raw.sign (magOf s.rawDigits))) s := by
    rw [← Value.canon_eq_within]; rfl
  exact ⟨fun hfits => hcanon.trans (finishV_within_of_fits rd hfits),
    fun hbig => hcanon.trans (finishV_within_of_not_fits rd hbig)⟩

/-! Results of a query, which are numbers or truth values. -/

theorem finishX_natCast (rd : XReg) (n : Nat) (s : State) :
    finishX rd (.ok (n : Int)) s = .next (resultX s rd (n % 2 ^ s.params.width)) := by
  rw [finishX_ok]
  norm_cast

/-- One bit is enough for a scalar register to hold a truth value whole. -/
theorem finishX_truth {s : State} (hw : 1 ≤ s.params.width) (rd : XReg) (b : Bool) :
    finishX rd (.ok (truth b)) s = .next (resultX s rd (if b then 1 else 0)) := by
  have hone : 1 % 2 ^ s.params.width = 1 := Nat.mod_eq_of_lt (Nat.one_lt_two_pow (by omega))
  cases b with
  | false => exact (finishX_natCast rd 0 s).trans (by rw [Nat.zero_mod]; rfl)
  | true => exact (finishX_natCast rd 1 s).trans (by rw [hone]; rfl)

/-- The digit of a canonical value at any index, as a digit of its magnitude. -/
theorem Value.Canonical.dig_toNat {md : Nat} {a : Value} (h : a.Canonical md) (i : Nat) :
    (a.dig i).toNat = a.mag / 16 ^ i % 16 := by
  rw [Value.dig, h.digits_eq, digitsOf_getD]

/-- Settles O26: a canonical value is that of its integer, with its digits and its sign. -/
theorem copyAndQueries : Obligations.CopyAndQueries := by
  intro s rs1 hcanon ⟨_, hwidth, _⟩
  have hmag : (s.readV rs1).val.natAbs = (s.readV rs1).mag := Value.natAbs_val _
  refine ⟨fun rd => ?mov, fun rd => ?len, fun rd rs2 => ?digit, fun rd => ?isneg⟩
  case mov =>
    calc exec (.mov rd rs1) s = finishV rd (.ok (s.readV rs1)) s := rfl
      _ = finishV rd (.ok (Value.ofInt (s.readV rs1).val)) s := by rw [← hcanon.eq_ofInt]
      _ = .next (resultV s rd (s.readV rs1).val) := rfl
  case len =>
    rw [hmag, ← hcanon.len_eq]
    exact finishX_natCast rd _ s
  case digit =>
    rw [hmag, ← hcanon.dig_toNat]
    exact finishX_natCast rd _ s
  case isneg =>
    rw [if_congr hcanon.val_neg_iff rfl rfl]
    exact finishX_truth (by omega) rd _

end Sys2Proof.Machine

/-! ### The comparator (41_comparator.md R85 to R96)

On canonical values each comparison is one of integers, so a command's truth value is that of the order it tests. -/

namespace Sys2Proof.Machine

theorem Value.Canonical.mlt_iff {md : Nat} {a b : Value} (ha : a.Canonical md) (hb : b.Canonical md) :
    a.mlt b = true ↔ a.mag < b.mag := by
  rw [Value.mlt_eq_decide_lt ha.digits_eq hb.digits_eq, decide_eq_true_iff]

/-- Signs decide when they differ; below zero the order of the magnitudes is turned round (41_comparator.md R88). -/
theorem Value.Canonical.slt_iff {md : Nat} {a b : Value} (ha : a.Canonical md) (hb : b.Canonical md) :
    a.slt b = true ↔ a.val < b.val := by
  have hnega := ha.val_neg_iff
  have hnegb := hb.val_neg_iff
  unfold Value.slt
  split
  case isTrue hdiff =>
    have hsb : b.sign = !a.sign := Bool.eq_not.mpr hdiff.symm
    rw [← hnega]
    rw [hsb, Bool.not_eq_true', ← Bool.not_eq_true, ← hnega] at hnegb
    omega
  case isFalse hsame =>
    have hsb : b.sign = a.sign := (not_not.mp hsame).symm
    rw [Value.val_eq_signed, Value.val_eq_signed, hsb]
    split
    case isTrue hsign =>
      rw [hsign, ha.mlt_iff hb, signed_false, signed_false, Int.ofNat_lt]
    case isFalse hsign =>
      rw [Bool.eq_true_of_not_eq_false hsign, hb.mlt_iff ha]
      exact Int.ofNat_lt.symm.trans Int.neg_lt_neg_iff.symm

/-- `eq` compares the whole of two values. -/
theorem Value.eq_true_iff (a b : Value) : a.eq b = true ↔ a = b := by
  simp only [Value.eq, Bool.and_eq_true, decide_eq_true_iff]
  exact ⟨fun ⟨⟨hsign, _⟩, hdigits⟩ => congrArg₂ Value.mk hsign hdigits, fun h => h ▸ ⟨⟨rfl, rfl⟩, rfl⟩⟩

theorem Value.Canonical.eq_iff {md : Nat} {a b : Value} (ha : a.Canonical md) (hb : b.Canonical md) :
    a.eq b = true ↔ a.val = b.val := by
  rw [Value.eq_true_iff, ← Value.ofInt_inj, ← ha.eq_ofInt, ← hb.eq_ofInt]

/-- Settles O27: each comparison is read on the integers of its canonical operands. -/
theorem comparatorOrdersIntegers : Obligations.ComparatorOrdersIntegers :=
  fun _ _ _ ha hb => ⟨ha.mlt_iff hb, ha.slt_iff hb, ha.eq_iff hb⟩

/-- A command whose truth value is that of `P` leaves 1 or 0 by `P`. -/
theorem finishX_truth_of_iff {s : State} (hw : 1 ≤ s.params.width) (rd : XReg) {b : Bool} {P : Prop} [Decidable P]
    (h : b = true ↔ P) : finishX rd (.ok (truth b)) s = .next (resultX s rd (if P then 1 else 0)) := by
  rw [finishX_truth hw, if_congr h rfl rfl]

/-- Settles O28: each command's truth value is the order it names, on the integers of its sources. -/
theorem comparisonCommands : Obligations.ComparisonCommands := by
  intro s rd rs1 rs2 ha hb ⟨_, hwidth, _⟩ a b
  have hw : 1 ≤ s.params.width := by omega
  have hlt := ha.slt_iff hb
  have hgt := hb.slt_iff ha
  have heq := ha.eq_iff hb
  refine ⟨?mlt, finishX_truth_of_iff hw rd hlt, ?cmple, finishX_truth_of_iff hw rd hgt, ?cmpge,
    finishX_truth_of_iff hw rd heq, ?cmpne⟩
  case mlt =>
    refine finishX_truth_of_iff hw rd ?_
    rw [Value.natAbs_val, Value.natAbs_val, ha.mlt_iff hb]
  case cmple =>
    refine finishX_truth_of_iff hw rd ?_
    rw [Bool.or_eq_true, hlt, heq, le_iff_lt_or_eq]
  case cmpge =>
    refine finishX_truth_of_iff hw rd ?_
    rw [Bool.or_eq_true, hgt, heq, le_iff_lt_or_eq, eq_comm (a := a)]
  case cmpne =>
    rw [← ite_not]
    refine finishX_truth_of_iff hw rd ?_
    rw [Bool.not_eq_true', ← Bool.not_eq_true, heq]

end Sys2Proof.Machine

/-! ### The additive engine (42_additive.md R97 to R113)

On canonical values every additive function is integer arithmetic under `Value.within`, so a statement about a function
or a command is one about the integer it computes. -/

namespace Sys2Proof.Machine

theorem signed_not (sg : Bool) (m : Nat) : signed (!sg) m = -signed sg m := by
  cases sg <;> simp [signed]

theorem signed_add (sg : Bool) (m n : Nat) : signed sg (m + n) = signed sg m + signed sg n := by
  cases sg with
  | false => exact Nat.cast_add m n
  | true => exact (congrArg Neg.neg (Nat.cast_add m n)).trans Int.neg_add

/-- The difference of two magnitudes under the sign of the larger is a sum of integers of opposite signs. -/
theorem signed_sub (sg : Bool) {m n : Nat} (h : n ≤ m) : signed sg (m - n) = signed sg m + signed (!sg) n := by
  have hsum := signed_add sg (m - n) n
  rw [Nat.sub_add_cancel h] at hsum
  rw [signed_not, hsum, Int.add_neg_cancel_right]

/-- A magnitude given a sign by the canonicaliser: the capacity does not depend on the sign. -/
theorem Value.within_bind_canon (md m : Nat) (sg : Bool) :
    ((Value.within md m).bind fun v => Value.canon md sg v.digits) = Value.within md (signed sg m) := by
  have hfits : Fits md (signed sg m) ↔ Fits md m := by rw [Fits, natAbs_signed, Fits, Int.natAbs_natCast]
  by_cases h : Fits md m
  · have hmag : magOf (Value.ofInt m).digits = m := Value.mag_ofNat m
    rw [Value.within_of_fits h, Res.bind_ok, Value.canon_eq_within, hmag]
  · rw [Value.within_of_not_fits h, Value.within_of_not_fits (mt hfits.mp h), Res.bind_fail]

theorem Value.neg_eq_within (md : Nat) (a : Value) : Value.neg md a = Value.within md (-a.val) := by
  rw [Value.neg, Value.canon_eq_within, signed_not]
  rfl

theorem Value.abs_of_nonneg {a : Value} (h : a.Nonneg) : a.abs = a := congrArg (Value.mk · a.digits) h.symm

theorem Value.val_of_nonneg {a : Value} (h : a.Nonneg) : a.val = a.mag := by
  rw [Value.val_eq_signed, h, signed_false]

theorem Value.madd_eq_abort (md : Nat) {a b : Value} (h : a.sign = true ∨ b.sign = true) :
    Value.madd md a b = .abort :=
  if_pos (by simpa using h)

theorem Value.msub_eq_abort (md : Nat) {a b : Value} (h : a.sign = true ∨ b.sign = true ∨ a.mlt b = true) :
    Value.msub md a b = .abort := by
  obtain h | h | h := h <;> simp [Value.msub, h]

/-! What the capacity admits, as bounds on integers. -/

theorem fits_iff_bounds (md : Nat) (z : Int) : Fits md z ↔ z < 16 ^ md ∧ -(16 ^ md) < z := by
  have hpow : ((16 ^ md : Nat) : Int) = 16 ^ md := Nat.cast_pow 16 md
  rw [Fits, Config.radix]
  omega

theorem fits_neg_iff (md : Nat) (z : Int) : Fits md (-z) ↔ Fits md z := by rw [Fits, Int.natAbs_neg]

theorem fits_zero (md : Nat) : Fits md 0 := Nat.pow_pos (by decide)

section Canonical

variable {md : Nat} {a b : Value} (ha : a.Canonical md) (hb : b.Canonical md)
include ha

theorem Value.Canonical.one_le_capacity : 1 ≤ md := by
  obtain ⟨hlen, hmax, -⟩ := ha
  exact hlen.trans hmax

theorem Value.Canonical.within_val : Value.within md a.val = .ok a := by
  rw [Value.within_of_fits ha.fits, ← ha.eq_ofInt]

theorem Value.Canonical.nonneg_of_val (h : 0 ≤ a.val) : a.Nonneg :=
  Bool.eq_false_of_not_eq_true (mt ha.val_neg_iff.mpr (Int.not_lt.mpr h))

include hb

/-- MADD's function on integers, where it does not abort (42_additive.md R98). -/
theorem Value.Canonical.madd_eq_within (hza : 0 ≤ a.val) (hzb : 0 ≤ b.val) :
    Value.madd md a b = Value.within md (a.val + b.val) := by
  have hsa := ha.nonneg_of_val hza
  have hsb := hb.nonneg_of_val hzb
  rw [Value.madd_eq_within md hsa hsb, Value.val_of_nonneg hsa, Value.val_of_nonneg hsb, Nat.cast_add]

/-- The subtractor on magnitudes in the order the sign resolver gives them (42_additive.md R104). -/
theorem Value.Canonical.msub_abs_eq_within (h : b.mag ≤ a.mag) :
    Value.msub md a.abs b.abs = Value.within md (a.mag - b.mag : Nat) := by
  have hlt : a.mag < 16 ^ md := ha.mag_lt
  rw [ha.abs_eq_ofInt, hb.abs_eq_ofInt, Value.msub_ofNat hlt h, Value.within_natCast (by omega)]

/-- MSUB's function on integers, where it does not abort (42_additive.md R101). -/
theorem Value.Canonical.msub_eq_ofInt (hzb : 0 ≤ b.val) (hle : b.val ≤ a.val) :
    Value.msub md a b = .ok (Value.ofInt (a.val - b.val)) := by
  have hsa := ha.nonneg_of_val (hzb.trans hle)
  have hsb := hb.nonneg_of_val hzb
  rw [Value.val_of_nonneg hsa, Value.val_of_nonneg hsb] at hle ⊢
  have hmag : b.mag ≤ a.mag := Int.ofNat_le.mp hle
  have hlt : a.mag < 16 ^ md := ha.mag_lt
  have hsub := ha.msub_abs_eq_within hb hmag
  rwa [Value.abs_of_nonneg hsa, Value.abs_of_nonneg hsb, Value.within_natCast (by omega), Nat.cast_sub hmag] at hsub

/-- The precondition of the subtractor, violated, on integers (60_exceptions.md R191). -/
theorem Value.Canonical.msub_eq_abort (h : b.val < 0 ∨ a.val < b.val) : Value.msub md a b = .abort := by
  refine Value.msub_eq_abort md ?_
  rw [← ha.val_neg_iff, ← hb.val_neg_iff, ha.mlt_iff hb, ← a.natAbs_val, ← b.natAbs_val]
  omega

/-- The sign resolver is integer addition, refused at capacity (42_additive.md R112): equal signs add magnitudes, and
different signs take the smaller magnitude from the larger, under the sign of the larger. -/
theorem Value.Canonical.add_eq_within : Value.add md a b = Value.within md (a.val + b.val) := by
  unfold Value.add
  rw [Value.val_eq_signed, Value.val_eq_signed]
  split
  case isTrue hsame =>
    rw [Value.madd_eq_within md a.abs_nonneg b.abs_nonneg, Value.within_bind_canon, signed_add, ← hsame]
    rfl
  case isFalse hdiff =>
    have hsign : b.sign = !a.sign := Bool.eq_not.mpr (Ne.symm hdiff)
    split
    case isTrue hlt =>
      have hle : a.mag ≤ b.mag := ((ha.mlt_iff hb).mp hlt).le
      rw [hb.msub_abs_eq_within ha hle, Value.within_bind_canon, signed_sub _ hle, hsign, Bool.not_not, Int.add_comm]
    case isFalse hge =>
      have hle : b.mag ≤ a.mag := Nat.not_lt.mp (mt (ha.mlt_iff hb).mpr hge)
      rw [ha.msub_abs_eq_within hb hle, Value.within_bind_canon, signed_sub _ hle, hsign]

/-- Subtraction negates its second operand, which never fails, and adds (42_additive.md R106). -/
theorem Value.Canonical.sub_eq_within : Value.sub md a b = Value.within md (a.val - b.val) := by
  have hneg : Fits md (-b.val) := (fits_neg_iff md b.val).mpr hb.fits
  have hcanon : (Value.ofInt (-b.val)).Canonical md := Value.ofInt_canonical ha.one_le_capacity hneg
  rw [Value.sub, Value.neg_eq_within, Value.within_of_fits hneg, Res.bind_ok, ha.add_eq_within hcanon, Value.val_ofInt,
    Int.sub_eq_add_neg]

/-- A sum beyond the capacity has summands of one sign. -/
theorem Value.Canonical.sign_eq_of_not_fits_add (h : ¬ Fits md (a.val + b.val)) : a.sign = b.sign := by
  have hfa := ha.fits
  have hfb := hb.fits
  rw [fits_iff_bounds] at h hfa hfb
  rw [Bool.eq_iff_iff, ← ha.val_neg_iff, ← hb.val_neg_iff]
  omega

/-- A difference beyond the capacity has operands of different signs. -/
theorem Value.Canonical.sign_ne_of_not_fits_sub (h : ¬ Fits md (a.val - b.val)) : a.sign ≠ b.sign := by
  have hfa := ha.fits
  have hfb := hb.fits
  rw [fits_iff_bounds] at h hfa hfb
  rw [ne_eq, Bool.eq_iff_iff, ← ha.val_neg_iff, ← hb.val_neg_iff]
  omega

end Canonical

/-- Settles O29: on operands of sign 0 the adder is `Value.within` of the sum (`Value.madd_eq_within`). -/
theorem magnitudeAdderOutcome : Obligations.MagnitudeAdderOutcome := by
  intro md a b _
  have hfits : Fits md (a.mag + b.mag : Nat) ↔ a.mag + b.mag < 16 ^ md := by rw [Fits, Int.natAbs_natCast]; rfl
  refine ⟨fun ha hb => ?_, Value.madd_eq_abort md⟩
  rw [Value.madd_eq_within md ha hb]
  exact ⟨fun hlt => Value.within_of_fits (hfits.mpr hlt), fun hge => Value.within_of_not_fits (by omega)⟩

/-- Settles O30: with sign 0 the magnitudes are the integers that the subtractor subtracts. -/
theorem magnitudeSubtractorOutcome : Obligations.MagnitudeSubtractorOutcome := by
  intro md a b ha hb
  refine ⟨fun hsa hsb hle => ?_, fun h => ?_⟩
  · have hva := Value.val_of_nonneg hsa
    have hvb := Value.val_of_nonneg hsb
    rw [← hva, ← hvb]
    exact ha.msub_eq_ofInt hb (by omega) (by omega)
  · rw [← ha.mlt_iff hb] at h
    exact Value.msub_eq_abort md h

/-- Settles O31: each command ends as its function does on the integers of its sources. -/
theorem primitiveCommands : Obligations.PrimitiveCommands := by
  intro s rd rs1 rs2 ha hb a b
  have hmadd : exec (.madd rd rs1 rs2) s =
      finishV rd (Value.madd s.params.maxDigits (s.readV rs1) (s.readV rs2)) s := rfl
  have hmsub : exec (.msub rd rs1 rs2) s =
      finishV rd (Value.msub s.params.maxDigits (s.readV rs1) (s.readV rs2)) s := rfl
  refine ⟨fun hza hzb hfits => ?sum, fun hza hzb hbig => ?capacity, fun h => ?maddAbort, fun hzb hle => ?difference,
    fun h => ?msubAbort⟩
  case sum => rw [hmadd, ha.madd_eq_within hb hza hzb, finishV_within_of_fits rd hfits]
  case capacity => rw [hmadd, ha.madd_eq_within hb hza hzb, finishV_within_of_not_fits rd hbig]
  case maddAbort =>
    rw [hmadd, Value.madd_eq_abort _ (h.imp ha.val_neg_iff.mp hb.val_neg_iff.mp)]
    rfl
  case difference =>
    rw [hmsub, ha.msub_eq_ofInt hb hzb hle]
    rfl
  case msubAbort =>
    rw [hmsub, ha.msub_eq_abort hb h]
    rfl

/-- Settles O32: both functions are `Value.within` of their integer, which exceeds the capacity under one sign for a
sum and under two for a difference. -/
theorem signResolverOutcome : Obligations.SignResolverOutcome := by
  intro md a b ha hb
  rw [ha.add_eq_within hb, ha.sub_eq_within hb]
  exact ⟨Value.within_of_fits, fun h => ⟨Value.within_of_not_fits h, ha.sign_eq_of_not_fits_add hb h⟩,
    Value.within_of_fits, fun h => ⟨Value.within_of_not_fits h, ha.sign_ne_of_not_fits_sub hb h⟩⟩

/-- A command that gives an integer within capacity, when `P` says that it is, succeeds by `P`. -/
theorem finishV_within_of_iff {s : State} {z : Int} (rd : VReg) {P : Prop} [Decidable P]
    (h : Fits s.params.maxDigits z ↔ P) :
    finishV rd (Value.within s.params.maxDigits z) s = .next (if P then resultV s rd z else failed s 2#8) := by
  split
  case isTrue hp => exact finishV_within_of_fits rd (h.mpr hp)
  case isFalse hp => exact finishV_within_of_not_fits rd (mt h.mp hp)

theorem Value.one_canonical {md : Nat} (hmd : 1 ≤ md) : Value.one.Canonical md :=
  ⟨by decide, hmd, .inl (by decide), by decide⟩

/-- Settles O33: each command gives `Value.within` of its integer; INC and DEC can leave the capacity on one side only,
and NEG on neither. -/
theorem signedCommands : Obligations.SignedCommands := by
  intro s rd rs1 rs2 ha hb md a b
  have hone : Value.one.Canonical md := Value.one_canonical ha.one_le_capacity
  have hvone : Value.one.val = 1 := by decide
  obtain ⟨hbelow, habove⟩ := (fits_iff_bounds ..).mp ha.fits
  refine ⟨?add, ?sub, ?neg, ?inc, ?dec⟩
  case add =>
    refine (congrArg (finishV rd · s) (ha.add_eq_within hb)).trans (finishV_within_of_iff rd ?_)
    exact fits_iff_bounds md (a + b)
  case sub =>
    refine (congrArg (finishV rd · s) (ha.sub_eq_within hb)).trans (finishV_within_of_iff rd ?_)
    exact fits_iff_bounds md (a - b)
  case neg =>
    refine (congrArg (finishV rd · s) (Value.neg_eq_within md _)).trans (finishV_within_of_fits rd ?_)
    exact (fits_neg_iff md a).mpr ha.fits
  case inc =>
    refine (congrArg (finishV rd · s) (ha.add_eq_within hone)).trans (finishV_within_of_iff rd ?_)
    rw [hvone, fits_iff_bounds]
    exact and_iff_left (by omega)
  case dec =>
    refine (congrArg (finishV rd · s) (ha.sub_eq_within hone)).trans (finishV_within_of_iff rd ?_)
    rw [hvone, fits_iff_bounds]
    exact and_iff_right (by omega)

/-- What the sign resolver gives is canonical and has the sum as its number. -/
theorem Value.Canonical.of_add_eq_ok {md : Nat} {a b c : Value} (ha : a.Canonical md) (hb : b.Canonical md)
    (h : Value.add md a b = .ok c) : c.Canonical md ∧ c.val = a.val + b.val := by
  have hc : c.Canonical md := (Value.add_canonical ha.one_le_capacity a b).of_eq_ok h
  refine ⟨hc, ?_⟩
  rw [ha.add_eq_within hb] at h
  by_cases hfits : Fits md (a.val + b.val)
  · rw [Value.within_of_fits hfits] at h
    cases h
    exact Value.val_ofInt _
  · rw [Value.within_of_not_fits hfits] at h
    cases h

/-- Settles O34: the identities are those of the integers, since `Value.within` depends on its integer alone; without
failure associativity is that of the numbers of canonical results. -/
theorem additiveIdentities : Obligations.AdditiveIdentities := by
  refine ⟨fun md a b c ha hb hc => ⟨?zero, ?self, ?comm, fun ab l bc r hab hl hbc hr => ?assoc⟩, by decide, by decide,
    by decide⟩
  case zero =>
    have hvzero : Value.zero.val = 0 := by decide
    rw [ha.add_eq_within (Value.zero_canonical ha.one_le_capacity), hvzero, Int.add_zero, ha.within_val]
  case self => rw [ha.sub_eq_within ha, Int.sub_self, Value.within_of_fits (fits_zero md), Value.ofInt_zero]
  case comm => rw [ha.add_eq_within hb, hb.add_eq_within ha, Int.add_comm]
  case assoc =>
    obtain ⟨habc, hvab⟩ := ha.of_add_eq_ok hb hab
    obtain ⟨hbcc, hvbc⟩ := hb.of_add_eq_ok hc hbc
    obtain ⟨hlc, hvl⟩ := habc.of_add_eq_ok hc hl
    obtain ⟨hrc, hvr⟩ := ha.of_add_eq_ok hbcc hr
    have hval : l.val = r.val := by rw [hvl, hvr, hvab, hvbc, Int.add_assoc]
    rw [hlc.eq_ofInt, hrc.eq_ofInt, hval]

end Sys2Proof.Machine

/-! ### The radix shifter (43_shifter.md R115 to R120)

On integers shift left multiplies by a power of the radix and shift right divides by it, truncating; both are
`Value.within` of their integer, so what is left is when a product exceeds the capacity. -/

namespace Sys2Proof.Machine

/-! Powers of the radix, on digits, magnitudes and integers. -/

/-- Dropping the `k` low digits floors the magnitude. -/
theorem magOf_drop (k : Nat) (ds : List Digit) : magOf (ds.drop k) = magOf ds / 16 ^ k := by
  induction k generalizing ds with
  | zero => simp
  | succ k ih =>
    cases ds with
    | nil => simp
    | cons d ds =>
      have hhigh : (d.toNat + 16 * magOf ds) / 16 = magOf ds := by omega
      rw [List.drop_succ_cons, ih, magOf_cons, Nat.pow_succ', ← Nat.div_div_eq_div_mul, hhigh]

/-- Flooring the magnitude under a kept sign truncates the integer. -/
theorem signed_div (sg : Bool) (m n : Nat) : signed sg (m / n) = (signed sg m).tdiv n := by
  cases sg with
  | false => exact Int.ofNat_tdiv m n
  | true => exact (congrArg Neg.neg (Int.ofNat_tdiv m n)).trans (Int.neg_tdiv ..).symm

theorem Value.val_tdiv_pow (a : Value) (k : Nat) : a.val.tdiv (16 ^ k) = signed a.sign (a.mag / 16 ^ k) := by
  rw [signed_div, Value.val_eq_signed, Nat.cast_pow, Nat.cast_ofNat]

theorem Value.val_tdiv_pow_of_lt {a : Value} {k : Nat} (h : a.mag < 16 ^ k) : a.val.tdiv (16 ^ k) = 0 := by
  rw [Value.val_tdiv_pow, Nat.div_eq_of_lt h, ← Int.natAbs_eq_zero, natAbs_signed]

theorem natAbs_mul_pow (z : Int) (k : Nat) : (z * 16 ^ k).natAbs = z.natAbs * 16 ^ k := by
  rw [Int.natAbs_mul, Int.natAbs_pow]
  rfl

theorem natAbs_tdiv_pow (z : Int) (k : Nat) : (z.tdiv (16 ^ k)).natAbs = z.natAbs / 16 ^ k := by
  rw [Int.natAbs_tdiv, Int.natAbs_pow]
  rfl

theorem mul_pow_lt_zero_iff (z : Int) (k : Nat) : z * 16 ^ k < 0 ↔ z < 0 :=
  lt_iff_lt_of_le_iff_le (mul_nonneg_iff_of_pos_right (by positivity))

/-- A positive number times `RADIX^k` has `k` digits more. -/
theorem ndig_mul_pow {m : Nat} (hm : 0 < m) (k : Nat) : ndig (m * 16 ^ k) = ndig m + k := by
  have hm1 : 1 ≤ ndig m := one_le_ndig m
  have hle : ndig (m * 16 ^ k) ≤ ndig m + k := by
    rw [ndig_le_iff (by omega), Nat.pow_add]
    exact Nat.mul_lt_mul_of_pos_right (lt_pow_ndig m) (by positivity)
  have hlt : ndig m - 1 + k < ndig (m * 16 ^ k) := by
    refine (Nat.pow_lt_pow_iff_right (a := 16) (by decide)).mp ?_
    calc 16 ^ (ndig m - 1 + k) = 16 ^ (ndig m - 1) * 16 ^ k := Nat.pow_add ..
      _ ≤ m * 16 ^ k := Nat.mul_le_mul_right _ (pow_ndig_sub_one_le hm)
      _ < 16 ^ ndig (m * 16 ^ k) := lt_pow_ndig _
  omega

/-- When a product by `RADIX^k` is within the capacity. -/
theorem fits_mul_pow_iff {md : Nat} (hmd : 1 ≤ md) (z : Int) (k : Nat) :
    Fits md (z * 16 ^ k) ↔ z = 0 ∨ ndig z.natAbs + k ≤ md := by
  rcases eq_or_ne z 0 with rfl | hz
  · simpa using fits_zero md
  · have hpos : 0 < z.natAbs := Int.natAbs_pos.mpr hz
    rw [or_iff_right hz, ← ndig_mul_pow hpos, ndig_le_iff hmd, ← natAbs_mul_pow]
    rfl

/-- A smaller magnitude fits where a larger one does. -/
theorem Fits.of_natAbs_le {md : Nat} {y z : Int} (hz : Fits md z) (hle : y.natAbs ≤ z.natAbs) : Fits md y :=
  hle.trans_lt hz

/-! The two functions on integers. -/

/-- Shift right is truncating division by a power of the radix (43_shifter.md R117). -/
theorem Value.shr_eq_within (md : Nat) (a : Value) (k : Nat) :
    Value.shr md a k = Value.within md (a.val.tdiv (16 ^ k)) := by
  unfold Value.shr
  split
  case isTrue hle =>
    have hlt : a.mag < 16 ^ k := (magOf_lt_pow_length a.digits).trans_le (Nat.pow_le_pow_right (by decide) hle)
    rw [Value.val_tdiv_pow_of_lt hlt, Value.within_of_fits (fits_zero md), Value.ofInt_zero]
  case isFalse =>
    rw [Value.canon_eq_within, magOf_drop, Value.val_tdiv_pow]
    rfl

section Canonical

variable {md : Nat} {a : Value} (h : a.Canonical md)
include h

theorem Value.Canonical.digits_ne_nil : a.digits ≠ [] := List.length_pos_iff.mp h.1

theorem Value.Canonical.val_eq_zero_iff : a.val = 0 ↔ a = .zero := by
  constructor
  · intro hz
    rw [h.eq_ofInt, hz, Value.ofInt_zero]
  · rintro rfl
    decide

theorem Value.Canonical.shl_eq_within (k : Nat) : Value.shl md a k = Value.within md (a.val * 16 ^ k) := by
  rw [Value.shl_eq_within md k h.digits_ne_nil, Nat.cast_pow, Nat.cast_ofNat]

theorem Value.Canonical.fits_tdiv_pow (k : Nat) : Fits md (a.val.tdiv (16 ^ k)) :=
  h.fits.of_natAbs_le (by rw [natAbs_tdiv_pow]; exact Nat.div_le_self ..)

/-- Shift right of a canonical value never fails (43_shifter.md R117). -/
theorem Value.Canonical.shr_eq_ofInt (k : Nat) : Value.shr md a k = .ok (Value.ofInt (a.val.tdiv (16 ^ k))) := by
  rw [Value.shr_eq_within, Value.within_of_fits (h.fits_tdiv_pow k)]

/-- The digits from `k` up are canonical already, while there is one: the top digit stays. -/
theorem Value.Canonical.drop {k : Nat} (hk : k < a.len) : Value.Canonical md ⟨a.sign, a.digits.drop k⟩ := by
  have ⟨_, hmax, htop, _⟩ := h
  have hlen : (a.digits.drop k).length = a.len - k := List.length_drop
  obtain htop | rfl := htop
  case inl =>
    have hindex : k + (a.len - k - 1) = a.len - 1 := by omega
    have htop' : (a.digits.drop k).getD ((a.digits.drop k).length - 1) 0#4 ≠ 0#4 := by
      rwa [hlen, List.getD_eq_getElem?_getD, List.getElem?_drop, hindex, ← List.getD_eq_getElem?_getD]
    exact ⟨by rw [Value.len, hlen]; omega, by rw [Value.len, hlen]; omega, .inl htop', fun _ => magOf_pos htop'⟩
  case inr =>
    obtain rfl : k = 0 := Nat.lt_one_iff.mp hk
    exact h

end Canonical

/-- Settles O35: the product by `RADIX^k` has `k` digits more than the value, and its sign. -/
theorem shiftLeftOutcome : Obligations.ShiftLeftOutcome := by
  intro md a k h
  have hshl := h.shl_eq_within k
  have hmd := h.one_le_capacity
  have hmag : a.val.natAbs = a.mag := a.natAbs_val
  have hfits : Fits md (a.val * 16 ^ k) ↔ a = .zero ∨ a.len + k ≤ md := by
    rw [fits_mul_pow_iff hmd, h.val_eq_zero_iff, hmag, h.len_eq]
  refine ⟨Value.shl_eq_canon md a k h.digits_ne_nil, ?zero, fun hne hbig => ?capacity, fun hne hsmall => ?product⟩
  case zero =>
    rintro rfl
    rw [hshl, Value.within_of_fits (hfits.mpr (.inl rfl)), h.val_eq_zero_iff.mpr rfl, Int.zero_mul, Value.ofInt_zero]
  case capacity => rw [hshl, Value.within_of_not_fits (mt hfits.mp (not_or.mpr ⟨hne, Nat.not_le.mpr hbig⟩))]
  case product =>
    have hpos : 0 < a.mag := by
      rw [← hmag, Int.natAbs_pos]
      exact mt h.val_eq_zero_iff.mp hne
    refine ⟨Value.ofInt (a.val * 16 ^ k), ?_, ?_, ?_, Value.val_ofInt _⟩
    · rw [hshl, Value.within_of_fits (hfits.mpr (.inr hsmall))]
    · rw [Value.ofInt, Bool.eq_iff_iff, decide_eq_true_iff, mul_pow_lt_zero_iff, h.val_neg_iff]
    · rw [Value.len_ofInt, natAbs_mul_pow, hmag, ndig_mul_pow hpos, h.len_eq]

/-- Settles O36: the digits left are canonical (`Value.Canonical.drop`), and they are the truncated quotient
(`Value.Canonical.shr_eq_ofInt`). -/
theorem shiftRightOutcome : Obligations.ShiftRightOutcome := by
  intro md a k h
  refine ⟨fun hle => if_pos hle, fun hlt => ?digits, ⟨_, h.shr_eq_ofInt k, ?canonical, Value.val_ofInt _⟩,
    fun hlt => ?below⟩
  case digits =>
    rw [Value.shr, if_neg (Nat.not_le.mpr hlt)]
    exact (h.drop hlt).canon_eq
  case canonical => exact Value.ofInt_canonical h.one_le_capacity (h.fits_tdiv_pow k)
  case below => rw [h.shr_eq_ofInt, Value.val_tdiv_pow_of_lt hlt, Value.ofInt_zero]

/-! The commands, by the amount in the scalar register (43_shifter.md R116). -/

section Commands

variable {s : State} {x : XReg} (rd rs1 : VReg)

theorem State.shiftDigits_of_misaligned (h : s.uX x % 4 ≠ 0) : s.shiftDigits x = .fail .invalidShiftAmount := if_pos h

theorem State.shiftDigits_of_aligned (h : s.uX x % 4 = 0) : s.shiftDigits x = .ok (s.uX x / 4) :=
  if_neg (not_not.mpr h)

theorem exec_shl (s : State) (x : XReg) : exec (.shl rd rs1 x) s =
    finishV rd ((s.shiftDigits x).bind (Value.shl s.params.maxDigits (s.readV rs1))) s := rfl

theorem exec_shr (s : State) (x : XReg) : exec (.shr rd rs1 x) s =
    finishV rd ((s.shiftDigits x).bind (Value.shr s.params.maxDigits (s.readV rs1))) s := rfl

theorem exec_shl_of_aligned (hcanon : (s.readV rs1).Canonical s.params.maxDigits) (h : s.uX x % 4 = 0) :
    exec (.shl rd rs1 x) s =
      finishV rd (Value.within s.params.maxDigits ((s.readV rs1).val * 16 ^ (s.uX x / 4))) s := by
  rw [exec_shl, State.shiftDigits_of_aligned h, Res.bind_ok, hcanon.shl_eq_within]

theorem exec_shr_of_aligned (s : State) (h : s.uX x % 4 = 0) :
    exec (.shr rd rs1 x) s =
      finishV rd (Value.within s.params.maxDigits ((s.readV rs1).val.tdiv (16 ^ (s.uX x / 4)))) s := by
  rw [exec_shr, State.shiftDigits_of_aligned h, Res.bind_ok, Value.shr_eq_within]

/-- A command that gives an integer within capacity, and succeeds, has written that integer. -/
theorem eq_resultV_of_finishV_within {t : State} {z : Int} {rd : VReg}
    (h : finishV rd (Value.within s.params.maxDigits z) s = .next t) (hok : t.status.err = 0#8) :
    t = resultV s rd z := by
  by_cases hfits : Fits s.params.maxDigits z
  case pos =>
    rw [finishV_within_of_fits rd hfits] at h
    cases h
    rfl
  case neg =>
    rw [finishV_within_of_not_fits rd hfits] at h
    cases h
    exact absurd hok (errorCode_ne_zero .capacityExceeded)

/-- What SHL leaves when it succeeds: the amount was aligned, and the destination holds the product. -/
theorem eq_resultV_of_exec_shl {t : State} (hcanon : (s.readV rs1).Canonical s.params.maxDigits)
    (hexec : exec (.shl rd rs1 x) s = .next t) (hok : t.status.err = 0#8) :
    s.uX x % 4 = 0 ∧ t = resultV s rd ((s.readV rs1).val * 16 ^ (s.uX x / 4)) := by
  by_cases hal : s.uX x % 4 = 0
  case pos =>
    rw [exec_shl_of_aligned rd rs1 hcanon hal] at hexec
    exact ⟨hal, eq_resultV_of_finishV_within hexec hok⟩
  case neg =>
    rw [exec_shl, State.shiftDigits_of_misaligned hal, Res.bind_fail] at hexec
    cases hexec
    exact absurd hok (errorCode_ne_zero .invalidShiftAmount)

end Commands

/-- Settles O37: a misaligned amount stops a command before its function; with an aligned one it ends as the function
does on integers. -/
theorem shiftCommands : Obligations.ShiftCommands := by
  intro s rd rs1 rs2 hcanon a n
  have hfits : Fits s.params.maxDigits (a * 16 ^ (n / 4)) ↔ a = 0 ∨ ndig a.natAbs + n / 4 ≤ s.params.maxDigits :=
    fits_mul_pow_iff hcanon.one_le_capacity a (n / 4)
  refine ⟨fun hmis => ?misaligned, fun hal => ?shr, fun hal hcap => ?product, fun hal hne hbig => ?capacity⟩
  case misaligned =>
    rw [exec_shl, exec_shr, State.shiftDigits_of_misaligned hmis]
    exact ⟨rfl, rfl⟩
  case shr => rw [exec_shr_of_aligned rd rs1 s hal, finishV_within_of_fits rd (hcanon.fits_tdiv_pow _)]
  case product => rw [exec_shl_of_aligned rd rs1 hcanon hal, finishV_within_of_fits rd (hfits.mpr hcap)]
  case capacity =>
    rw [exec_shl_of_aligned rd rs1 hcanon hal, finishV_within_of_not_fits rd (by rw [hfits]; omega)]

theorem readV_resultV (s : State) (rd : VReg) (z : Int) : (resultV s rd z).readV rd = Value.ofInt z :=
  RegFile.get_set_same ..

/-- Settles O38: dividing by `RADIX^k` undoes multiplying by it exactly; multiplying the truncated quotient again gives
no larger magnitude, so the capacity holds it. -/
theorem shiftInverse : Obligations.ShiftInverse := by
  refine ⟨fun s t rd rs1 rs2 hcanon hexec hok => ?undo, fun md a b k h hshr => ?clear⟩
  case undo =>
    obtain ⟨hal, rfl⟩ := eq_resultV_of_exec_shl rd rs1 hcanon hexec hok
    generalize hk : s.uX rs2 / 4 = k
    have hquot : ((s.readV rs1).val * 16 ^ k).tdiv (16 ^ k) = (s.readV rs1).val :=
      Int.mul_tdiv_cancel _ (by positivity)
    refine ⟨resultV (resultV s rd ((s.readV rs1).val * 16 ^ k)) rd (s.readV rs1).val, ?_, rfl, ?_⟩
    · have hamount : (resultV s rd ((s.readV rs1).val * 16 ^ k)).uX rs2 = s.uX rs2 := rfl
      rw [exec_shr_of_aligned rd rd _ (hamount ▸ hal), hamount, hk, readV_resultV, Value.val_ofInt, hquot]
      exact finishV_within_of_fits rd hcanon.fits
    · rw [readV_resultV, ← hcanon.eq_ofInt]
  case clear =>
    have hfits : Fits md (a.val.tdiv (16 ^ k) * 16 ^ k) := h.fits.of_natAbs_le (by
      rw [natAbs_mul_pow, natAbs_tdiv_pow]
      exact Nat.div_mul_le_self ..)
    rw [h.shr_eq_ofInt] at hshr
    cases hshr
    have hb : (Value.ofInt (a.val.tdiv (16 ^ k))).Canonical md :=
      Value.ofInt_canonical h.one_le_capacity (h.fits_tdiv_pow k)
    rw [hb.shl_eq_within, Value.val_ofInt, Value.within_of_fits hfits]

end Sys2Proof.Machine

/-! ### The schoolbook multiplier (44_multiplier.md R122 to R129)

The loops on natural numbers never leave the capacity, because the running total is part of a product whose length the
pre-check admitted; so outside the refusal the multiplier is integer multiplication. -/

namespace Sys2Proof.Machine

/-- The sign put on last is the sign of the product (44_multiplier.md R127). -/
theorem Value.val_mul_val (a b : Value) : a.val * b.val = signed (a.sign ^^ b.sign) (a.mag * b.mag) := by
  rw [Value.val_eq_signed, Value.val_eq_signed]
  cases a.sign <;> cases b.sign <;> simp [signed]

theorem fits_natCast_iff (md m : Nat) : Fits md m ↔ m < 16 ^ md := by
  rw [Fits, Int.natAbs_natCast]
  rfl

theorem Value.zero_eq_ofNat : Value.zero = Value.ofInt (0 : Nat) := Value.ofInt_zero.symm

theorem Value.add_ofNat {md x y : Nat} (hmd : 1 ≤ md) (h : x + y < 16 ^ md) :
    Value.add md (Value.ofInt x) (Value.ofInt y) = .ok (Value.ofInt (x + y : Nat)) := by
  have hcanon (n : Nat) (hn : n < 16 ^ md) : (Value.ofInt n).Canonical md :=
    Value.ofInt_canonical hmd ((fits_natCast_iff md n).mpr hn)
  rw [(hcanon x (by omega)).add_eq_within (hcanon y (by omega)), Value.val_ofInt, Value.val_ofInt, ← Nat.cast_add,
    Value.within_natCast h]

section Loops

variable {md : Nat} {a : Value} (ha : a.Canonical md)
include ha

/-- Repeated magnitude addition multiplies by a digit (44_multiplier.md R126). -/
theorem Value.Canonical.addTimes_ofNat {k p : Nat} (h : p + a.mag * k < 16 ^ md) :
    addTimes md a k (Value.ofInt p) = .ok (Value.ofInt (p + a.mag * k : Nat)) := by
  induction k generalizing p with
  | zero => rfl
  | succ k ih =>
    have hsplit : p + a.mag * (k + 1) = p + a.mag + a.mag * k := by ring
    rw [hsplit] at h ⊢
    rw [addTimes, ha.abs_eq_ofInt, Value.madd_ofNat (by omega), Res.bind_ok, ih h]

/-- The digits from position `i` on add their product, shifted by `i`, to the running total (44_multiplier.md R125). -/
theorem Value.Canonical.mulLoop_ofNat {ds : List Digit} {i t : Nat} (h : t + a.mag * magOf ds * 16 ^ i < 16 ^ md) :
    mulLoop md a ds i (Value.ofInt t) = .ok (Value.ofInt (t + a.mag * magOf ds * 16 ^ i : Nat)) := by
  induction ds generalizing i t with
  | nil => simp [mulLoop]
  | cons d ds ih =>
    have hsplit : t + a.mag * magOf (d :: ds) * 16 ^ i =
        t + a.mag * d.toNat * 16 ^ i + a.mag * magOf ds * 16 ^ (i + 1) := by
      rw [magOf_cons]
      ring
    rw [hsplit] at h ⊢
    have hdigit : a.mag * d.toNat ≤ a.mag * d.toNat * 16 ^ i := Nat.le_mul_of_pos_right _ (Nat.pow_pos (by decide))
    have hpartial : addTimes md a d.toNat .zero = .ok (Value.ofInt (a.mag * d.toNat : Nat)) := by
      rw [Value.zero_eq_ofNat, ha.addTimes_ofNat (by omega), Nat.zero_add]
    rw [mulLoop, hpartial, Res.bind_ok, Value.shl_ofNat (by omega), Res.bind_ok,
      Value.add_ofNat ha.one_le_capacity (by omega), Res.bind_ok, ih h]

/-- The whole loop gives the product of the magnitudes. -/
theorem Value.Canonical.mulLoop_digits {b : Value} (h : a.mag * b.mag < 16 ^ md) :
    mulLoop md a b.digits 0 .zero = .ok (Value.ofInt (a.mag * b.mag : Nat)) := by
  have htotal : 0 + a.mag * magOf b.digits * 16 ^ 0 = a.mag * b.mag := by
    rw [Nat.zero_add, Nat.pow_zero, Nat.mul_one]
    rfl
  rw [Value.zero_eq_ofNat, ha.mulLoop_ofNat (by rwa [htotal]), htotal]

end Loops

theorem Value.mag_mul_mag_lt_pow (a b : Value) : a.mag * b.mag < 16 ^ (a.len + b.len) :=
  calc a.mag * b.mag < 16 ^ a.len * 16 ^ b.len :=
        Nat.mul_lt_mul'' (magOf_lt_pow_length a.digits) (magOf_lt_pow_length b.digits)
    _ = 16 ^ (a.len + b.len) := (Nat.pow_add ..).symm

section Product

variable {md : Nat} {a b : Value} (ha : a.Canonical md) (hb : b.Canonical md)
include ha hb

/-- Where the multiplier does not refuse, the magnitude of the product is within the capacity. -/
theorem Value.Canonical.mag_mul_mag_lt (h : a.mag ≤ 1 ∨ b.mag ≤ 1 ∨ a.len + b.len ≤ md) : a.mag * b.mag < 16 ^ md := by
  obtain h | h | h := h
  · calc a.mag * b.mag ≤ 1 * b.mag := Nat.mul_le_mul_right _ h
      _ = b.mag := Nat.one_mul _
      _ < 16 ^ md := hb.mag_lt
  · calc a.mag * b.mag ≤ a.mag * 1 := Nat.mul_le_mul_left _ h
      _ = a.mag := Nat.mul_one _
      _ < 16 ^ md := ha.mag_lt
  · exact (Value.mag_mul_mag_lt_pow a b).trans_le (Nat.pow_le_pow_right (by decide) h)

/-- The multiplier is integer multiplication unless the pre-check refuses (44_multiplier.md R129). -/
theorem Value.Canonical.mul_eq_ofInt (h : a.mag ≤ 1 ∨ b.mag ≤ 1 ∨ a.len + b.len ≤ md) :
    Value.mul md a b = .ok (Value.ofInt (a.val * b.val)) := by
  have hlt := ha.mag_mul_mag_lt hb h
  have hcanon {ds : List Digit} (hds : magOf ds = a.mag * b.mag) :
      Value.canon md (a.sign ^^ b.sign) ds = .ok (Value.ofInt (a.val * b.val)) := by
    rw [Value.canon_eq_within, hds, Value.val_mul_val, Value.within_of_fits]
    rwa [Fits, natAbs_signed]
  unfold Value.mul
  split
  case isTrue hzero =>
    have hprod : a.val * b.val = 0 := Int.mul_eq_zero.mpr (hzero.imp ha.val_eq_zero_iff.mpr hb.val_eq_zero_iff.mpr)
    rw [hprod, Value.ofInt_zero]
  case isFalse hnonzero =>
    split
    case isTrue hone => exact hcanon (by rw [hone, Nat.one_mul]; rfl)
    case isFalse ha1 =>
      split
      case isTrue hone => exact hcanon (by rw [hone, Nat.mul_one]; rfl)
      case isFalse hb1 =>
        obtain ⟨hza, hzb⟩ := not_or.mp hnonzero
        have hpa := ha.mag_pos hza
        have hpb := hb.mag_pos hzb
        rw [if_neg (by omega), ha.mulLoop_digits hlt, Res.bind_ok]
        exact hcanon (Value.mag_ofNat _)

end Product

/-- The pre-check refuses on the digit counts, before any digit is multiplied (44_multiplier.md R124). -/
theorem Value.mul_eq_fail {md : Nat} {a b : Value} (ha : 2 ≤ a.mag) (hb : 2 ≤ b.mag) (h : md < a.len + b.len) :
    Value.mul md a b = .fail .capacityExceeded := by
  have hne {v : Value} (hv : 2 ≤ v.mag) : v ≠ .zero := by
    rintro rfl
    exact absurd hv (by decide)
  rw [Value.mul, if_neg (not_or.mpr ⟨hne ha, hne hb⟩), if_neg (by omega), if_neg (by omega), if_pos h]

/-- Settles O39: outside the refusal the loops compute the product (`Value.Canonical.mul_eq_ofInt`); on two magnitudes
of at least 2 only the pre-check is left before them. -/
theorem multiplierOutcome : Obligations.MultiplierOutcome :=
  fun _ _ _ ha hb => ⟨fun hsmall => ha.mul_eq_ofInt hb (by omega), Value.mul_eq_fail,
    fun hlen => ha.mul_eq_ofInt hb (.inr (.inr hlen))⟩

/-- Settles O40: MUL ends as the multiplier does, with the magnitudes and digit counts those of the integers. -/
theorem multiplyCommand : Obligations.MultiplyCommand := by
  intro s rd rs1 rs2 ha hb a b
  have hmul : exec (.mul rd rs1 rs2) s =
      finishV rd (Value.mul s.params.maxDigits (s.readV rs1) (s.readV rs2)) s := rfl
  have hmaga : a.natAbs = (s.readV rs1).mag := Value.natAbs_val _
  have hmagb : b.natAbs = (s.readV rs2).mag := Value.natAbs_val _
  rw [hmaga, hmagb, ← ha.len_eq, ← hb.len_eq]
  refine ⟨fun hadmitted => ?product, fun ⟨h2a, h2b, hlen⟩ => ?refused⟩
  case product =>
    rw [hmul, ha.mul_eq_ofInt hb (by omega)]
    rfl
  case refused =>
    rw [hmul, Value.mul_eq_fail h2a h2b hlen]
    rfl

end Sys2Proof.Machine

/-! ### The long divider and its commands (45_divider.md R131, R136 to R140)

`Value.divrem_eq` gives the magnitudes and signs; here they are read as truncating division of the integers. -/

namespace Sys2Proof.Machine

theorem ndig_mono {x y : Nat} (h : x ≤ y) : ndig x ≤ ndig y :=
  Nat.not_lt.mp (mt ndig_lt_ndig (Nat.not_lt.mpr h))

theorem signed_true (m : Nat) : signed true m = -(m : Int) := rfl

/-- The remainder of the magnitude under a kept sign is the truncating remainder. -/
theorem signed_mod (sg : Bool) (m n : Nat) : signed sg (m % n) = (signed sg m).tmod n := by
  cases sg with
  | false => exact Int.ofNat_tmod m n
  | true => rw [signed_true, signed_true, Int.ofNat_tmod, Int.neg_tmod]

/-- The truncating quotient has the quotient of the magnitudes, its sign from both operands (45_divider.md R136). -/
theorem Value.val_tdiv_val (a b : Value) : a.val.tdiv b.val = signed (a.sign ^^ b.sign) (a.mag / b.mag) := by
  rw [Value.val_eq_signed a, Value.val_eq_signed b]
  cases b.sign with
  | false => rw [Bool.xor_false, signed_div, signed_false]
  | true => rw [Bool.xor_true, signed_not, signed_div, signed_true, Int.tdiv_neg]

/-- The truncating remainder has the remainder of the magnitudes, its sign from the dividend (45_divider.md R136). -/
theorem Value.val_tmod_val (a b : Value) : a.val.tmod b.val = signed a.sign (a.mag % b.mag) := by
  rw [Value.val_eq_signed a, Value.val_eq_signed b, signed_mod]
  cases b.sign with
  | false => rw [signed_false]
  | true => rw [signed_true, Int.tmod_neg]

section Canonical

variable {md : Nat} {a b : Value} (ha : a.Canonical md) (hb : b.Canonical md)
include ha

theorem Value.Canonical.fits_tdiv (z : Int) : Fits md (a.val.tdiv z) :=
  ha.fits.of_natAbs_le (by rw [Int.natAbs_tdiv]; exact Nat.div_le_self ..)

theorem Value.Canonical.fits_tmod (z : Int) : Fits md (a.val.tmod z) :=
  ha.fits.of_natAbs_le (by rw [Int.natAbs_tmod]; exact Nat.mod_le ..)

include hb

/-- By a nonzero divisor the divider is truncating division; it fails for no other reason (45_divider.md R140). -/
theorem Value.Canonical.divrem_eq_ofInt (hz : b ≠ .zero) :
    Value.divrem md a b = .ok (Value.ofInt (a.val.tdiv b.val), Value.ofInt (a.val.tmod b.val)) := by
  rw [Value.divrem_eq ha hb hz, Value.val_tdiv_val, Value.val_tmod_val]

end Canonical

theorem Value.divrem_zero (md : Nat) (a : Value) : Value.divrem md a .zero = .fail .divideByZero := if_pos rfl

/-- A remainder that is not zero has the dividend's sign (45_divider.md R136). -/
theorem Value.ofInt_tmod_sign (a b : Value) :
    Value.ofInt (a.val.tmod b.val) = .zero ∨ (Value.ofInt (a.val.tmod b.val)).sign = a.sign := by
  rw [Value.val_tmod_val]
  rcases Nat.eq_zero_or_pos (a.mag % b.mag) with hzero | hpos
  · left
    rw [hzero, Int.natAbs_eq_zero.mp (natAbs_signed a.sign 0), Value.ofInt_zero]
  · right
    rw [Value.ofInt_signed, decide_eq_true hpos, Bool.and_true]

/-- Settles O42: the divider gives the truncating quotient and remainder (`Value.Canonical.divrem_eq_ofInt`), so each
clause is one about integers or about the digit counts of smaller magnitudes. -/
theorem dividerOutcome : Obligations.DividerOutcome := by
  intro md a b ha hb
  refine ⟨fun hzero => ?zero, fun hz => ?nonzero⟩
  case zero => rw [hzero, Value.divrem_zero]
  case nonzero =>
    have hmd := ha.one_le_capacity
    have hmagq : (Value.ofInt (a.val.tdiv b.val)).mag = a.mag / b.mag := by
      rw [Value.mag_ofInt, Int.natAbs_tdiv, Value.natAbs_val, Value.natAbs_val]
      rfl
    have hmagr : (Value.ofInt (a.val.tmod b.val)).mag = a.mag % b.mag := by
      rw [Value.mag_ofInt, Int.natAbs_tmod, Value.natAbs_val, Value.natAbs_val]
    have hlt : a.mag % b.mag < b.mag := Nat.mod_lt _ (hb.mag_pos hz)
    have hq : (Value.ofInt (a.val.tdiv b.val)).Canonical md := Value.ofInt_canonical hmd (ha.fits_tdiv _)
    have hr : (Value.ofInt (a.val.tmod b.val)).Canonical md := Value.ofInt_canonical hmd (ha.fits_tmod _)
    refine ⟨_, _, ha.divrem_eq_ofInt hb hz, hq, hr, Value.val_ofInt _, Value.val_ofInt _, hmagq, hmagr, hmagr ▸ hlt,
      ?identity, Value.ofInt_tmod_sign a b, ?lenq, ?lenr⟩
    case identity => rw [Value.val_ofInt, Value.val_ofInt, Int.mul_comm, Int.mul_tdiv_add_tmod]
    case lenq =>
      rw [hq.len_eq, ha.len_eq, hmagq]
      exact ndig_mono (Nat.div_le_self ..)
    case lenr =>
      rw [hr.len_eq, hb.len_eq, hmagr]
      exact ndig_mono hlt.le

/-- Settles O43: each command ends as the divider does on the sources, and writes its part of the result. -/
theorem divisionCommands : Obligations.DivisionCommands := by
  intro s rd rd2 rs1 rs2 ha hb a b
  have hdiv : exec (.div rd rs1 rs2) s =
      finish (Value.divrem s.params.maxDigits (s.readV rs1) (s.readV rs2)) (fun p t => t.writeV rd p.1) s := rfl
  have hmod : exec (.mod rd rs1 rs2) s =
      finish (Value.divrem s.params.maxDigits (s.readV rs1) (s.readV rs2)) (fun p t => t.writeV rd p.2) s := rfl
  have hdivrem : exec (.divrem rd rd2 rs1 rs2) s =
      finish (Value.divrem s.params.maxDigits (s.readV rs1) (s.readV rs2))
        (fun p t => (t.writeV rd p.1).writeV rd2 p.2) s := rfl
  rw [hdiv, hmod, hdivrem]
  refine ⟨fun hne => ?results, fun hzero => ?zero⟩
  case results =>
    rw [ha.divrem_eq_ofInt hb (mt hb.val_eq_zero_iff.mpr hne)]
    exact ⟨rfl, rfl, rfl⟩
  case zero =>
    rw [hb.val_eq_zero_iff.mp hzero, Value.divrem_zero]
    exact ⟨rfl, rfl, rfl⟩

end Sys2Proof.Machine

/-! ### PARSE (46_text_codec.md R145 to R152)

After the sign and the `0x` are taken off, PARSE ends as the canonicaliser does on the signed number of the digit run
(`exec_parse_of_run`), so a statement about a text is one about its run and the number that the run spells. -/

namespace Sys2Proof.Machine

/-! The sign and the digit run of a text. -/

/-- The text does not begin with a sign character. -/
def Unsigned (t : List Byte) : Prop := ∀ c, t.head? = some c → c ≠ 0x2B#8 ∧ c ≠ 0x2D#8

theorem takeSign_of_unsigned {t : List Byte} (h : Unsigned t) : takeSign t = (false, t) := by
  cases t with
  | nil => rfl
  | cons c t =>
    obtain ⟨hplus, hminus⟩ := h c rfl
    rw [takeSign, if_neg (show c ≠ chMinus from hminus), if_neg (show c ≠ chPlus from hplus)]

/-- One sign character is taken off; without one the text stays whole (46_text_codec.md R145). -/
theorem takeSign_append {sg t : List Byte} {neg : Bool} (hsign : SignText sg neg) (ht : sg = [] → Unsigned t) :
    takeSign (sg ++ t) = (neg, t) := by
  obtain ⟨rfl, rfl⟩ | ⟨rfl, rfl⟩ | ⟨rfl, rfl⟩ := hsign
  · exact takeSign_of_unsigned (ht rfl)
  · rfl
  · rfl

theorem takeWhile_eq_nil_of_head? {p : Byte → Bool} {t : List Byte} (h : ∀ c, t.head? = some c → p c = false) :
    t.takeWhile p = [] := by
  cases t with
  | nil => rfl
  | cons c t => exact List.takeWhile_cons_of_neg (Bool.not_eq_true _ ▸ h c rfl)

/-- A run of one class is read up to what does not continue it (46_text_codec.md R151). -/
theorem takeWhile_run {p : Byte → Bool} {run rest : List Byte} (hrun : ∀ c ∈ run, p c = true)
    (hrest : ∀ c, rest.head? = some c → p c = false) : (run ++ rest).takeWhile p = run := by
  rw [List.takeWhile_append_of_pos hrun, takeWhile_eq_nil_of_head? hrest, List.append_nil]

theorem digitRun_of_hexPrefix {t : List Byte} (h : hasHexPrefix t = true) :
    digitRun t = (t.drop 2).takeWhile isHexDigit := if_pos h

theorem digitRun_of_no_hexPrefix {t : List Byte} (h : hasHexPrefix t = false) : digitRun t = t.takeWhile isDecDigit :=
  if_neg (Bool.not_eq_true _ ▸ h)

theorem hasHexPrefix_cons_cons {x : Byte} (hx : x = 0x78#8 ∨ x = 0x58#8) (t : List Byte) :
    hasHexPrefix (0x30#8 :: x :: t) = true := by
  obtain rfl | rfl := hx <;> rfl

theorem unsigned_of_isDecDigit {t : List Byte} (h : ∀ c, t.head? = some c → isDecDigit c = true) : Unsigned t := by
  intro c hc
  constructor <;> rintro rfl <;> exact absurd (h _ hc) (by decide)

/-! PARSE by the digit run of its text. -/

/-- The magnitude of the digit run of a text after its sign (46_text_codec.md R149, R150). -/
def runMagnitude (md : Nat) (t : List Byte) : Res Value :=
  if hasHexPrefix t then hexAssemble md (digitRun t) else decAccumulate md (digitRun t) .zero

section Parse

variable {s : State} {sg t : List Byte} {neg : Bool} (rd : VReg) (hfit : s.tlen ≤ s.params.textMax)
  (hsign : SignText sg neg) (ht : sg = [] → Unsigned t) (htext : s.text = sg ++ t)
include hsign ht htext

theorem malformed_text : malformed s.text = (digitRun t).isEmpty := by
  rw [malformed, htext, takeSign_append hsign ht]

include hfit

/-- A text with a digit run gives the magnitude of the run under the sign (46_text_codec.md R152). -/
theorem exec_parse_of_run (hrun : digitRun t ≠ []) :
    exec (.parse rd) s = finishV rd
      ((runMagnitude s.params.maxDigits t).bind fun m => Value.canon s.params.maxDigits neg m.digits)
      (warned s false) := by
  have hwell : malformed s.text = false := by
    rw [malformed_text hsign ht htext, List.isEmpty_eq_false_iff]
    exact hrun
  have hvalue : parseValue s.params.maxDigits s.text =
      (runMagnitude s.params.maxDigits t).bind fun m => Value.canon s.params.maxDigits neg m.digits := by
    rw [parseValue, htext, takeSign_append hsign ht]
    rfl
  rw [← hvalue]
  change execParse rd s = _
  rw [execParse, if_neg (Nat.not_lt.mpr hfit), hwell]
  rfl

/-- A run that spells `m` gives `m` under the sign, refused at capacity. -/
theorem exec_parse_of_within (hrun : digitRun t ≠ []) {m : Nat}
    (hm : runMagnitude s.params.maxDigits t = Value.within s.params.maxDigits m) :
    exec (.parse rd) s = finishV rd (Value.within s.params.maxDigits (signed neg m)) (warned s false) := by
  rw [exec_parse_of_run rd hfit hsign ht htext hrun, hm, Value.within_bind_canon]

/-- A text without a digit run is answered by the parse mode (46_text_codec.md R147, R148). -/
theorem exec_parse_of_no_run (hrun : digitRun t = []) :
    exec (.parse rd) s =
      if s.cfg.pcompat then .next (resultV (warned s true) rd 0) else .next (failed (warned s false) 4#8) := by
  have hbad : malformed s.text = true := by rw [malformed_text hsign ht htext, hrun, List.isEmpty_nil]
  change execParse rd s = _
  rw [execParse, if_neg (Nat.not_lt.mpr hfit), hbad]
  rfl

end Parse

/-- Settles O47: the hypotheses say that the run in the base of the text is empty. -/
theorem parseMalformedText : Obligations.ParseMalformedText := by
  intro s rd sg rest neg hfit hsign hhead hdec hhex htext
  have hrun : digitRun rest = [] := by
    cases hpre : hasHexPrefix rest with
    | true => rw [digitRun_of_hexPrefix hpre, takeWhile_eq_nil_of_head? (hhex hpre)]
    | false => rw [digitRun_of_no_hexPrefix hpre, takeWhile_eq_nil_of_head? (hdec hpre)]
  rw [exec_parse_of_no_run rd hfit hsign hhead htext hrun]
  exact ⟨fun hstrict => by rw [hstrict]; rfl, fun hcompat => by rw [hcompat]; rfl⟩

/-! Hexadecimal runs (46_text_codec.md R150). -/

theorem accumulate_map_hexValue (run : List Byte) (acc : Nat) :
    accumulate (run.map hexValue) acc = run.foldl (fun acc c => 16 * acc + (hexValue c).toNat) acc := by
  induction run generalizing acc with
  | nil => rfl
  | cons c run ih =>
    rw [List.map_cons, accumulate, ih, List.foldl_cons, Nat.mul_comm]
    rfl

/-- The digits of a hexadecimal run, its first character the highest digit, spell its number. -/
theorem magOf_reverse_map_hexValue (run : List Byte) : magOf (run.map hexValue).reverse = hexNumber run := by
  rw [← accumulate_reverse, List.reverse_reverse, accumulate_map_hexValue]
  rfl

theorem hexAssemble_eq_within (md : Nat) (run : List Byte) : hexAssemble md run = Value.within md (hexNumber run) := by
  rw [hexAssemble, Value.canon_eq_within, magOf_reverse_map_hexValue, signed_false]

/-- PARSE of a hexadecimal text ends as the canonicaliser does on its number. -/
theorem exec_parse_hex {s : State} (rd : VReg) {sg run rest : List Byte} {neg : Bool} {x : Byte}
    (hfit : s.tlen ≤ s.params.textMax) (hsign : SignText sg neg) (hx : x = 0x78#8 ∨ x = 0x58#8) (hne : run ≠ [])
    (hrun : ∀ c ∈ run, isHexDigit c = true) (hrest : ∀ c, rest.head? = some c → isHexDigit c = false)
    (htext : s.text = sg ++ 0x30#8 :: x :: (run ++ rest)) :
    exec (.parse rd) s =
      finishV rd (Value.within s.params.maxDigits (signed neg (hexNumber run))) (warned s false) := by
  have hpre := hasHexPrefix_cons_cons hx (run ++ rest)
  have hdigits : digitRun (0x30#8 :: x :: (run ++ rest)) = run :=
    (digitRun_of_hexPrefix hpre).trans (takeWhile_run hrun hrest)
  have hunsigned : Unsigned (0x30#8 :: x :: (run ++ rest)) :=
    unsigned_of_isDecDigit (by rintro c ⟨⟩; decide)
  refine exec_parse_of_within rd hfit hsign (fun _ => hunsigned) htext (by rwa [hdigits]) ?_
  rw [runMagnitude, if_pos hpre, hdigits, hexAssemble_eq_within]

/-- Settles O45: PARSE ends as the canonicaliser does (`exec_parse_hex`). -/
theorem parseHexadecimalText : Obligations.ParseHexadecimalText := by
  intro s rd sg run rest neg x hfit hsign hx hne hrun hrest htext z
  rw [exec_parse_hex rd hfit hsign hx hne hrun hrest htext]
  exact ⟨fun hz => finishV_within_of_fits (s := warned s false) rd hz,
    fun hz => finishV_within_of_not_fits (s := warned s false) rd hz⟩

/-! Decimal runs (46_text_codec.md R149). -/

/-- The number that a run spells after the digits of `acc`. -/
def decFrom (acc : Nat) (run : List Byte) : Nat := run.foldl (fun acc c => 10 * acc + (c.toNat - 0x30)) acc

theorem decNumber_eq_decFrom (run : List Byte) : decNumber run = decFrom 0 run := rfl

theorem decFrom_nil (acc : Nat) : decFrom acc [] = acc := rfl

theorem decFrom_cons (acc : Nat) (c : Byte) (run : List Byte) :
    decFrom acc (c :: run) = decFrom (10 * acc + (c.toNat - 0x30)) run := List.foldl_cons ..

theorem decNumber_append (pre post : List Byte) : decNumber (pre ++ post) = decFrom (decNumber pre) post :=
  List.foldl_append

theorem le_decFrom (acc : Nat) (run : List Byte) : acc ≤ decFrom acc run := by
  induction run generalizing acc with
  | nil => exact Nat.le_refl acc
  | cons c run ih => exact Nat.le_trans (by omega) (ih (10 * acc + (c.toNat - 0x30)))

/-- A further digit takes the number at least ten times up. -/
theorem decNumber_append_cons_ge (pre : List Byte) (c : Byte) (post : List Byte) :
    10 * decNumber pre ≤ decNumber (pre ++ c :: post) := by
  rw [decNumber_append, decFrom_cons]
  exact Nat.le_trans (Nat.le_add_right ..) (le_decFrom ..)

/-- Before the digit `c`, the number read so far is at least 2 and fills the capacity: the multiplication by ten is
refused (44_multiplier.md R124). -/
def DecRefused (md acc : Nat) (run : List Byte) : Prop :=
  ∃ pre c post, run = pre ++ c :: post ∧ 2 ≤ decFrom acc pre ∧ md ≤ ndig (decFrom acc pre)

theorem not_decRefused_nil (md acc : Nat) : ¬ DecRefused md acc [] := by
  rintro ⟨pre, c, post, hnil, -⟩
  exact absurd hnil.symm (by simp)

/-- The refusal meets the first digit or a later one. -/
theorem decRefused_cons_iff {md acc : Nat} {c : Byte} {run : List Byte} :
    DecRefused md acc (c :: run) ↔
      (2 ≤ acc ∧ md ≤ ndig acc) ∨ DecRefused md (10 * acc + (c.toNat - 0x30)) run := by
  constructor
  · rintro ⟨pre, c', post, hsplit, htwo, hfull⟩
    cases pre with
    | nil => exact .inl ⟨htwo, hfull⟩
    | cons d pre =>
      obtain ⟨rfl, hrun⟩ := List.cons.inj hsplit
      exact .inr ⟨pre, c', post, hrun, htwo, hfull⟩
  · rintro (⟨htwo, hfull⟩ | ⟨pre, c', post, rfl, htwo, hfull⟩)
    · exact ⟨[], c, run, rfl, htwo, hfull⟩
    · exact ⟨c :: pre, c', post, rfl, htwo, hfull⟩

theorem decValue_toNat {c : Byte} (hc : isDecDigit c = true) :
    (decValue c).toNat = c.toNat - 0x30 ∧ c.toNat - 0x30 < 10 := by
  have hrange : 0x30 ≤ c.toNat ∧ c.toNat ≤ 0x39 := of_decide_eq_true hc
  rw [decValue, BitVec.toNat_ofNat]
  omega

theorem canon_decValue {md : Nat} (hmd : 1 ≤ md) {c : Byte} (hc : isDecDigit c = true) :
    Value.canon md false [decValue c] = .ok (Value.ofInt (c.toNat - 0x30 : Nat)) := by
  obtain ⟨hdigit, hlt⟩ := decValue_toNat hc
  have hpow : 16 ^ 1 ≤ 16 ^ md := Nat.pow_le_pow_right (by decide) hmd
  rw [Value.canon_eq_within, magOf_cons, magOf_nil, hdigit, signed_false]
  exact Value.within_natCast (by omega)

theorem Value.mul_ten_eq_fail {md m : Nat} (htwo : 2 ≤ m) (hfull : md ≤ ndig m) :
    Value.mul md (Value.ofInt m) .ten = .fail .capacityExceeded := by
  have hlen : (Value.ofInt m).len = ndig m := Value.len_ofInt m
  have hten : Value.ten.len = 1 := rfl
  exact Value.mul_eq_fail (by rwa [Value.mag_ofNat]) (by decide) (by omega)

/-- The pre-check refuses the multiplication by ten, so the digit is not read. -/
theorem decAccumulate_cons_of_full {md m : Nat} (htwo : 2 ≤ m) (hfull : md ≤ ndig m)
    (c : Byte) (run : List Byte) :
    decAccumulate md (c :: run) (Value.ofInt m) = .fail .capacityExceeded := by
  rw [decAccumulate, Value.mul_ten_eq_fail htwo hfull, Res.bind_fail]

section Accumulate

variable {md m : Nat} (hmd : 1 ≤ md) (hm : m < 16 ^ md)
include hmd hm

theorem Value.ofNat_canonical : (Value.ofInt m).Canonical md :=
  Value.ofInt_canonical hmd ((fits_natCast_iff md m).mpr hm)

/-- Where the pre-check admits it, the multiplication by ten is exact and within the capacity. -/
theorem Value.mul_ten_eq_ofNat (h : ¬ (2 ≤ m ∧ md ≤ ndig m)) :
    Value.mul md (Value.ofInt m) .ten = .ok (Value.ofInt (m * 10 : Nat)) ∧ m * 10 < 16 ^ md := by
  have hcanon := Value.ofNat_canonical hmd hm
  have hten := Value.ten_canonical hmd
  have hlen : (Value.ofInt m).len = ndig m := Value.len_ofInt m
  have hlenTen : Value.ten.len = 1 := rfl
  have hmag : (Value.ofInt m).mag = m := Value.mag_ofNat m
  have hadmit : (Value.ofInt m).mag ≤ 1 ∨ Value.ten.mag ≤ 1 ∨ (Value.ofInt m).len + Value.ten.len ≤ md := by omega
  have hlt := hcanon.mag_mul_mag_lt hten hadmit
  refine ⟨?_, by rwa [hmag] at hlt⟩
  rw [hcanon.mul_eq_ofInt hten hadmit, Value.val_ofInt, Nat.cast_mul]
  rfl

/-- One turn of the accumulation, where the pre-check admits the multiplication. -/
theorem decAccumulate_cons {c : Byte} (hc : isDecDigit c = true) (run : List Byte) (h : ¬ (2 ≤ m ∧ md ≤ ndig m)) :
    decAccumulate md (c :: run) (Value.ofInt m) =
      (Value.within md (10 * m + (c.toNat - 0x30) : Nat)).bind (decAccumulate md run) := by
  obtain ⟨hmul, hlt⟩ := Value.mul_ten_eq_ofNat hmd hm h
  obtain ⟨-, hdigit⟩ := decValue_toNat hc
  have hpow : 16 ^ 1 ≤ 16 ^ md := Nat.pow_le_pow_right (by decide) hmd
  have hcanonMul := Value.ofNat_canonical hmd hlt
  have hcanonDigit := Value.ofNat_canonical (m := c.toNat - 0x30) hmd (by omega)
  rw [decAccumulate, hmul, Res.bind_ok, canon_decValue hmd hc, Res.bind_ok, hcanonMul.add_eq_within hcanonDigit,
    Value.val_ofInt, Value.val_ofInt, ← Nat.cast_add, Nat.mul_comm]

end Accumulate

/-- The accumulation is refused by a full leading part, whatever follows it (46_text_codec.md R149). -/
theorem decAccumulate_of_refused {md m : Nat} (hmd : 1 ≤ md) (hm : m < 16 ^ md) {run : List Byte}
    (hrun : ∀ c ∈ run, isDecDigit c = true) (h : DecRefused md m run) :
    decAccumulate md run (Value.ofInt m) = .fail .capacityExceeded := by
  induction run generalizing m with
  | nil => exact absurd h (not_decRefused_nil md m)
  | cons c run ih =>
    obtain ⟨hc, hrun⟩ := List.forall_mem_cons.mp hrun
    by_cases hfull : 2 ≤ m ∧ md ≤ ndig m
    · exact decAccumulate_cons_of_full hfull.1 hfull.2 c run
    · have hlater := (decRefused_cons_iff.mp h).resolve_left hfull
      rw [decAccumulate_cons hmd hm hc run hfull]
      by_cases hfits : 10 * m + (c.toNat - 0x30) < 16 ^ md
      · rw [Value.within_natCast hfits, Res.bind_ok, ih hfits hrun hlater]
      · rw [Value.within_of_not_fits (mt (fits_natCast_iff ..).mp hfits), Res.bind_fail]

/-- Without a full leading part the accumulation gives the number of the run, refused at capacity (46_text_codec.md
R149). -/
theorem decAccumulate_of_not_refused {md m : Nat} (hmd : 1 ≤ md) (hm : m < 16 ^ md) {run : List Byte}
    (hrun : ∀ c ∈ run, isDecDigit c = true) (h : ¬ DecRefused md m run) :
    decAccumulate md run (Value.ofInt m) = Value.within md (decFrom m run) := by
  induction run generalizing m with
  | nil => exact (Value.within_natCast hm).symm
  | cons c run ih =>
    obtain ⟨hc, hrun⟩ := List.forall_mem_cons.mp hrun
    obtain ⟨hfull, hlater⟩ := not_or.mp (mt decRefused_cons_iff.mpr h)
    rw [decAccumulate_cons hmd hm hc run hfull, decFrom_cons]
    by_cases hfits : 10 * m + (c.toNat - 0x30) < 16 ^ md
    · rw [Value.within_natCast hfits, Res.bind_ok, ih hfits hrun hlater]
    · have hgrows := le_decFrom (10 * m + (c.toNat - 0x30)) run
      have hbig : ¬ decFrom (10 * m + (c.toNat - 0x30)) run < 16 ^ md := by omega
      rw [Value.within_of_not_fits (mt (fits_natCast_iff ..).mp hfits),
        Value.within_of_not_fits (mt (fits_natCast_iff ..).mp hbig), Res.bind_fail]

section DecimalText

variable {s : State} (rd : VReg) {sg run rest : List Byte} {neg : Bool} (hmd : 1 ≤ s.params.maxDigits)
  (hfit : s.tlen ≤ s.params.textMax) (hsign : SignText sg neg) (hne : run ≠ [])
  (hrun : ∀ c ∈ run, isDecDigit c = true) (hrest : ∀ c, rest.head? = some c → isDecDigit c = false)
  (hpre : hasHexPrefix (run ++ rest) = false) (htext : s.text = sg ++ (run ++ rest))

include hrun hrest hpre in
theorem digitRun_dec : digitRun (run ++ rest) = run :=
  (digitRun_of_no_hexPrefix hpre).trans (takeWhile_run hrun hrest)

include hne hrun in
theorem unsigned_dec : Unsigned (run ++ rest) := by
  refine unsigned_of_isDecDigit fun c hc => hrun c (List.mem_of_mem_head? ?_)
  rwa [List.head?_append_of_ne_nil _ hne] at hc

include hrun hrest hpre in
theorem runMagnitude_dec (md : Nat) : runMagnitude md (run ++ rest) = decAccumulate md run (Value.ofInt (0 : Nat)) := by
  rw [runMagnitude, if_neg (by rw [hpre]; decide), digitRun_dec hrun hrest hpre, Value.zero_eq_ofNat]

include hmd hfit hsign hne hrun hrest hpre htext

/-- PARSE of a decimal text with a full leading part fails at capacity. -/
theorem exec_parse_dec_of_refused (h : DecRefused s.params.maxDigits 0 run) :
    exec (.parse rd) s = .next (failed (warned s false) 2#8) := by
  rw [exec_parse_of_run rd hfit hsign (fun _ => unsigned_dec hne hrun) htext
    (by rwa [digitRun_dec hrun hrest hpre]), runMagnitude_dec hrun hrest hpre,
    decAccumulate_of_refused hmd (Nat.pow_pos (by decide)) hrun h]
  rfl

/-- PARSE of a decimal text without a full leading part ends as the canonicaliser does on its number. -/
theorem exec_parse_dec_of_not_refused (h : ¬ DecRefused s.params.maxDigits 0 run) :
    exec (.parse rd) s =
      finishV rd (Value.within s.params.maxDigits (signed neg (decNumber run))) (warned s false) := by
  refine exec_parse_of_within rd hfit hsign (fun _ => unsigned_dec hne hrun) htext
    (by rwa [digitRun_dec hrun hrest hpre]) ?_
  rw [runMagnitude_dec hrun hrest hpre, decAccumulate_of_not_refused hmd (Nat.pow_pos (by decide)) hrun h]
  rfl

end DecimalText

/-- Settles O46: the statement's refusal is `DecRefused`, which decides how the accumulation ends. -/
theorem parseDecimalText : Obligations.ParseDecimalText := by
  intro s rd sg run rest neg ⟨hmd, _⟩ hfit hsign hne hrun hrest hpre htext z refused
  have hrefused : DecRefused s.params.maxDigits 0 run ↔ refused := Iff.rfl
  rw [← hrefused]
  by_cases h : DecRefused s.params.maxDigits 0 run
  · have hfails := exec_parse_dec_of_refused rd hmd hfit hsign hne hrun hrest hpre htext h
    exact ⟨fun hnot => absurd h hnot, fun _ => hfails⟩
  · have hends := exec_parse_dec_of_not_refused rd hmd hfit hsign hne hrun hrest hpre htext h
    exact ⟨fun _ hz => hends.trans (finishV_within_of_fits (s := warned s false) rd hz),
      fun hz => hends.trans (finishV_within_of_not_fits (s := warned s false) rd (hz.resolve_left h))⟩

end Sys2Proof.Machine

/-! ### FMTD, FMTH and FMTO (46_text_codec.md R154 to R160)

The numerals of the two formatters and how they read back (`decNumber_decimalText`, `hexNumber_hexText`); the
commands differ in nothing else. -/

namespace Sys2Proof.Machine

/-! The decimal numeral. -/

/-- A number above one digit has the numeral of its quotient by ten, then one digit. -/
theorem decimal_induction {P : Nat → Prop} (digit : ∀ k < 10, P k) (append : ∀ m, 10 ≤ m → P (m / 10) → P m)
    (m : Nat) : P m := by
  induction m using Nat.strongRecOn with
  | ind m ih =>
    rcases Nat.lt_or_ge m 10 with hlt | hge
    · exact digit m hlt
    · exact append m hge (ih _ (by omega))

theorem decimalText_digit {k : Nat} (hk : k < 10) : decimalText k = [BitVec.ofNat 8 (0x30 + k)] := by
  have hdig : ((Value.ofInt k).dig 0).toNat = k := by
    rw [Value.dig, Value.digits_ofInt, digitsOf_getD, Value.mag_ofNat]
    omega
  rw [← decChar_dig_ofNat hk, decChar, hdig]

/-- The numeral of a number above one digit, its last character apart. -/
theorem decimalText_append {m : Nat} (h : 10 ≤ m) :
    decimalText m = decimalText (m / 10) ++ [BitVec.ofNat 8 (0x30 + m % 10)] := by
  rw [decimalText_of_le h, decimalText_digit (Nat.mod_lt m (by decide))]

theorem decimalText_ne_nil (m : Nat) : decimalText m ≠ [] := by
  induction m using decimal_induction with
  | digit k hk => simp [decimalText_digit hk]
  | append m hm _ => simp [decimalText_append hm]

theorem ofNat_toNat_of_digit {k : Nat} (hk : k < 10) : (BitVec.ofNat 8 (0x30 + k)).toNat = 0x30 + k := by
  rw [BitVec.toNat_ofNat]
  omega

theorem isDecDigit_of_digit {k : Nat} (hk : k < 10) : isDecDigit (BitVec.ofNat 8 (0x30 + k)) = true := by
  rw [isDecDigit, ofNat_toNat_of_digit hk, decide_eq_true_iff]
  omega

theorem isDecDigit_of_mem_decimalText (m : Nat) : ∀ c ∈ decimalText m, isDecDigit c = true := by
  induction m using decimal_induction with
  | digit k hk =>
    rw [decimalText_digit hk, List.forall_mem_singleton]
    exact isDecDigit_of_digit hk
  | append m hm ih =>
    rw [decimalText_append hm, List.forall_mem_append, List.forall_mem_singleton]
    exact ⟨ih, isDecDigit_of_digit (Nat.mod_lt m (by decide))⟩

/-- The numeral spells its number. -/
theorem decNumber_decimalText (m : Nat) : decNumber (decimalText m) = m := by
  induction m using decimal_induction with
  | digit k hk =>
    rw [decimalText_digit hk, decNumber_eq_decFrom, decFrom_cons, ofNat_toNat_of_digit hk, decFrom_nil]
    omega
  | append m hm ih =>
    rw [decimalText_append hm, decNumber_append, ih, decFrom_cons, ofNat_toNat_of_digit (Nat.mod_lt m (by decide)),
      decFrom_nil]
    omega

/-- Only the numeral of zero begins with `0` (46_text_codec.md R154). -/
theorem eq_zero_of_head?_decimalText (m : Nat) : (decimalText m).head? = some 0x30#8 → m = 0 := by
  induction m using decimal_induction with
  | digit k hk =>
    intro hhead
    rw [decimalText_digit hk, List.head?_cons, Option.some_inj] at hhead
    have hcode := ofNat_toNat_of_digit hk
    rw [hhead, show (0x30#8).toNat = 0x30 from rfl] at hcode
    omega
  | append m hm ih =>
    intro hhead
    rw [decimalText_append hm, List.head?_append_of_ne_nil _ (decimalText_ne_nil _)] at hhead
    have hquot : m / 10 = 0 := ih hhead
    omega

theorem decimalText_zero : decimalText 0 = [0x30#8] := decimalText_digit (by decide)

/-! The hexadecimal numeral. -/

/-- The characters of a digit sequence, most significant first (46_text_codec.md R156). -/
def hexText (ds : List Digit) : List Byte := ds.reverse.map hexChar

theorem hexText_length (ds : List Digit) : (hexText ds).length = ds.length := by
  rw [hexText, List.length_map, List.length_reverse]

theorem hexValue_hexChar : ∀ d : Digit, hexValue (hexChar d) = d := by decide

theorem hexChar_class : ∀ d : Digit,
    isDecDigit (hexChar d) = true ∨ (0x61 ≤ (hexChar d).toNat ∧ (hexChar d).toNat ≤ 0x66) := by decide

theorem isHexDigit_hexChar : ∀ d : Digit, isHexDigit (hexChar d) = true := by decide

theorem hexChar_ne_minus : ∀ d : Digit, hexChar d ≠ 0x2D#8 := by decide

theorem forall_mem_hexText {P : Byte → Prop} (h : ∀ d, P (hexChar d)) (ds : List Digit) : ∀ c ∈ hexText ds, P c := by
  intro c hc
  obtain ⟨d, -, rfl⟩ := List.mem_map.mp hc
  exact h d

/-- The numeral spells the magnitude of its digits. -/
theorem hexNumber_hexText (ds : List Digit) : hexNumber (hexText ds) = magOf ds := by
  rw [← magOf_reverse_map_hexValue, hexText, List.map_map, (funext hexValue_hexChar : hexValue ∘ hexChar = id),
    List.map_id, List.reverse_reverse]

/-! The two commands. -/

/-- What a formatter leaves: the numeral `t` after the sign in the text buffer, and success. -/
def State.formatted (s : State) (sg : Bool) (t : List Byte) : State := (s.writeText (withSign sg t)).succeed

theorem finishText_withSign {s : State} {sg : Bool} {t : List Byte}
    (h : (withSign sg t).length ≤ s.params.textMax) :
    finishText (.ok (withSign sg t)) s = .next (s.formatted sg t) := by
  rw [finishText, Res.bind_ok, if_pos h, finish_ok]
  rfl

section Formatted

variable {s : State} (hwf : Memory.wf s.tbuf = true) {sg : Bool} {t : List Byte}
include hwf

theorem State.text_formatted : (s.formatted sg t).text = withSign sg t := State.text_writeText hwf _

/-- The bytes at and above a text keep their content (46_text_codec.md R155). -/
theorem State.read_formatted_of_le {j : Nat} (h : (s.formatted sg t).tlen ≤ j) :
    Memory.read (s.formatted sg t).tbuf j = Memory.read s.tbuf j := by
  have hlen : (withSign sg t).length ≤ j := h
  change Memory.read (Memory.writeAll s.tbuf 0 (withSign sg t)) j = _
  rw [Memory.read_writeAll 0 _ j hwf, if_neg (by omega)]

end Formatted

theorem Value.Canonical.withSign_eq {md : Nat} {a : Value} (ha : a.Canonical md) (t : List Byte) :
    withSign a.sign t = if a.val < 0 then 0x2D#8 :: t else t := by
  rw [if_congr ha.val_neg_iff rfl rfl]
  rfl

section Format

variable {s : State} {rs1 : VReg} (hp : s.params.Meets) (ha : (s.readV rs1).Canonical s.params.maxDigits)
include hp ha

/-- FMTD writes the decimal numeral after the sign (46_text_codec.md R155). -/
theorem exec_fmtd :
    exec (.fmtd rs1) s = .next (s.formatted (s.readV rs1).sign (decimalText (s.readV rs1).mag)) := by
  change finishText (fmtd _ _) s = _
  rw [fmtd_eq hp.1 ha, finishText_withSign (fmtd_text_fits hp ha)]

/-- FMTH writes the hexadecimal numeral after the sign (46_text_codec.md R158). -/
theorem exec_fmth :
    exec (.fmth rs1) s = .next (s.formatted (s.readV rs1).sign (hexText (s.readV rs1).digits)) :=
  finishText_withSign (fmth_text_fits hp ha)

end Format

/-- Settles O48: FMTD writes `decimalText` of the magnitude after the sign. -/
theorem formatDecimal : Obligations.FormatDecimal := by
  intro s rs1 hp ha hwf a
  refine ⟨decimalText (s.readV rs1).mag, _, exec_fmtd hp ha, decimalText_ne_nil _, isDecDigit_of_mem_decimalText _,
    fun hzero => ?leading, ?number, ?text, fun _ => State.read_formatted_of_le hwf, rfl⟩
  case leading => rw [eq_zero_of_head?_decimalText _ hzero, decimalText_zero]
  case number => rw [decNumber_decimalText, Value.natAbs_val]
  case text => exact (State.text_formatted hwf).trans (ha.withSign_eq _)

/-- Settles O49: FMTH writes one character per digit, `hexText`, after the sign. -/
theorem formatHexadecimal : Obligations.FormatHexadecimal := by
  intro s rs1 hp ha hwf a
  refine ⟨hexText (s.readV rs1).digits, _, exec_fmth hp ha, ?length, forall_mem_hexText hexChar_class _, ?number, ?text,
    fun _ => State.read_formatted_of_le hwf, rfl⟩
  case length =>
    rw [hexText_length, Value.natAbs_val]
    exact ha.len_eq
  case number =>
    rw [hexNumber_hexText, Value.natAbs_val]
    rfl
  case text => exact (State.text_formatted hwf).trans (ha.withSign_eq _)

/-- Settles O50: FMTO ends in the failure for every operand (46_text_codec.md R160). -/
theorem octalFormattingAlwaysFails : Obligations.OctalFormattingAlwaysFails :=
  fun _ _ => rfl

end Sys2Proof.Machine

/-! ### Round trips (46_text_codec.md R159, R165) -/

namespace Sys2Proof.Machine

/-! Machine integers. -/

/-- The signed reading of a scalar word, taken back to the word. -/
theorem State.sX_emod (s : State) (i : XReg) : (s.sX i % 2 ^ s.params.width).toNat = s.uX i := by
  have hword : BitVec.ofInt s.params.width (s.sX i) = BitVec.ofNat s.params.width (s.x.get i) := BitVec.ofInt_toInt
  rw [State.uX, ← hword]
  simp [BitVec.toNat_ofInt]

theorem uX_resultX (s : State) (i : XReg) (n : Nat) : (resultX s i n).uX i = n % 2 ^ s.params.width := by
  rw [State.uX_eq]
  exact congrArg (· % 2 ^ s.params.width) (RegFile.get_set_same ..)

/-- A scalar word other than the minimum has a magnitude below `2^(W-1)` (20_memory.md R43). -/
theorem State.natAbs_sX_lt {s : State} {i : XReg} (hw : 1 ≤ s.params.width)
    (h : s.sX i ≠ -(2 ^ (s.params.width - 1))) : (s.sX i).natAbs < 2 ^ (s.params.width - 1) := by
  have hlt : s.uX i < 2 ^ s.params.width := BitVec.isLt _
  have hpow : 2 ^ s.params.width = 2 * 2 ^ (s.params.width - 1) := by
    rw [← Nat.pow_succ', Nat.succ_eq_add_one, Nat.sub_add_cancel hw]
  have hcast : ((2 ^ s.params.width : Nat) : Int) = 2 ^ s.params.width := Nat.cast_pow 2 _
  have hcastHalf : ((2 ^ (s.params.width - 1) : Nat) : Int) = 2 ^ (s.params.width - 1) := Nat.cast_pow 2 _
  have hsX := s.sX_eq_ite i hw
  split at hsX <;> omega

/-- Settles O52: FROMINT leaves the value of the word's integer, so TOINT is asked for that integer
(`machineIntegerCommands`), which it gives back unless it is the minimum. -/
theorem machineIntegerRoundTrip : Obligations.MachineIntegerRoundTrip := by
  intro s vd xs xd hp hfits
  have ⟨hmd, hwidth, _⟩ := hp
  obtain ⟨-, hfromint, -⟩ := machineIntegerCommands s hp
  obtain ⟨-, -, htoint⟩ := machineIntegerCommands (resultV s vd (s.sX xs)) hp
  have hread : ((resultV s vd (s.sX xs)).readV vd).val = s.sX xs := by rw [readV_resultV, Value.val_ofInt]
  have hcanon : ((resultV s vd (s.sX xs)).readV vd).Canonical s.params.maxDigits := by
    rw [readV_resultV]
    exact Value.ofInt_canonical hmd hfits
  obtain ⟨hsmall, hbig⟩ := htoint xd vd hcanon
  rw [hread] at hsmall hbig
  obtain ⟨hwritten, -⟩ := hfromint vd xs
  have hw : 1 ≤ s.params.width := by omega
  refine ⟨_, hwritten hfits, rfl, fun hne => ⟨_, hsmall (State.natAbs_sX_lt hw hne), rfl, ?back⟩,
    fun hmin => hbig ?minimum⟩
  case back =>
    have hlt : s.uX xs < 2 ^ s.params.width := BitVec.isLt _
    rw [uX_resultX]
    change (s.sX xs % 2 ^ s.params.width).toNat % 2 ^ s.params.width = s.uX xs
    rw [State.sX_emod, Nat.mod_eq_of_lt hlt]
  case minimum =>
    rw [hmin, Int.natAbs_neg, Int.natAbs_pow]
    rfl

/-! Texts. -/

/-- The characters a formatter puts in front for a sign bit (46_text_codec.md R154, R157). -/
def signChars (sg : Bool) : List Byte := if sg then [0x2D#8] else []

theorem withSign_eq_append (sg : Bool) (t : List Byte) : withSign sg t = signChars sg ++ t := by
  cases sg <;> rfl

theorem signText_signChars (sg : Bool) : SignText (signChars sg) sg := by
  cases sg with
  | false => exact .inl ⟨rfl, rfl⟩
  | true => exact .inr (.inr ⟨rfl, rfl⟩)

/-- The `0x` goes behind the sign a formatter wrote, the text after it beginning with no `-`. -/
theorem insertPrefix_withSign (sg : Bool) {t : List Byte} (h : ∀ c ∈ t, c ≠ 0x2D#8) :
    insertPrefix (withSign sg t) = signChars sg ++ 0x30#8 :: 0x78#8 :: t := by
  cases sg with
  | true => rfl
  | false =>
    cases t with
    | nil => rfl
    | cons c t => exact if_neg (h c List.mem_cons_self)

/-- A text all of decimal digits has no `0x` in it. -/
theorem hasHexPrefix_of_dec {t : List Byte} (h : ∀ c ∈ t, isDecDigit c = true) : hasHexPrefix t = false := by
  match t with
  | [] | [_] => rfl
  | c :: x :: rest =>
    have hx : isDecDigit x = true := h x (by simp)
    have hlower : x ≠ chLowerX := by rintro rfl; exact absurd hx (by decide)
    have hupper : x ≠ chUpperX := by rintro rfl; exact absurd hx (by decide)
    simp [hasHexPrefix, hlower, hupper]

/-- The accumulation of a numeral is refused exactly when the number without its last digit is at least 2 and fills the
capacity: that leading part is the greatest (46_text_codec.md R149). -/
theorem decRefused_decimalText_iff (md m : Nat) :
    DecRefused md 0 (decimalText m) ↔ 2 ≤ m / 10 ∧ md ≤ ndig (m / 10) := by
  constructor
  · rintro ⟨pre, c, post, hsplit, htwo, hfull⟩
    have hge : 10 * decNumber pre ≤ m := by
      rw [← decNumber_decimalText m, hsplit]
      exact decNumber_append_cons_ge pre c post
    have hle : decNumber pre ≤ m / 10 := by omega
    exact ⟨htwo.trans hle, hfull.trans (ndig_mono hle)⟩
  · intro h
    refine ⟨decimalText (m / 10), _, [], decimalText_append (by omega), ?_⟩
    rw [← decNumber_eq_decFrom, decNumber_decimalText]
    exact h

/-- A command that succeeds with the integer of a canonical value has given back that value. -/
theorem exec_gives_back {a : Value} {md : Nat} (ha : a.Canonical md) {i : Instr} {s t : State} {vd : VReg}
    (h : exec i s = .next (resultV t vd a.val)) : ∃ u, exec i s = .next u ∧ u.status.err = 0#8 ∧ u.readV vd = a :=
  ⟨_, h, rfl, by rw [readV_resultV, ← ha.eq_ofInt]⟩

/-- Settles O53: PARSE of the numeral that FMTD wrote (`parseDecimalText`) is refused as the accumulation of the numeral
is (`decRefused_decimalText_iff`); otherwise it gives the value's own integer. -/
theorem decimalTextRoundTrip : Obligations.DecimalTextRoundTrip := by
  intro s vs vd ⟨hp, hcanon, _, _, _, hwf, _⟩ q
  have ha := hcanon vs
  have hq : q = (s.readV vs).mag / 10 := congrArg (· / 10) (Value.natAbs_val _)
  have hdec := isDecDigit_of_mem_decimalText (s.readV vs).mag
  have hpre : hasHexPrefix (decimalText (s.readV vs).mag ++ []) = false :=
    hasHexPrefix_of_dec (by rwa [List.append_nil])
  have hval : signed (s.readV vs).sign (decNumber (decimalText (s.readV vs).mag)) = (s.readV vs).val := by
    rw [decNumber_decimalText, Value.val_eq_signed]
  have hrefused : DecRefused s.params.maxDigits 0 (decimalText (s.readV vs).mag) ↔
      2 ≤ q ∧ s.params.maxDigits ≤ ndig q := by
    rw [hq, decRefused_decimalText_iff]
  have htext : (s.formatted (s.readV vs).sign (decimalText (s.readV vs).mag)).text =
      signChars (s.readV vs).sign ++ (decimalText (s.readV vs).mag ++ []) := by
    rw [State.text_formatted hwf, withSign_eq_append, List.append_nil]
  obtain ⟨hgives, hfails⟩ := parseDecimalText (s.formatted _ _) vd _ _ [] _ hp (fmtd_text_fits hp ha)
    (signText_signChars _) (decimalText_ne_nil _) hdec (by simp) hpre htext
  rw [hval] at hgives
  exact ⟨_, exec_fmtd hp ha, fun hadmitted => exec_gives_back ha (hgives (mt hrefused.mp (by omega)) ha.fits),
    fun htwo hfull => hfails (.inl (hrefused.mpr ⟨htwo, hfull⟩))⟩

/-- Settles O54: behind the sign the inserted `0x` and the numeral that FMTH wrote are a hexadecimal text of the
value's own integer (`parseHexadecimalText`), which fits. -/
theorem hexadecimalTextRoundTrip : Obligations.HexadecimalTextRoundTrip := by
  intro s vs vd ⟨hp, hcanon, _, _, _, hwf, _⟩
  have ha := hcanon vs
  refine ⟨_, exec_fmth hp ha, fun r hparams htext hfit => ?_⟩
  have hne : hexText (s.readV vs).digits ≠ [] := List.length_pos_iff.mp (by rw [hexText_length]; exact ha.1)
  have hprefixed : r.text = signChars (s.readV vs).sign ++ 0x30#8 :: 0x78#8 :: (hexText (s.readV vs).digits ++ []) := by
    rw [htext, List.append_nil, ← insertPrefix_withSign _ (forall_mem_hexText hexChar_ne_minus _)]
    exact congrArg insertPrefix (State.text_formatted hwf)
  have hval : signed (s.readV vs).sign (hexNumber (hexText (s.readV vs).digits)) = (s.readV vs).val := by
    rw [hexNumber_hexText]
    rfl
  have hcapacity : r.params.maxDigits = s.params.maxDigits := congrArg Params.maxDigits hparams
  obtain ⟨hgives, -⟩ := parseHexadecimalText r vd _ _ [] _ _ hfit (signText_signChars _) (.inl rfl) hne
    (forall_mem_hexText isHexDigit_hexChar _) (by simp) hprefixed
  rw [hval, hcapacity] at hgives
  exact exec_gives_back ha (hgives ha.fits)

end Sys2Proof.Machine

/-! ### The laws of arithmetic (47_arithmetic_laws.md R168, R170, R171)

On canonical values the block's functions are integer arithmetic, so its laws are those of the integers. -/

namespace Sys2Proof.Machine

/-- Settles O23: `Value.ofInt` is canonical below the capacity, and a canonical value is that of its own integer. -/
theorem representableIntegers : Obligations.RepresentableIntegers := by
  refine fun md z hmd => ⟨fun hz => ⟨Value.ofInt_canonical hmd hz, Value.val_ofInt z⟩, fun a ha hval => ?_⟩
  rw [← hval]
  exact ⟨ha.fits, ha.eq_ofInt⟩

section Units

variable {md : Nat} {a : Value} (ha : a.Canonical md)
include ha

/-- A factor of magnitude at most 1 never meets the multiplier's pre-check, on either side (44_multiplier.md R129). -/
theorem Value.Canonical.mul_unit_eq_ofInt {z : Int} (hz : z.natAbs ≤ 1) :
    Value.mul md a (Value.ofInt z) = .ok (Value.ofInt (a.val * z)) ∧
      Value.mul md (Value.ofInt z) a = .ok (Value.ofInt (a.val * z)) := by
  have hmd := ha.one_le_capacity
  have hfits : Fits md z := hz.trans_lt (Nat.one_lt_pow (by omega) (by decide))
  have hunit : (Value.ofInt z).Canonical md := Value.ofInt_canonical hmd hfits
  have hmag : (Value.ofInt z).mag ≤ 1 := (Value.mag_ofInt z).trans_le hz
  rw [ha.mul_eq_ofInt hunit (.inr (.inl hmag)), hunit.mul_eq_ofInt ha (.inl hmag), Value.val_ofInt, Int.mul_comm z]
  exact ⟨rfl, rfl⟩

/-- Negation never fails (42_additive.md R103). -/
theorem Value.Canonical.neg_eq_ofInt : Value.neg md a = .ok (Value.ofInt (-a.val)) := by
  rw [Value.neg_eq_within, Value.within_of_fits ((fits_neg_iff md a.val).mpr ha.fits)]

end Units

theorem Value.ofInt_one : Value.ofInt 1 = Value.one := by decide

/-- Settles O41: the three factors are `Value.ofInt` of 0, 1 and -1, of magnitude at most 1 (`mul_unit_eq_ofInt`). -/
theorem multiplicativeIdentities : Obligations.MultiplicativeIdentities := by
  intro md a ha
  obtain ⟨hzero, hzero'⟩ := ha.mul_unit_eq_ofInt (z := 0) (by decide)
  obtain ⟨hone, hone'⟩ := ha.mul_unit_eq_ofInt (z := 1) (by decide)
  obtain ⟨hminus, hminus'⟩ := ha.mul_unit_eq_ofInt (z := -1) (by decide)
  rw [Int.mul_zero, Value.ofInt_zero] at hzero hzero'
  rw [Int.mul_one, ← ha.eq_ofInt, Value.ofInt_one] at hone hone'
  rw [Int.mul_neg_one, ← ha.neg_eq_ofInt] at hminus hminus'
  exact ⟨hzero, hzero', hone, hone', hminus, hminus'⟩

/-- The state DIVREM leaves when the divider answers (45_divider.md R139). -/
theorem eq_of_exec_divrem {s t : State} {rd rd2 rs1 rs2 : VReg} {q r : Value}
    (hqr : Value.divrem s.params.maxDigits (s.readV rs1) (s.readV rs2) = .ok (q, r))
    (hexec : exec (.divrem rd rd2 rs1 rs2) s = .next t) : t = ((s.writeV rd q).writeV rd2 r).succeed := by
  rw [exec_eq, outcomeOf, hqr] at hexec
  cases hexec
  rfl

/-- By a zero divisor DIVREM writes a code that is not success (45_divider.md R131). -/
theorem err_ne_zero_of_exec_divrem {s t : State} {rd rd2 rs1 rs2 : VReg} (hzero : s.readV rs2 = .zero)
    (hexec : exec (.divrem rd rd2 rs1 rs2) s = .next t) : t.status.err ≠ 0#8 := by
  rw [exec_eq, outcomeOf, hzero, Value.divrem_zero] at hexec
  cases hexec
  exact errorCode_ne_zero .divideByZero

/-- Settles O44: a DIVREM that succeeds had a nonzero divisor, so its two registers hold the quotient and the remainder
of `dividerOutcome`. -/
theorem divisionIdentity : Obligations.DivisionIdentity := by
  intro s t rd rd2 rs1 rs2 hne ha hb hexec hok a b
  have hnonzero : s.readV rs2 ≠ .zero := fun hzero => err_ne_zero_of_exec_divrem hzero hexec hok
  obtain ⟨q, r, hqr, -, hr, -, -, -, -, hlt, hid, hsign, -⟩ := (dividerOutcome _ _ _ ha hb).2 hnonzero
  have ht := eq_of_exec_divrem hqr hexec
  have hq : t.readV rd = q := by
    rw [ht]
    exact (State.readV_writeV ..).trans ((if_neg hne).trans (RegFile.get_set_same ..))
  have hrem : t.readV rd2 = r := by
    rw [ht]
    exact RegFile.get_set_same ..
  rw [hq, hrem]
  refine ⟨hid, by rwa [Value.natAbs_val, Value.natAbs_val], hsign.imp hr.val_eq_zero_iff.mpr fun hs => ?_⟩
  rw [hr.val_neg_iff, ha.val_neg_iff, hs]

end Sys2Proof.Machine

/-! ### Presented words and failures (60_exceptions.md R186 to R193) -/

namespace Sys2Proof.Machine

section PresentWord

variable {s : State} {w : CommandWord}

theorem presentWord_of_aborted (ha : s.status.abort = true) : presentWord w s = .next s.discardWord := if_pos ha

theorem presentWord_of_command {i : Instr} (ha : s.status.abort = false) (hd : decode w = .command i) :
    presentWord w s = exec i s := by
  simp [presentWord, ha, hd]

theorem presentWord_of_illegal {why : Illegal} (ha : s.status.abort = false) (hd : decode w = .illegal why) :
    presentWord w s = .next (s.failWith .illegalCommand) := by
  simp [presentWord, ha, hd]

end PresentWord

/-- A word outside the opcode table's rows is refused by name (30_encoding.md R64, R65). -/
theorem exists_illegal_of_not_legalWord {w : CommandWord} (h : ¬ LegalWord w) : ∃ why, decode w = .illegal why := by
  cases hd : decode w with
  | illegal why => exact ⟨why, rfl⟩
  | command i => exact absurd ((legalWordsAreTheTableRows w).mp ⟨i, hd⟩) h

/-- Settles O4: a word that is no row of the table decodes to nothing (`legalWordsAreTheTableRows`). -/
theorem illegalWordsFailByName : Obligations.IllegalWordsFailByName := by
  intro s w rest hs ha hw
  obtain ⟨why, hd⟩ := exists_illegal_of_not_legalWord hw
  rw [step_of_host hs]
  exact presentWord_of_illegal (s := s.withHost rest) ha hd

/-- Settles O6: the abort check and the decoder leave the command alone (60_exceptions.md R189). -/
theorem stepRunsTheDecodedCommand : Obligations.StepRunsTheDecodedCommand := by
  refine ⟨fun s w i rest hs ha hd => ?word, fun s hs => ?idle⟩
  case word =>
    rw [step_of_host hs]
    exact presentWord_of_command (s := s.withHost rest) ha hd
  case idle => rw [step, hs]

/-- Settles O7: an aborted block does not decode the word (60_exceptions.md R193). -/
theorem abortedBlockDiscardsWords : Obligations.AbortedBlockDiscardsWords := by
  intro s w rest hs ha
  rw [step_of_host hs]
  exact presentWord_of_aborted (s := s.withHost rest) ha

/-- Settles O18: of the three ways a command ends (`exec_cases`), success writes the code 0, and the other two write
STATUS alone on the state that PARSE has recorded its warning in. -/
theorem failingCommandsWriteOnlyStatus : Obligations.FailingCommandsWriteOnlyStatus := by
  intro i s t h herr
  obtain ⟨b, hb⟩ := prepared_eq i s
  have hwarn := prepared_warn (i := i) s
  have hcases := exec_cases h
  rw [hb] at hwarn hcases
  obtain ⟨r, -, rfl⟩ | ⟨k, -, rfl⟩ | ⟨-, rfl⟩ := hcases
  case inl => exact absurd rfl herr
  case inr.inl => exact ⟨rfl, hwarn⟩
  case inr.inr => exact ⟨rfl, hwarn⟩

end Sys2Proof.Machine

/-! ### The host's writes and reset (70_reset_and_hazards.md R206, R216) -/

namespace Sys2Proof.Machine

/-- Settles O9: each write is answered, within its bound where it has one; a scalar register takes the low `W` bits. -/
theorem hostWritesTakeEffect : Obligations.HostWritesTakeEffect := by
  intro s rest
  refine ⟨fun i n hs => ?scalar, fun b hs => step_of_host hs, fun n hs hn => ?rawLen, fun k d hs hk => ?rawDigit,
    fun n hs hn => ?textLen, fun w hs => step_of_host hs⟩ <;> rw [step_of_host hs]
  case scalar =>
    rw [← ofInt_natCast_toNat]
    rfl
  case rawLen => exact if_neg (Nat.not_lt.mpr hn)
  case rawDigit => exact if_pos hk
  case textLen => exact if_neg (Nat.not_lt.mpr hn)

/-- Settles O10: the write is one of the buffer's cells, which reads back by `Memory.read_write`. -/
theorem hostWriteOfTextByte : Obligations.HostWriteOfTextByte := by
  intro s k b rest hs hk hwf
  refine ⟨{ popped s rest with tbuf := Memory.write s.tbuf k b }, ?step, ?written, fun a ha => ?others, rfl⟩
  case step =>
    rw [step_of_host hs]
    exact if_pos hk
  case written => exact (Memory.read_write k b k hwf).trans (if_pos rfl)
  case others => exact (Memory.read_write k b a hwf).trans (if_neg ha)

/-- Settles O14: the event is `State.resetWith`, whose register files hold one content at every index. -/
theorem resetEventClearsEverything : Obligations.ResetEventClearsEverything := by
  intro s rest hs
  refine ⟨State.resetWith s.params rest, step_of_host hs, rfl, rfl, fun i => RegFile.get_fill .., fun i => ?scalar, rfl,
    rfl, rfl, rfl, fun _ => rfl, rfl, rfl⟩
  rw [State.uX_eq, State.resetWith_x, RegFile.get_fill, Nat.zero_mod]

end Sys2Proof.Machine

/-! ### The end of a run (70_reset_and_hazards.md R218) -/

namespace Sys2Proof.Machine

section Perform

variable {a : HostAction} {s t : State}

theorem presentWord_host {w : CommandWord} (h : presentWord w s = .next t) : t.host = s.host := by
  obtain ⟨-, rfl⟩ | ⟨-, -, rfl⟩ | ⟨-, i, -, hexec⟩ := presentWord_cases h
  · rfl
  · rfl
  · obtain ⟨-, -, -, -, -, -, hhost, -⟩ := commandsWriteOnlyTheirDestinations i s t hexec
    exact hhost

/-- A host access, an action that is neither a presented word nor reset, leaves the value registers and the rest of the
host's list (70_reset_and_hazards.md R216); it leaves STATUS by `perform_status`. -/
theorem perform_access (hw : ∀ w, a ≠ .command w) (hr : a ≠ .reset) (h : perform a s = .next t) :
    t.v = s.v ∧ t.host = s.host := by
  cases a with
  | command w => exact absurd rfl (hw w)
  | reset => exact absurd rfl hr
  | writeX | writeRawSign | writeCfg => cases h; exact ⟨rfl, rfl⟩
  | writeRawLen => obtain ⟨-, rfl⟩ | ⟨-, rfl⟩ := hostWriteRawLen_cases h <;> exact ⟨rfl, rfl⟩
  | writeTextLen => obtain ⟨-, rfl⟩ | ⟨-, rfl⟩ := hostWriteTextLen_cases h <;> exact ⟨rfl, rfl⟩
  | writeRawDigit => obtain ⟨-, rfl⟩ := hostWriteRawDigit_next h; exact ⟨rfl, rfl⟩
  | writeText => obtain ⟨-, rfl⟩ := hostWriteText_next h; exact ⟨rfl, rfl⟩
  | read => rw [hostReads_next h]; exact ⟨rfl, rfl⟩

/-- No action of the host changes what it does next. -/
theorem perform_host (h : perform a s = .next t) : t.host = s.host := by
  by_cases hreset : a = .reset
  · subst hreset; cases h; rfl
  by_cases hword : ∃ w, a = .command w
  · obtain ⟨w, rfl⟩ := hword
    exact presentWord_host h
  · exact (perform_access (not_exists.mp hword) hreset h).2

/-- A step takes one action off the host's list, if there is one. -/
theorem step_host (h : step s = .next t) : t.host = s.host.tail := by
  obtain ⟨hs, rfl⟩ | ⟨a, rest, hs, ha⟩ := step_cases h
  · rw [hs, List.tail_nil]
  · rw [perform_host ha, hs, State.withHost_host, List.tail_cons]

end Perform

/-- A host access in front of the list presents no word. -/
theorem wordsLeft_cons_access {a : HostAction} (hw : ∀ w, a ≠ .command w) (hr : a ≠ .reset) (rest : List HostAction) :
    wordsLeft (a :: rest) = wordsLeft rest := by
  cases a with
  | command w => exact absurd rfl (hw w)
  | reset => exact absurd rfl hr
  | writeX | writeRawSign | writeRawLen | writeRawDigit | writeText | writeTextLen | writeCfg | read => rfl

/-- A run that has ended presents no word next. -/
theorem State.RunEnded.ne_command {s : State} {a : HostAction} {rest : List HostAction} (h : s.RunEnded)
    (hs : s.host = a :: rest) (w : CommandWord) : a ≠ .command w := by
  rintro rfl
  rw [State.RunEnded, hs] at h
  exact List.cons_ne_nil w _ h

/-- Settles O55: a step takes one action off the list (`step_host`), and what follows the last word is host accesses,
which present no word and leave V and STATUS (`perform_access`, `perform_status`). -/
theorem runEndsAtItsLastWord : Obligations.RunEndsAtItsLastWord := by
  refine ⟨fun s t h => step_host h, fun s t w rest hs h => ?word, fun s t hended hreset h => ?after⟩
  case word =>
    have hhost : t.host = rest := by rw [step_host h, hs, List.tail_cons]
    refine ⟨fun hended => hended.ne_command hs w rfl, ?_, ?_⟩
    · rw [State.RunEnded, hhost]
    · rw [State.EndedWell, State.RunEnded, hhost]
  case after =>
    obtain ⟨-, rfl⟩ | ⟨a, rest, hs, ha⟩ := step_cases h
    · exact ⟨hended, rfl, rfl, Iff.rfl⟩
    · have hword := hended.ne_command hs
      have hne : a ≠ .reset := by rintro rfl; exact hreset (by rw [hs, List.head?_cons])
      obtain ⟨hv, hhost⟩ := perform_access hword hne ha
      have hstatus : t.status = s.status := perform_status (s := s.withHost rest) hword hne ha
      have hended' : t.RunEnded := by
        rwa [State.RunEnded, hhost, State.withHost_host, ← wordsLeft_cons_access hword hne, ← hs]
      refine ⟨hended', hv, hstatus, ?_⟩
      rw [State.EndedWell, State.EndedWell, hstatus]
      exact and_congr_left' (iff_of_true hended' hended)

end Sys2Proof.Machine
